-- ==== Sys2Proof/Word.lean ====
section
/-! DEFINITION. The widths of spec 00_scope.md R13: a byte is 8 bits, a word 32 bits. -/

namespace Sys2Proof

/-- A byte, 8 bits (R13). -/
abbrev Byte := BitVec 8

/-- A word, 32 bits (R13): a register, a command, a host transfer. -/
abbrev Word := BitVec 32

/-- A host port address, 19 bits (20_memory.md R50). -/
abbrev PortAddr := BitVec 19

end Sys2Proof
end

