-- ==== Sys2Proof/Syntax.lean ====
section
/-! DEFINITION. The commands of spec/opcode_table.json (30_encoding.md R72), one constructor per row. -/

namespace Sys2Proof

/-- A command. The index operand of R71 is a table index: the Nat that `zext_32(word[23:8])` denotes. -/
inductive Instr
  /-- DECODE, OPC 0x01 (40_codec.md R103). -/
  | decode
  /-- ENCODE, OPC 0x02 (R104). -/
  | encode
  /-- TO_OFFSET, OPC 0x03 (R105). -/
  | toOffset
  /-- VALIDATE, OPC 0x04 (41_image_validator.md R121). -/
  | validate
  /-- VERIFY, OPC 0x05, on patch `i` (42_context_verifier.md R131). -/
  | verify (i : Nat)
  /-- APPLY_SINGLE, OPC 0x06, on patch `i` (43_patch_applier.md R141). -/
  | applySingle (i : Nat)
  /-- APPLY_REGION, OPC 0x07, on patch `i` (R143). -/
  | applyRegion (i : Nat)
  /-- COPY, OPC 0x08 (44_orchestrator.md R160). -/
  | copy
  /-- CHECK_CONFIG, OPC 0x09 (R163). -/
  | checkConfig
  /-- PATCH_STEP, OPC 0x0A, on patch `i` (R166). -/
  | patchStep (i : Nat)
  /-- CODE_WRITE, OPC 0x0B, on code `j` (R168). -/
  | codeWrite (j : Nat)
  /-- RUN, OPC 0x0C (R172). -/
  | run
  /-- CLEAR_COUNTS, OPC 0x0D (R175). -/
  | clearCounts
  deriving DecidableEq, Repr

end Sys2Proof
end

