-- ==== Sys2Proof/Decode.lean ====
section
/-! DEFINITION. The command word (30_encoding.md R70 to R73): its decoder, total on 32-bit words and rejecting by name
in the order of 60_exceptions.md R201, and after it the encoder of R87, from the same map (R72). -/

namespace Sys2Proof

/-- Why a command word is illegal: the three reasons of ILLEGAL_CMD (R201), in the order they are checked. -/
inductive DecodeError
  /-- REASON 1: OPC is 0x00 or lies in 0x0E to 0xFF. -/
  | opcUndefined
  /-- REASON 2: RSV is not 0. -/
  | rsvNonzero
  /-- REASON 3: IDX is not 0 for a command whose IDX must be 0. -/
  | idxNonzero
  deriving DecidableEq, Repr

/-- OPC, `word[7:0]` (R70). -/
def opcField (w : Word) : Nat := w.toNat % 0x100

/-- IDX, `zext_32(word[23:8])` (R71). -/
def idxField (w : Word) : Nat := w.toNat / 0x100 % 0x10000

/-- RSV, `word[31:24]` (R70). -/
def rsvField (w : Word) : Nat := w.toNat / 0x1000000

/-- The opcode map of R72, the index operand given to the commands that take one. -/
def instrOfOpc (opc idx : Nat) : Option Instr :=
  match opc with
  | 0x01 => some .decode
  | 0x02 => some .encode
  | 0x03 => some .toOffset
  | 0x04 => some .validate
  | 0x05 => some (.verify idx)
  | 0x06 => some (.applySingle idx)
  | 0x07 => some (.applyRegion idx)
  | 0x08 => some .copy
  | 0x09 => some .checkConfig
  | 0x0A => some (.patchStep idx)
  | 0x0B => some (.codeWrite idx)
  | 0x0C => some .run
  | 0x0D => some .clearCounts
  | _    => none

/-- The index operand a command carries; `none` for the commands whose IDX must be 0 (R71). -/
def Instr.index? : Instr → Option Nat
  | .decode        => none
  | .encode        => none
  | .toOffset      => none
  | .validate      => none
  | .verify i      => some i
  | .applySingle i => some i
  | .applyRegion i => some i
  | .copy          => none
  | .checkConfig   => none
  | .patchStep i   => some i
  | .codeWrite j   => some j
  | .run           => none
  | .clearCounts   => none

/-- The decoder: illegal words by R73, the reasons in the order of R201. -/
def decode (w : Word) : Except DecodeError Instr :=
  match instrOfOpc (opcField w) (idxField w) with
  | none   => .error .opcUndefined
  | some i =>
    if rsvField w ≠ 0 then .error .rsvNonzero
    else if i.index? = none ∧ idxField w ≠ 0 then .error .idxNonzero
    else .ok i

/-- The opcode number of a command (R72). -/
def Instr.opc : Instr → Nat
  | .decode        => 0x01
  | .encode        => 0x02
  | .toOffset      => 0x03
  | .validate      => 0x04
  | .verify _      => 0x05
  | .applySingle _ => 0x06
  | .applyRegion _ => 0x07
  | .copy          => 0x08
  | .checkConfig   => 0x09
  | .patchStep _   => 0x0A
  | .codeWrite _   => 0x0B
  | .run           => 0x0C
  | .clearCounts   => 0x0D

/-- The assembled word of R87, `(IDX << 8) | OPC`. -/
def encode (i : Instr) : Word := BitVec.ofNat 32 (i.index?.getD 0 * 0x100 + i.opc)

/-- What the decoder reads from a command word given as `nbits` bits numbered as the opcode table numbers them; there
is one length, 32 bits (R70), so nothing longer is a command. -/
def decodeTableWord (nbits w : Nat) : Option Instr :=
  if nbits ≤ 32 then (decode (BitVec.ofNat 32 (w % 2 ^ nbits))).toOption else none

end Sys2Proof
end

