-- ==== Sys2Proof/Config.lean ====
section
/-! DEFINITION. What is fixed for one block: the parameters of 00_scope.md R8, the constants of R9 and R10,
and the one free value of the spec (93_implementation_defined.md U2). -/

namespace Sys2Proof

/-- The block parameters of 00_scope.md R8. "A model takes the parameters as arguments" (R11): State carries one
of these as a constant no step writes. DESIGN CHOICE (notes/assumptions/1). -/
structure Params where
  /-- `ALPHABET`: symbol `ALPHABET[i]` has index `i`. -/
  alphabet  : List Byte
  /-- `HEADER_SIZE`, bytes of header before the content the codes address. -/
  headerSize : Nat
  /-- `IMAGE_LEN`, the fixed image length in bytes. -/
  imageLen  : Nat
  /-- `MAGIC[0..3]`. -/
  magic     : List Byte
  /-- `BANK0_OFF`. -/
  bank0Off  : Nat
  /-- `BANK0_VAL`. -/
  bank0Val  : Byte
  /-- `BANK1_OFF`. -/
  bank1Off  : Nat
  /-- `BANK1_VAL`. -/
  bank1Val  : Byte
  /-- `N_PATCH_MAX`, capacity of the descriptor table. -/
  nPatchMax : Nat
  /-- `N_CODE_MAX`, capacity of the code table. -/
  nCodeMax  : Nat
  deriving DecidableEq, Repr

/-- The defaults of R8, "the value this spec takes for the block": ASCII "APZLGITYEOXUKSVN", 16, 40976,
"NES" then 0x1A, bank fields 4/2 and 5/1, 256 and 256. PRESUMED by the spec itself, from general knowledge
(notes/assumptions/1); every rule is modelled for every parameter set. -/
def Params.default : Params where
  alphabet   := [0x41, 0x50, 0x5A, 0x4C, 0x47, 0x49, 0x54, 0x59, 0x45, 0x4F, 0x58, 0x55, 0x4B, 0x53, 0x56, 0x4E]
  headerSize := 16
  imageLen   := 40976
  magic      := [0x4E, 0x45, 0x53, 0x1A]
  bank0Off   := 4
  bank0Val   := 2
  bank1Off   := 5
  bank1Val   := 1
  nPatchMax  := 256
  nCodeMax   := 256

namespace Config

/-- `CODE_LEN` (R9). -/
abbrev codeLen : Nat := 6

/-- `ADDR_BASE` (R9): the codes address `[0x8000, 0xFFFF]`. -/
abbrev addrBase : Nat := 0x8000

/-- `MAX_EXP` (R10). -/
abbrev maxExp : Nat := 120

/-- `MAX_NEW` (R10). -/
abbrev maxNew : Nat := 120

/-- `DESC_SIZE` (R10). -/
abbrev descSize : Nat := 256

/-- `CODE_ENTRY_SIZE` (R10). -/
abbrev codeEntrySize : Nat := 8

/-- The index field of an error that concerns no entry (10_state.md R25). -/
abbrev noEntry : BitVec 16 := 0xFFFF

/-- FREE VALUE: what a host read that breaks the busy rule returns, the `n`-th such read having the value at `n`
(70_reset_and_hazards.md R233 "A hazard read returns an unspecified value"; U2 "any value"). No body: nothing can be
proved of it (notes/assumptions/6). -/
opaque freeWord : Nat → Word

end Config

end Sys2Proof
end

