-- ==== Sys2Proof/Machine/State.lean ====
section
/-! DEFINITION. The state of CPS as plain data (10_state.md R21 to R42) and its reset value (R44), with the types its
fields and the meanings use. -/

namespace Sys2Proof.Machine

/-- The byte memories of CPS (10_state.md R37 to R41). -/
inductive Buf
  /-- `SRC`, the source image. -/
  | src
  /-- `WORK`, the working image. -/
  | work
  /-- `PTAB`, the descriptor table. -/
  | ptab
  /-- `CTAB`, the code table. -/
  | ctab
  /-- `OUTCOME`, one byte per descriptor slot. -/
  | outcome
  deriving DecidableEq, Repr

/-- A byte memory: its listed cells, offsets strictly rising (`Memory.wf`). -/
abbrev Memory := List Host.Cell

/-- Why a step stops. -/
inductive Fault
  /-- UNWRITTEN: a read of a cell no write has reached since reset. Raised by every read of `SRC`, `WORK`, `PTAB` or
  `CTAB`: a command's checks, a window match, a host read (10_state.md R44 "A model treats a read of a cell that no
  write has reached since reset as the UNWRITTEN fault"; U1). Safe: hardware returns some value and goes on. -/
  | unwritten (b : Buf) (offset : Nat)
  deriving DecidableEq, Repr

/-- Why a step is refused. -/
inductive Refusal
  /-- An instruction without a meaning; no arm of this model raises it. Safe. -/
  | notModelled (mnemonic : String)
  /-- The parameters break 00_scope.md R11: "no block exists for it" (U11). Raised by the step, before anything else.
  Safe: it is about no hardware. -/
  | noSuchBlock
  deriving DecidableEq, Repr

/-- The error codes of STATUS.ERR (60_exceptions.md R200); no other code is ever produced. -/
inductive ErrCode
  | none
  | illegalCmd
  | indexRange
  | configError
  | invalidCode
  | formatError
  | addrRange
  | encodeRange
  | wrongKind
  | noneApplied
  deriving DecidableEq, Repr

/-- ERR_INFO (10_state.md R25). -/
structure ErrInfo where
  index  : BitVec 16
  reason : Byte
  pos    : Byte
  deriving DecidableEq, Repr

/-- What `raise E(info)` carries (00_scope.md R15). -/
structure CmdError where
  code : ErrCode
  info : ErrInfo
  deriving DecidableEq, Repr

/-- STATUS (10_state.md R23, R36); its reserved bits read 0 (`Status.word`). -/
structure Status where
  busy        : Bool
  done        : Bool
  outputValid : Bool
  matched     : Bool
  hazard      : Bool
  accessErr   : Bool
  err         : ErrCode
  deriving DecidableEq, Repr

/-- The phases of the sequencer (10_state.md R34). -/
inductive Phase
  | idle
  | config
  | format
  | patch
  | code
  | done
  deriving DecidableEq, Repr

/-- A sequencer position (R34), the program-counter analogue. -/
structure SeqPos where
  phase : Phase
  index : BitVec 16
  deriving DecidableEq, Repr

/-- The symbol indices of a code, in code order (00_scope.md R19; 30_encoding.md R75). -/
structure Nibbles where
  n0 : BitVec 4
  n1 : BitVec 4
  n2 : BitVec 4
  n3 : BitVec 4
  n4 : BitVec 4
  n5 : BitVec 4
  deriving DecidableEq, Repr

/-- The host-visible registers, in offset order (10_state.md R21). -/
inductive Reg
  | cmd
  | status
  | errInfo
  | appliedCnt
  | failedCnt
  | srcLen
  | patchCount
  | codeCount
  | codeIn0
  | codeIn1
  | decAddr
  | decValue
  | addrIn
  | offsetOut
  | encAddr
  | encValue
  | codeOut0
  | codeOut1
  | seqPos
  deriving DecidableEq, Repr

/-- The widths of a host access (20_memory.md R52). -/
inductive Width
  | byte
  | half
  | word
  deriving DecidableEq, Repr

/-- What a host access reaches: a register, or consecutive cells of a window (20_memory.md R51). -/
inductive Target
  | reg (r : Reg)
  | cells (b : Buf) (offset : Nat)
  deriving DecidableEq, Repr

/-- What happens to the block from outside, in the order it happens (20_memory.md R62). -/
inductive Input
  /-- A host read. -/
  | read (w : Width) (a : PortAddr)
  /-- A host write; the low bits of `v` are the value transferred. -/
  | write (w : Width) (a : PortAddr) (v : Word)
  /-- The engine's turn: it completes the command in progress, if there is one. -/
  | engine
  /-- The reset input is asserted (70_reset_and_hazards.md R230). -/
  | reset
  deriving DecidableEq, Repr

/-- The whole state. The registers and memories are those of 10_state.md; the last four fields are the model's own
(INVENTORY.md, notes/assumptions 1, 4, 5, 6). -/
structure State where
  /-- CMD, the last accepted command word (R22); while BUSY it is the command in progress. -/
  cmd        : Word
  /-- STATUS (R23). -/
  status     : Status
  /-- ERR_INFO (R25). -/
  errInfo    : ErrInfo
  /-- APPLIED_CNT (R26). -/
  appliedCnt : Word
  /-- FAILED_CNT (R26). -/
  failedCnt  : Word
  /-- SRC_LEN (R27). -/
  srcLen     : Word
  /-- PATCH_COUNT (R28). -/
  patchCount : BitVec 16
  /-- CODE_COUNT (R28). -/
  codeCount  : BitVec 16
  /-- CODE_IN0 (R29). -/
  codeIn0    : Word
  /-- CODE_IN1 (R29). -/
  codeIn1    : Word
  /-- DEC_ADDR (R30). -/
  decAddr    : BitVec 16
  /-- DEC_VALUE (R30). -/
  decValue   : Byte
  /-- ADDR_IN (R31). -/
  addrIn     : Word
  /-- OFFSET_OUT (R31). -/
  offsetOut  : Word
  /-- ENC_ADDR (R32). -/
  encAddr    : Word
  /-- ENC_VALUE (R32). -/
  encValue   : Byte
  /-- CODE_OUT0 (R32). -/
  codeOut0   : Word
  /-- CODE_OUT1 (R32). -/
  codeOut1   : Word
  /-- SEQ_POS (R33). -/
  seqPos     : SeqPos
  /-- SEQ (R34). -/
  seq        : SeqPos
  /-- SRC (R37). -/
  src        : Memory
  /-- WORK (R38). -/
  work       : Memory
  /-- PTAB (R39). -/
  ptab       : Memory
  /-- CTAB (R40). -/
  ctab       : Memory
  /-- OUTCOME (R41). -/
  outcome    : Memory
  /-- The block's parameters (R43: fixed; no step writes them). -/
  params     : Params
  /-- What the outside does next, oldest first. -/
  inputs     : List Input
  /-- The value the last host read returned. -/
  rdata      : Word
  /-- How many free values hazard reads have drawn. -/
  draws      : Nat
  deriving DecidableEq, Repr

/-- Why a command's checks end: an error raised (00_scope.md R15), or the model's stop. -/
inductive Stop
  | raised (e : CmdError)
  | faulted (f : Fault)
  deriving DecidableEq, Repr

/-- A computation of a command that reads the state, and may raise or stop. -/
abbrev Check (α : Type) := Except Stop α

/-- The end of a part of a command that writes the state: "State already written by that command stays written"
(00_scope.md R15), so a raise carries the state it arose in. -/
inductive RunResult
  | done (s : State)
  | raised (e : CmdError) (s : State)
  | faulted (f : Fault)
  deriving DecidableEq, Repr

/-- The state after reset (10_state.md R44): every register 0, `SEQ = (IDLE, 0)`, the engine idle, OUTCOME all 0x00 and
the other memories unwritten; the parameters at the defaults of 00_scope.md R8, no input pending. -/
def State.reset : State where
  cmd        := 0
  status     := ⟨false, false, false, false, false, false, .none⟩
  errInfo    := ⟨0, 0, 0⟩
  appliedCnt := 0
  failedCnt  := 0
  srcLen     := 0
  patchCount := 0
  codeCount  := 0
  codeIn0    := 0
  codeIn1    := 0
  decAddr    := 0
  decValue   := 0
  addrIn     := 0
  offsetOut  := 0
  encAddr    := 0
  encValue   := 0
  codeOut0   := 0
  codeOut1   := 0
  seqPos     := ⟨.idle, 0⟩
  seq        := ⟨.idle, 0⟩
  src        := []
  work       := []
  ptab       := []
  ctab       := []
  outcome    := []
  params     := Params.default
  inputs     := []
  rdata      := 0
  draws      := 0

end Sys2Proof.Machine
end

