-- ==== Sys2Proof/Machine/Flags.lean ====
section
/-! DEFINITION. The STATUS flags (10_state.md R23, R24, R36), and STATUS, ERR_INFO and SEQ_POS as the words the host
reads (R21, R25, R33). -/

namespace Sys2Proof.Machine

/-- The number of an error code (60_exceptions.md R200). -/
def errNumber : ErrCode → Nat
  | .none        => 0x00
  | .illegalCmd  => 0x01
  | .indexRange  => 0x02
  | .configError => 0x03
  | .invalidCode => 0x04
  | .formatError => 0x05
  | .addrRange   => 0x06
  | .encodeRange => 0x07
  | .wrongKind   => 0x08
  | .noneApplied => 0x09

/-- The number of a phase (10_state.md R34); 6 and 7 are never produced. -/
def phaseNumber : Phase → Nat
  | .idle   => 0
  | .config => 1
  | .format => 2
  | .patch  => 3
  | .code   => 4
  | .done   => 5

/-- STATUS as read: BUSY, DONE, OUTPUT_VALID, MATCH, HAZARD, ACCESS_ERR in bits 0 to 5, ERR in bits 15:8, every other
bit reserved and 0 (R21). -/
def statusWord (st : Status) : Word :=
  BitVec.ofNat 32 (st.busy.toNat + st.done.toNat * 0x2 + st.outputValid.toNat * 0x4 + st.matched.toNat * 0x8
    + st.hazard.toNat * 0x10 + st.accessErr.toNat * 0x20 + errNumber st.err * 0x100)

/-- ERR_INFO as read: INDEX in 15:0, REASON in 23:16, POS in 31:24 (R25). -/
def errInfoWord (e : ErrInfo) : Word :=
  BitVec.ofNat 32 (e.index.toNat + e.reason.toNat * 0x10000 + e.pos.toNat * 0x1000000)

/-- SEQ_POS as read: INDEX in 15:0, PHASE in 18:16 (R33). -/
def seqPosWord (q : SeqPos) : Word :=
  BitVec.ofNat 32 (q.index.toNat + phaseNumber q.phase * 0x10000)

/-- The commands whose acceptance clears OUTPUT_VALID (R36; 60_exceptions.md R202): those that write `WORK`. -/
def clearsOutputValid : Instr → Bool
  | .decode        => false
  | .encode        => false
  | .toOffset      => false
  | .validate      => false
  | .verify _      => false
  | .applySingle _ => true
  | .applyRegion _ => true
  | .copy          => true
  | .checkConfig   => false
  | .patchStep _   => true
  | .codeWrite _   => true
  | .run           => true
  | .clearCounts   => false

/-- STATUS when the word `w` is accepted (60_exceptions.md R202): BUSY 1, DONE 0, and OUTPUT_VALID 0 for the commands
that clear it. An illegal word clears nothing: DEDUCED (notes/assumptions/11). -/
def acceptStatus (w : Word) (st : Status) : Status :=
  { st with
    busy := true
    done := false
    outputValid := st.outputValid && !((decode w).toOption.elim false clearsOutputValid) }

/-- STATUS at a completion with error code `e` (60_exceptions.md R203): BUSY 0, DONE 1, MATCH as given. The sticky
flags belong to the host port and stay (R207). -/
def completeStatus (e : ErrCode) (m : Bool) (st : Status) : Status :=
  { st with busy := false, done := true, matched := m, err := e }

/-- STATUS after a host write of `v` to it (10_state.md R24): bits 4 and 5 clear HAZARD and ACCESS_ERR when written 1,
every other bit is ignored. -/
def writeStatus (v : Word) (st : Status) : Status :=
  { st with hazard := st.hazard && !(v.getLsbD 4), accessErr := st.accessErr && !(v.getLsbD 5) }

/-- `OUTPUT_VALID <- b`. -/
def setOutputValid (b : Bool) (s : State) : State :=
  { s with status := { s.status with outputValid := b } }

/-- A host access that breaks the busy rule sets HAZARD (70_reset_and_hazards.md R233). -/
def markHazard (s : State) : State :=
  { s with status := { s.status with hazard := true } }

/-- A host access the port does not admit sets ACCESS_ERR (20_memory.md R53). -/
def markAccessErr (s : State) : State :=
  { s with status := { s.status with accessErr := true } }

end Sys2Proof.Machine
end

