-- ==== Sys2Proof/WellFormed.lean ====
section
/-! DEFINITION. Which terms stand for something of the block: commands whose index fits IDX (30_encoding.md R71), and
parameter sets a block exists for (00_scope.md R11, 93_implementation_defined.md U11). -/

namespace Sys2Proof

/-- The index operand fits the 16 bits of IDX (R71); a command without an index operand always does. -/
def Instr.wf : Instr → Bool
  | .decode        => true
  | .encode        => true
  | .toOffset      => true
  | .validate      => true
  | .verify i      => decide (i < 0x10000)
  | .applySingle i => decide (i < 0x10000)
  | .applyRegion i => decide (i < 0x10000)
  | .copy          => true
  | .checkConfig   => true
  | .patchStep i   => decide (i < 0x10000)
  | .codeWrite j   => decide (j < 0x10000)
  | .run           => true
  | .clearCounts   => true

/-- No byte stands twice in the list ("pairwise distinct", R11). -/
def distinct : List Byte → Bool
  | []     => true
  | b :: t => !(t.contains b) && distinct t

/-- The constraints of R11 on the parameters, and the magic length of R9. -/
def Params.wf (P : Params) : Bool :=
  P.alphabet.length == 16 && distinct P.alphabet
    && P.magic.length == 4
    && decide (4 ≤ P.headerSize)
    && decide (P.bank0Off < P.headerSize) && decide (P.bank1Off < P.headerSize) && P.bank0Off != P.bank1Off
    && decide (P.headerSize + 0x8000 ≤ P.imageLen) && decide (P.imageLen ≤ 0x10000)
    && decide (1 ≤ P.nPatchMax) && decide (P.nPatchMax ≤ 256)
    && decide (1 ≤ P.nCodeMax) && decide (P.nCodeMax ≤ 8192)

end Sys2Proof
end

