-- ==== Sys2Proof/Machine/Ops.lean ====
section
/-! DEFINITION. The operations every meaning is written over: byte memories in their canonical form, reads that may meet
an unwritten cell, the sequencer position, acceptance (60_exceptions.md R202), completion and `raise` (R203). -/

namespace Sys2Proof.Machine

/-- What a cell that is not listed reads as: OUTCOME is 0x00 after reset, a cell of any other memory is unwritten
(10_state.md R44; notes/assumptions/2). -/
def unlisted : Buf → Option Byte
  | .outcome => some 0x00
  | .src     => none
  | .work    => none
  | .ptab    => none
  | .ctab    => none

/-- The number of cells of a memory (10_state.md R37 to R41). -/
def bufSize (P : Params) : Buf → Nat
  | .src     => P.imageLen
  | .work    => P.imageLen
  | .ptab    => Config.descSize * P.nPatchMax
  | .ctab    => Config.codeEntrySize * P.nCodeMax
  | .outcome => P.nPatchMax

/-- The byte at offset `k`, `d` where no cell is listed. -/
def memRead (d : Option Byte) : Memory → Nat → Option Byte
  | [], _ => d
  | (a, b) :: t, k => if k = a then some b else memRead d t k

/-- The cell that holds `v` at `k`: none when an unlisted cell reads as `v`. -/
def memCell (d : Option Byte) (k : Nat) (v : Byte) : Memory :=
  if d = some v then [] else [(k, v)]

/-- Write the byte `v` at offset `k`, keeping the canonical form. -/
def memWrite (d : Option Byte) : Memory → Nat → Byte → Memory
  | [], k, v => memCell d k v
  | (a, b) :: t, k, v =>
    if k < a then memCell d k v ++ (a, b) :: t
    else if k = a then memCell d k v ++ t
    else (a, b) :: memWrite d t k v

/-- `MemWrite(buf, k, bs)` (00_scope.md R15): byte `bs[i]` to offset `k + i`, in increasing offset order. -/
def memWriteList (d : Option Byte) (m : Memory) (k : Nat) : List Byte → Memory
  | []     => m
  | b :: t => memWriteList d (memWrite d m k b) (k + 1) t

/-- Every listed offset is at least `lo` and below `size`, offsets rise strictly, and no listed cell holds what an
unlisted one reads as. -/
def memWfFrom (d : Option Byte) (size : Nat) : Nat → Memory → Bool
  | _, [] => true
  | lo, (a, b) :: t => decide (lo ≤ a) && decide (a < size) && d != some b && memWfFrom d size (a + 1) t

/-- The canonical form of a memory of `size` cells. -/
def memWf (d : Option Byte) (size : Nat) (m : Memory) : Bool := memWfFrom d size 0 m

/-- The memory named `b`. -/
def getMem (s : State) : Buf → Memory
  | .src     => s.src
  | .work    => s.work
  | .ptab    => s.ptab
  | .ctab    => s.ctab
  | .outcome => s.outcome

/-- Replace the memory named `b`. -/
def setMem (s : State) (b : Buf) (m : Memory) : State :=
  match b with
  | .src     => { s with src := m }
  | .work    => { s with work := m }
  | .ptab    => { s with ptab := m }
  | .ctab    => { s with ctab := m }
  | .outcome => { s with outcome := m }

/-- The byte of memory `b` at offset `k`; `none` is an unwritten cell. -/
def byteAt (s : State) (b : Buf) (k : Nat) : Option Byte := memRead (unlisted b) (getMem s b) k

/-- `b[k] <- v`. -/
def writeByte (b : Buf) (k : Nat) (v : Byte) (s : State) : State :=
  setMem s b (memWrite (unlisted b) (getMem s b) k v)

/-- `MemWrite(b, k, bs)`. -/
def writeBytes (b : Buf) (k : Nat) (bs : List Byte) (s : State) : State :=
  setMem s b (memWriteList (unlisted b) (getMem s b) k bs)

/-- Read one cell; an unwritten one is the UNWRITTEN fault (R44). -/
def readCell (s : State) (b : Buf) (k : Nat) : Except Fault Byte :=
  match byteAt s b k with
  | some v => .ok v
  | none   => .error (.unwritten b k)

/-- `MemRead(b, k, n)` (00_scope.md R15), in increasing offset order. -/
def readCells (s : State) (b : Buf) (k : Nat) : Nat → Except Fault (List Byte)
  | 0     => .ok []
  | n + 1 =>
    match readCell s b k with
    | .error f => .error f
    | .ok v =>
      match readCells s b (k + 1) n with
      | .error f => .error f
      | .ok t    => .ok (v :: t)

/-- The number a byte sequence holds, the byte at the lowest address least significant (20_memory.md R52, R54). -/
def leValue : List Byte → Nat
  | []     => 0
  | b :: t => b.toNat + 0x100 * leValue t

/-- The `n` low bytes of a number, the least significant first (R52). -/
def leBytes : Nat → Nat → List Byte
  | 0, _     => []
  | n + 1, v => BitVec.ofNat 8 v :: leBytes n (v / 0x100)

/-- Byte `b` of a word, bits `[8*b+7 : 8*b]` (10_state.md R29). -/
def wordByte (w : Word) (b : Nat) : Byte := BitVec.ofNat 8 (w.toNat / 0x100 ^ b)

/-- A memory read made by a command. -/
def engineRead {α : Type} (r : Except Fault α) : Check α :=
  match r with
  | .ok a    => .ok a
  | .error f => .error (.faulted f)

/-- `raise E(info)` (00_scope.md R15). -/
def raise {α : Type} (e : CmdError) : Check α := .error (.raised e)

/-- Raise `e` unless `c` holds. -/
def require (c : Prop) [Decidable c] (e : CmdError) : Check Unit := if c then .ok () else raise e

/-- `SEQ <- (phase, index)` (00_scope.md R15). -/
def moveSeq (p : Phase) (i : BitVec 16) (s : State) : State := { s with seq := ⟨p, i⟩ }

/-- Acceptance of the word `w` (60_exceptions.md R202): CMD, BUSY, DONE, and OUTPUT_VALID where the command clears it,
all at once. -/
def accept (w : Word) (s : State) : State := { s with cmd := w, status := acceptStatus w s.status }

/-- Completion without a raise (60_exceptions.md R203), MATCH written as the command's rule says. -/
def complete (m : Bool) (s : State) : State :=
  { s with status := completeStatus .none m s.status, errInfo := ⟨0, 0, 0⟩ }

/-- Completion by `raise e` (60_exceptions.md R203), CPS's one form of exception: STATUS.ERR and ERR_INFO say which,
MATCH is 0, the engine is idle again. No control goes anywhere and nothing is saved (R204), so there is no return
operation either (R205). -/
def completeRaised (e : CmdError) (s : State) : State :=
  { s with status := completeStatus e.code false s.status, errInfo := e.info }

/-- What a command answers: its checks end well and `k` says the rest, or they raise, or they stop. -/
def runCheck {α : Type} (s : State) (c : Check α) (k : α → Host.Outcome State Fault Refusal) :
    Host.Outcome State Fault Refusal :=
  match c with
  | .ok a                => k a
  | .error (.raised e)   => .next (completeRaised e s)
  | .error (.faulted f)  => .fault f

/-- What a command that writes the state before it may raise answers; MATCH is 0 at its completion. -/
def runOutcome (r : RunResult) : Host.Outcome State Fault Refusal :=
  match r with
  | .done s     => .next (complete false s)
  | .raised e s => .next (completeRaised e s)
  | .faulted f  => .fault f

/-- Do `k` after `r`, unless `r` raised or stopped ("Nothing after the `raise` is performed", 00_scope.md R15). -/
def andThen (r : RunResult) (k : State → RunResult) : RunResult :=
  match r with
  | .done s     => k s
  | .raised e s => .raised e s
  | .faulted f  => .faulted f

/-- A check made inside a part of a command, in state `s`. -/
def withCheck {α : Type} (s : State) (c : Check α) (k : α → RunResult) : RunResult :=
  match c with
  | .ok a                => k a
  | .error (.raised e)   => .raised e s
  | .error (.faulted f)  => .faulted f

/-- `for i in list: body`, threading the state. -/
def forEach (body : Nat → State → RunResult) : List Nat → State → RunResult
  | [], s     => .done s
  | i :: t, s => andThen (body i s) (forEach body t)

end Sys2Proof.Machine
end

