-- ==== Sys2Proof/Machine/Operands.lean ====
section
/-! DEFINITION. Where a command's operands come from: the fields of a patch descriptor (30_encoding.md R80), the bytes of
a code entry (R85; 10_state.md R29), the index checks (44_orchestrator.md R162) and the descriptor check (R161); and the
errors with their ERR_INFO (60_exceptions.md R201).

A field is read whole when a rule first uses it, and a byte sequence one byte at a time as it is compared; what a
command does not use is not read. DESIGN CHOICE (notes/assumptions/3). -/

namespace Sys2Proof.Machine

/-- ILLEGAL_CMD: INDEX 0xFFFF, REASON 1, 2 or 3 (R201). -/
def illegalCmd (e : DecodeError) : CmdError :=
  match e with
  | .opcUndefined => ⟨.illegalCmd, ⟨Config.noEntry, 1, 0⟩⟩
  | .rsvNonzero   => ⟨.illegalCmd, ⟨Config.noEntry, 2, 0⟩⟩
  | .idxNonzero   => ⟨.illegalCmd, ⟨Config.noEntry, 3, 0⟩⟩

/-- INDEX_RANGE: INDEX the index, REASON 1 patch, 2 code (R201). -/
def indexRange (i : Nat) (reason : Byte) : CmdError := ⟨.indexRange, ⟨BitVec.ofNat 16 i, reason, 0⟩⟩

/-- CONFIG_ERROR: INDEX a patch index or 0xFFFF, REASON 1 to 9, POS 0 (R201; 44_orchestrator.md R161). -/
def configError (index : BitVec 16) (reason : Byte) : CmdError := ⟨.configError, ⟨index, reason, 0⟩⟩

/-- INVALID_CODE: INDEX a code index or 0xFFFF, REASON 1 LENGTH or 2 SYMBOL, POS the character position (R201). -/
def invalidCode (index : BitVec 16) (reason pos : Byte) : CmdError := ⟨.invalidCode, ⟨index, reason, pos⟩⟩

/-- FORMAT_ERROR: INDEX 0xFFFF, REASON 1 LENGTH, 2 MAGIC, 3 BANK0, 4 BANK1 (R201). -/
def formatError (reason : Byte) : CmdError := ⟨.formatError, ⟨Config.noEntry, reason, 0⟩⟩

/-- ADDR_RANGE: INDEX 0xFFFF (R201). -/
def addrRange : CmdError := ⟨.addrRange, ⟨Config.noEntry, 0, 0⟩⟩

/-- ENCODE_RANGE: INDEX 0xFFFF (R201). -/
def encodeRange : CmdError := ⟨.encodeRange, ⟨Config.noEntry, 0, 0⟩⟩

/-- WRONG_KIND: INDEX the patch, REASON the descriptor's KIND (R201). -/
def wrongKind (i : Nat) (kind : Nat) : CmdError := ⟨.wrongKind, ⟨BitVec.ofNat 16 i, BitVec.ofNat 8 kind, 0⟩⟩

/-- NONE_APPLIED: INDEX 0xFFFF (R201). -/
def noneApplied : CmdError := ⟨.noneApplied, ⟨Config.noEntry, 0, 0⟩⟩

/-- A field of descriptor `P[i]`: `n` bytes at byte `b` of it, little-endian (R80; 20_memory.md R54). `P[i]` starts at
byte `256*i` of PTAB. -/
def descField (s : State) (i b n : Nat) : Check Nat :=
  match readCells s .ptab (Config.descSize * i + b) n with
  | .ok bs   => .ok (leValue bs)
  | .error f => .error (.faulted f)

/-- `P[i].OFFSET`, bytes 0-3. -/
def descOffset (s : State) (i : Nat) : Check Nat := descField s i 0 4

/-- `P[i].KIND`, byte 4: 0 SINGLE, 1 REGION (R81). -/
def descKind (s : State) (i : Nat) : Check Nat := descField s i 4 1

/-- `P[i].EXP_LEN`, byte 5. -/
def descExpLen (s : State) (i : Nat) : Check Nat := descField s i 5 1

/-- `P[i].NEW_LEN`, byte 6. -/
def descNewLen (s : State) (i : Nat) : Check Nat := descField s i 6 1

/-- `P[i].BYTE`, byte 7: SINGLE's `newByte`, REGION's `filler`. -/
def descByte (s : State) (i : Nat) : Check Byte := engineRead (readCell s .ptab (Config.descSize * i + 7))

/-- `P[i].REGION_LEN`, bytes 8-9. -/
def descRegionLen (s : State) (i : Nat) : Check Nat := descField s i 8 2

/-- `P[i].RSV`, bytes 10-15. -/
def descRsv (s : State) (i : Nat) : Check Nat := descField s i 10 6

/-- The offset in PTAB of `P[i].EXPECTED[0]`, byte 16. -/
def expectedBase (i : Nat) : Nat := Config.descSize * i + 16

/-- The offset in PTAB of `P[i].NEWCODE[0]`, byte 136. -/
def newCodeBase (i : Nat) : Nat := Config.descSize * i + 136

/-- `P[i].EXPECTED[0]`, the single form's `oldByte` (R83). -/
def descOldByte (s : State) (i : Nat) : Check Byte := engineRead (readCell s .ptab (expectedBase i))

/-- `P[i].NEWCODE[0 .. n)`. -/
def descNewCode (s : State) (i n : Nat) : Check (List Byte) := engineRead (readCells s .ptab (newCodeBase i) n)

/-- Byte `b` of the code entry in CODE_IN0 and CODE_IN1 (10_state.md R29). -/
def codeInByte (s : State) (b : Nat) : Check Byte :=
  .ok (if b < 4 then wordByte s.codeIn0 b else wordByte s.codeIn1 (b - 4))

/-- Byte `b` of `C[j]`, which starts at byte `8*j` of CTAB (R85). -/
def codeEntryByte (s : State) (j b : Nat) : Check Byte :=
  engineRead (readCell s .ctab (Config.codeEntrySize * j + b))

/-- `check_index(i)` (44_orchestrator.md R162). -/
def checkIndex (s : State) (i : Nat) : Check Unit :=
  require (i < s.patchCount.toNat ∧ i < s.params.nPatchMax) (indexRange i 1)

/-- `check_code_index(j)` (R162). -/
def checkCodeIndex (s : State) (j : Nat) : Check Unit :=
  require (j < s.codeCount.toNat ∧ j < s.params.nCodeMax) (indexRange j 2)

/-- The part of `check_desc` for a SINGLE descriptor (R161). -/
def checkSingle (s : State) (i expLen : Nat) : Check Unit := do
  require (expLen ≠ 0) (configError (BitVec.ofNat 16 i) 4)
  let off ← descOffset s i
  require (off < s.params.imageLen) (configError (BitVec.ofNat 16 i) 7)

/-- The part of `check_desc` for a REGION descriptor (R161); the sum is exact (20_memory.md R60). -/
def checkRegion (s : State) (i : Nat) : Check Unit := do
  let newLen ← descNewLen s i
  require (newLen ≤ Config.maxNew) (configError (BitVec.ofNat 16 i) 5)
  let regionLen ← descRegionLen s i
  require (newLen ≤ regionLen) (configError (BitVec.ofNat 16 i) 6)
  let off ← descOffset s i
  require (off + regionLen ≤ s.params.imageLen) (configError (BitVec.ofNat 16 i) 7)

/-- `check_desc(i)` (R161): the first failing check of `P[i]` is raised. -/
def checkDesc (s : State) (i : Nat) : Check Unit := do
  let kind ← descKind s i
  require (kind = 0 ∨ kind = 1) (configError (BitVec.ofNat 16 i) 1)
  let rsv ← descRsv s i
  require (rsv = 0) (configError (BitVec.ofNat 16 i) 2)
  let expLen ← descExpLen s i
  require (expLen ≤ Config.maxExp) (configError (BitVec.ofNat 16 i) 3)
  if kind = 0 then checkSingle s i expLen else checkRegion s i

/-- What every patch command checks first, in this order (60_exceptions.md R206). -/
def checkPatch (s : State) (i : Nat) : Check Unit := do
  checkIndex s i
  checkDesc s i

end Sys2Proof.Machine
end

