-- ==== Sys2Proof/Machine/Codec.lean ====
section
/-! DEFINITION. CodeCodec: the code format (30_encoding.md R75 to R79), its functions (40_codec.md R100 to R102, R106) and
the commands DECODE, ENCODE, TO_OFFSET (R103 to R105). -/

namespace Sys2Proof.Machine

/-- `sym(ch)` (R100): the index of `ch` in ALPHABET, by exact byte equality. -/
def sym (P : Params) (ch : Byte) : Option (BitVec 4) :=
  (P.alphabet.findIdx? (fun x => x == ch)).map (BitVec.ofNat 4)

/-- `ALPHABET[n]` (R75). -/
def symbol (P : Params) (n : BitVec 4) : Byte := P.alphabet.getD n.toNat 0

/-- Character `k` of a code entry as a nibble, or INVALID_CODE with reason SYMBOL and position `k` (R101). -/
def checkSymbol (P : Params) (index : BitVec 16) (entry : Nat → Check Byte) (k : Nat) : Check (BitVec 4) := do
  let ch ← entry (1 + k)
  match sym P ch with
  | some n => pure n
  | none   => raise (invalidCode index 2 (BitVec.ofNat 8 k))

/-- `check_code(e)` (R101) on the entry whose byte `b` is `entry b`, the failure raised with the given INDEX. PAD, byte
7, is not read. -/
def checkCode (P : Params) (index : BitVec 16) (entry : Nat → Check Byte) : Check Nibbles := do
  let len ← entry 0
  require (len.toNat = Config.codeLen) (invalidCode index 1 0)
  let n0 ← checkSymbol P index entry 0
  let n1 ← checkSymbol P index entry 1
  let n2 ← checkSymbol P index entry 2
  let n3 ← checkSymbol P index entry 3
  let n4 ← checkSymbol P index entry 4
  let n5 ← checkSymbol P index entry 5
  pure ⟨n0, n1, n2, n3, n4, n5⟩

/-- A nibble as an address-wide number. -/
def nibble16 (n : BitVec 4) : BitVec 16 := n.setWidth 16

/-- A nibble as a byte. -/
def nibble8 (n : BitVec 4) : Byte := n.setWidth 8

/-- The address of a code (30_encoding.md R77); no shift loses a bit, since each term is masked first (00_scope.md
R14). -/
def decodeAddr (n : Nibbles) : BitVec 16 :=
  0x8000 ||| ((nibble16 n.n3 &&& 7) <<< 12) ||| ((nibble16 n.n5 &&& 7) <<< 8) ||| ((nibble16 n.n4 &&& 8) <<< 8)
    ||| ((nibble16 n.n2 &&& 7) <<< 4) ||| ((nibble16 n.n1 &&& 8) <<< 4) ||| (nibble16 n.n4 &&& 7)
    ||| (nibble16 n.n3 &&& 8)

/-- The value of a code (R77). -/
def decodeValue (n : Nibbles) : Byte :=
  ((nibble8 n.n1 &&& 7) <<< 4) ||| ((nibble8 n.n0 &&& 8) <<< 4) ||| (nibble8 n.n0 &&& 7) ||| (nibble8 n.n5 &&& 8)

/-- The inverse assembly (R79); `n2[3]` is 0 (R78). -/
def encodeNibbles (a : BitVec 16) (v : Byte) : Nibbles where
  n0 := ((v &&& 7) ||| ((v >>> 4) &&& 8)).setWidth 4
  n1 := ((v >>> 4) &&& 7).setWidth 4 ||| ((a >>> 4) &&& 8).setWidth 4
  n2 := ((a >>> 4) &&& 7).setWidth 4
  n3 := (((a >>> 12) &&& 7) ||| (a &&& 8)).setWidth 4
  n4 := ((a &&& 7) ||| ((a >>> 8) &&& 8)).setWidth 4
  n5 := ((a >>> 8) &&& 7).setWidth 4 ||| (v &&& 8).setWidth 4

/-- `to_offset(a)` (40_codec.md R106). -/
def toOffset (P : Params) (a : Nat) : Option Nat :=
  if Config.addrBase ≤ a ∧ a ≤ 0xFFFF then some (a - Config.addrBase + P.headerSize) else none

/-- CODE_OUT0 of a code: L = 6, c0, c1, c2 (40_codec.md R104). -/
def codeOutWord0 (P : Params) (n : Nibbles) : Word :=
  BitVec.ofNat 32 (leValue [6, symbol P n.n0, symbol P n.n1, symbol P n.n2])

/-- CODE_OUT1 of a code: c3, c4, c5, PAD = 0 (R104). -/
def codeOutWord1 (P : Params) (n : Nibbles) : Word :=
  BitVec.ofNat 32 (leValue [symbol P n.n3, symbol P n.n4, symbol P n.n5, 0])

/-- DECODE (R103). -/
def execDecode (s : State) : Host.Outcome State Fault Refusal :=
  runCheck s (checkCode s.params Config.noEntry (codeInByte s)) fun n =>
    .next (complete false { s with decAddr := decodeAddr n, decValue := decodeValue n })

/-- ENCODE (R104): every bit of ENC_ADDR is checked. -/
def execEncode (s : State) : Host.Outcome State Fault Refusal :=
  runCheck s (require (0x8000 ≤ s.encAddr.toNat ∧ s.encAddr.toNat ≤ 0xFFFF) encodeRange) fun _ =>
    let n := encodeNibbles (s.encAddr.setWidth 16) s.encValue
    .next (complete false { s with codeOut0 := codeOutWord0 s.params n, codeOut1 := codeOutWord1 s.params n })

/-- TO_OFFSET (R105): every bit of ADDR_IN is checked. -/
def execToOffset (s : State) : Host.Outcome State Fault Refusal :=
  match toOffset s.params s.addrIn.toNat with
  | none     => .next (completeRaised addrRange s)
  | some off => .next (complete false { s with offsetOut := BitVec.ofNat 32 off })

end Sys2Proof.Machine
end

