-- ==== Sys2Proof/Machine/ContextVerifier.lean ====
section
/-! DEFINITION. ContextVerifier: the window match (42_context_verifier.md R130) and the command VERIFY (R131). -/

namespace Sys2Proof.Machine

/-- `WORK[off .. off+n)` equals the bytes of PTAB from `base`, compared in increasing order and ending at the first
difference. -/
def matchFrom (s : State) (off base : Nat) : Nat → Check Bool
  | 0     => .ok true
  | n + 1 => do
    let have' ← engineRead (readCell s .work off)
    let want ← engineRead (readCell s .ptab base)
    if have' = want then matchFrom s (off + 1) (base + 1) n else .ok false

/-- `match(WORK, off, exp)` (R130), `exp` being the `n` bytes of PTAB from `base`: an empty window matches, a window
that leaves the image does not (the sum is exact, 20_memory.md R60). -/
def matchWindow (s : State) (off base n : Nat) : Check Bool :=
  if n = 0 then .ok true
  else if off + n > s.params.imageLen then .ok false
  else matchFrom s off base n

/-- `match(WORK, P[i].OFFSET, P[i].EXPECTED[0 .. P[i].EXP_LEN))` (R131, R165). -/
def matchPatch (s : State) (i : Nat) : Check Bool := do
  let off ← descOffset s i
  let n ← descExpLen s i
  matchWindow s off (expectedBase i) n

/-- VERIFY (R131). -/
def execVerify (i : Nat) (s : State) : Host.Outcome State Fault Refusal :=
  runCheck s (do checkPatch s i; matchPatch s i) fun m => .next (complete m s)

end Sys2Proof.Machine
end

