-- ==== Sys2Proof/Machine/ImageValidator.lean ====
section
/-! DEFINITION. ImageValidator: the validation function (41_image_validator.md R120) and the command VALIDATE (R121). -/

namespace Sys2Proof.Machine

/-- `SRC[k ..]` holds the given bytes, compared one at a time and ending at the first that differs (R120). -/
def checkMagic (s : State) (k : Nat) : List Byte → Check Unit
  | []     => .ok ()
  | b :: t => do
    let v ← engineRead (readCell s .src k)
    require (v = b) (formatError 2)
    checkMagic s (k + 1) t

/-- `validate()` (R120), its failure raised as FORMAT_ERROR: LENGTH, MAGIC, BANK0, BANK1 in this order; no cell of SRC
is read after a failure. -/
def validate (s : State) : Check Unit := do
  require (s.srcLen.toNat = s.params.imageLen) (formatError 1)
  checkMagic s 0 s.params.magic
  let b0 ← engineRead (readCell s .src s.params.bank0Off)
  require (b0 = s.params.bank0Val) (formatError 3)
  let b1 ← engineRead (readCell s .src s.params.bank1Off)
  require (b1 = s.params.bank1Val) (formatError 4)

/-- VALIDATE (R121). -/
def execValidate (s : State) : Host.Outcome State Fault Refusal :=
  runCheck s (validate s) fun _ => .next (complete false s)

end Sys2Proof.Machine
end

