-- ==== Sys2Proof/Machine/PatchApplier.lean ====
section
/-! DEFINITION. PatchApplier: the single-byte and region forms (43_patch_applier.md R140, R142) and the commands
APPLY_SINGLE and APPLY_REGION (R141, R143). -/

namespace Sys2Proof.Machine

/-- `apply_single(off, old, new)` (R140): whether it applied, and the state. -/
def applySingle (off : Nat) (old new : Byte) (s : State) : Check (Bool × State) := do
  let cur ← engineRead (readCell s .work off)
  if cur = old then pure (true, writeByte .work off new s) else pure (false, s)

/-- The bytes a region holds after `apply_region`: `code[k]` for `k < len(code)`, then filler, `rl` bytes in all
(R142). -/
def regionBytes (code : List Byte) (rl : Nat) (filler : Byte) : List Byte :=
  code.take rl ++ List.replicate (rl - code.length) filler

/-- `apply_region(off, code, rl, filler)` (R142). -/
def applyRegion (off : Nat) (code : List Byte) (rl : Nat) (filler : Byte) (s : State) : State :=
  writeBytes .work off (regionBytes code rl filler) s

/-- `apply_single` on the operands of descriptor `P[i]` (R141, R165; `oldByte` is `EXPECTED[0]`, 30_encoding.md R83). -/
def applySinglePatch (i : Nat) (s : State) : Check (Bool × State) := do
  let off ← descOffset s i
  let old ← descOldByte s i
  let new ← descByte s i
  applySingle off old new s

/-- `apply_region` on the operands of descriptor `P[i]` (R143, R165). -/
def applyRegionPatch (i : Nat) (s : State) : Check State := do
  let off ← descOffset s i
  let newLen ← descNewLen s i
  let code ← descNewCode s i newLen
  let rl ← descRegionLen s i
  let filler ← descByte s i
  pure (applyRegion off code rl filler s)

/-- Raise WRONG_KIND unless `P[i].KIND` is `kind` (R141, R143). -/
def checkKind (s : State) (i kind : Nat) : Check Unit := do
  let k ← descKind s i
  require (k = kind) (wrongKind i k)

/-- APPLY_SINGLE (R141). Its acceptance has cleared OUTPUT_VALID already (60_exceptions.md R202); the meaning writes it
too, so that it is the rule's whole effect in every state (notes/assumptions/8). -/
def execApplySingle (i : Nat) (s : State) : Host.Outcome State Fault Refusal :=
  let s := setOutputValid false s
  runCheck s (do checkPatch s i; checkKind s i 0; applySinglePatch i s) fun r => .next (complete r.1 r.2)

/-- APPLY_REGION (R143): the expected window is not read. -/
def execApplyRegion (i : Nat) (s : State) : Host.Outcome State Fault Refusal :=
  let s := setOutputValid false s
  runCheck s (do checkPatch s i; checkKind s i 1; applyRegionPatch i s) fun s' => .next (complete false s')

end Sys2Proof.Machine
end

