-- ==== Sys2Proof/Machine/Orchestrator.lean ====
section
/-! DEFINITION. Orchestrator (44_orchestrator.md): COPY, CHECK_CONFIG, PATCH_STEP, CODE_WRITE, RUN, CLEAR_COUNTS. -/

namespace Sys2Proof.Machine

/-- `for k in 0 .. IMAGE_LEN-1: WORK[k] <- SRC[k]` (R160, R172). An unwritten cell of SRC leaves its cell of WORK
unwritten (93_implementation_defined.md U1). -/
def copyImage (s : State) : State :=
  { s with work := s.src.filter (fun c => decide (c.1 < s.params.imageLen)) }

/-- `APPLIED_CNT <- 0; FAILED_CNT <- 0`, and every OUTCOME byte 0x00 (R172, R175). -/
def clearCounts (s : State) : State := { s with appliedCnt := 0, failedCnt := 0, outcome := [] }

/-- SEQ moves inside `check_config` only when RUN calls it (R164). -/
def moveSeqIf (b : Bool) (p : Phase) (i : BitVec 16) (s : State) : State := if b then moveSeq p i s else s

/-- The check of descriptor `i` inside `check_config` (R164). -/
def configDesc (inRun : Bool) (i : Nat) (s : State) : RunResult :=
  let s := moveSeqIf inRun .config (BitVec.ofNat 16 i) s
  withCheck s (checkDesc s i) fun _ => .done s

/-- The check of code `j` inside `check_config` (R164). -/
def configCode (inRun : Bool) (j : Nat) (s : State) : RunResult :=
  let s := moveSeqIf inRun .config (BitVec.ofNat 16 j) s
  withCheck s (checkCode s.params (BitVec.ofNat 16 j) (codeEntryByte s j)) fun _ => .done s

/-- The two count checks of `check_config` (R164). -/
def checkCounts (s : State) : Check Unit := do
  require (s.patchCount.toNat ≤ s.params.nPatchMax) (configError Config.noEntry 8)
  require (s.codeCount.toNat ≤ s.params.nCodeMax) (configError Config.noEntry 9)

/-- `check_config()` (R164): the counts, each descriptor in index order, each code in index order. -/
def checkConfig (inRun : Bool) (s : State) : RunResult :=
  let s := moveSeqIf inRun .config Config.noEntry s
  withCheck s (checkCounts s) fun _ =>
  andThen (forEach (configDesc inRun) (List.range s.patchCount.toNat) s) fun s =>
  forEach (configCode inRun) (List.range s.codeCount.toNat) s

/-- The patch form of descriptor `P[i]` applied (R165). -/
def applyPatch (i : Nat) (s : State) : Check State := do
  let kind ← descKind s i
  if kind = 0 then do
    let r ← applySinglePatch i s
    pure r.2
  else applyRegionPatch i s

/-- APPLIED_CNT gains 1 modulo 2^32 and `OUTCOME[i]` is APPLIED (R165; 10_state.md R26, R41). -/
def countApplied (i : Nat) (s : State) : State :=
  writeByte .outcome i 0x01 { s with appliedCnt := s.appliedCnt + 1 }

/-- FAILED_CNT gains 1 modulo 2^32 and `OUTCOME[i]` is CONTEXT_MISMATCH (R165). -/
def countFailed (i : Nat) (s : State) : State :=
  writeByte .outcome i 0x02 { s with failedCnt := s.failedCnt + 1 }

/-- `patch_step(i)` (R165): whether the window matched, and the state. -/
def patchStep (i : Nat) (s : State) : Check (Bool × State) := do
  let m ← matchPatch s i
  if m then do
    let s' ← applyPatch i s
    pure (true, countApplied i s')
  else pure (false, countFailed i s)

/-- The pair of a code and the image offset it names: `decode` then `to_offset` (R167). The failure of `to_offset` is
checked, as 40_codec.md R106 asks, and cannot arise (`toOffset_decodeAddr`). -/
def codeTarget (P : Params) (n : Nibbles) : Check (BitVec 16 × Byte × Nat) :=
  match toOffset P (decodeAddr n).toNat with
  | some off => .ok (decodeAddr n, decodeValue n, off)
  | none     => raise addrRange

/-- What `code_write(j)` is about to write (R167): address, value, offset. -/
def codeWriteOperands (s : State) (j : Nat) : Check (BitVec 16 × Byte × Nat) := do
  let n ← checkCode s.params (BitVec.ofNat 16 j) (codeEntryByte s j)
  codeTarget s.params n

/-- COPY (R160). SRC_LEN is not read. -/
def execCopy (s : State) : Host.Outcome State Fault Refusal :=
  .next (complete false (copyImage (setOutputValid false s)))

/-- CHECK_CONFIG (R163): `check_config()` with no SEQ writes. -/
def execCheckConfig (s : State) : Host.Outcome State Fault Refusal :=
  runOutcome (checkConfig false s)

/-- PATCH_STEP (R166). -/
def execPatchStep (i : Nat) (s : State) : Host.Outcome State Fault Refusal :=
  let s := setOutputValid false s
  runCheck s (do checkPatch s i; patchStep i s) fun r => .next (complete r.1 r.2)

/-- CODE_WRITE (R168): the write is unconditional and uncounted (R167, R169). -/
def execCodeWrite (j : Nat) (s : State) : Host.Outcome State Fault Refusal :=
  let s := setOutputValid false s
  runCheck s (do checkCodeIndex s j; codeWriteOperands s j) fun r =>
    .next (complete false { writeByte .work r.2.2 r.2.1 s with
      decAddr := r.1, decValue := r.2.1, offsetOut := BitVec.ofNat 32 r.2.2 })

/-- One turn of RUN's PATCH phase (R172). -/
def runPatch (i : Nat) (s : State) : RunResult :=
  let s := moveSeq .patch (BitVec.ofNat 16 i) s
  withCheck s (patchStep i s) fun r => .done r.2

/-- One turn of RUN's CODE phase (R172). RUN writes no result register (92_eei_decisions.md D49). -/
def runCode (j : Nat) (s : State) : RunResult :=
  let s := moveSeq .code (BitVec.ofNat 16 j) s
  withCheck s (codeWriteOperands s j) fun r => .done (writeByte .work r.2.2 r.2.1 s)

/-- RUN's FORMAT phase and the copy that follows it (R172). -/
def runFormat (s : State) : RunResult :=
  let s := moveSeq .format Config.noEntry s
  withCheck s (validate s) fun _ => .done (copyImage s)

/-- RUN's last phase (R172, R171). -/
def runDone (s : State) : RunResult :=
  let s := moveSeq .done 0 s
  if s.appliedCnt = 0 then .raised noneApplied s else .done (setOutputValid true s)

/-- The pseudocode of RUN (R172), up to its completion. -/
def runBody (s : State) : RunResult :=
  andThen (checkConfig true (clearCounts (setOutputValid false s))) fun s =>
  andThen (runFormat s) fun s =>
  andThen (forEach runPatch (List.range s.patchCount.toNat) s) fun s =>
  andThen (forEach runCode (List.range s.codeCount.toNat) s) runDone

/-- `SEQ_POS <- SEQ`, at RUN's completion "whether raised or not" (R172). -/
def latchSeq (s : State) : State := { s with seqPos := s.seq }

/-- RUN (R172). -/
def execRun (s : State) : Host.Outcome State Fault Refusal :=
  match runBody s with
  | .done s     => .next (complete false (latchSeq s))
  | .raised e s => .next (completeRaised e (latchSeq s))
  | .faulted f  => .fault f

/-- CLEAR_COUNTS (R175). -/
def execClearCounts (s : State) : Host.Outcome State Fault Refusal :=
  .next (complete false (clearCounts s))

end Sys2Proof.Machine
end

