-- ==== Sys2Proof/Machine/Dispatch.lean ====
section
/-! DEFINITION. Which meaning each command has: one arm per row of spec/opcode_table.json. -/

namespace Sys2Proof.Machine

/-- Perform the command `i`, from its acceptance to its completion. -/
def exec (i : Instr) (s : State) : Host.Outcome State Fault Refusal :=
  match i with
  | .decode => Sys2Proof.Machine.execDecode s
  | .encode => Sys2Proof.Machine.execEncode s
  | .toOffset => Sys2Proof.Machine.execToOffset s
  | .validate => Sys2Proof.Machine.execValidate s
  | .verify k => Sys2Proof.Machine.execVerify k s
  | .applySingle k => Sys2Proof.Machine.execApplySingle k s
  | .applyRegion k => Sys2Proof.Machine.execApplyRegion k s
  | .copy => Sys2Proof.Machine.execCopy s
  | .checkConfig => Sys2Proof.Machine.execCheckConfig s
  | .patchStep k => Sys2Proof.Machine.execPatchStep k s
  | .codeWrite k => Sys2Proof.Machine.execCodeWrite k s
  | .run => Sys2Proof.Machine.execRun s
  | .clearCounts => Sys2Proof.Machine.execClearCounts s

end Sys2Proof.Machine
end

