-- ==== Sys2Proof/Machine/Port.lean ====
section
/-! DEFINITION. The host port: the map (20_memory.md R51), widths and byte order (R52), what is admitted (R53), the
registers as the host sees them (10_state.md R21), the busy rule (70_reset_and_hazards.md R233). -/

namespace Sys2Proof.Machine

/-- The bytes an access of a width covers (R52). -/
def widthBytes : Width → Nat
  | .byte => 1
  | .half => 2
  | .word => 4

/-- The register at an offset of the register block (10_state.md R21). -/
def regAt (k : Nat) : Option Reg :=
  match k with
  | 0x000 => some .cmd
  | 0x004 => some .status
  | 0x008 => some .errInfo
  | 0x00C => some .appliedCnt
  | 0x010 => some .failedCnt
  | 0x014 => some .srcLen
  | 0x018 => some .patchCount
  | 0x01C => some .codeCount
  | 0x020 => some .codeIn0
  | 0x024 => some .codeIn1
  | 0x028 => some .decAddr
  | 0x02C => some .decValue
  | 0x030 => some .addrIn
  | 0x034 => some .offsetOut
  | 0x038 => some .encAddr
  | 0x03C => some .encValue
  | 0x040 => some .codeOut0
  | 0x044 => some .codeOut1
  | 0x048 => some .seqPos
  | _     => none

/-- The cells of a window from offset `k`, if every one exists (R51, R53). -/
def windowTarget (P : Params) (b : Buf) (k n : Nat) : Option Target :=
  if k + n ≤ bufSize P b then some (.cells b k) else none

/-- What an access of width `w` at port address `a` reaches, if it is aligned, of a width its target allows, and wholly
mapped (R51 to R53). The address bits above the window number select the window. -/
def portTarget (P : Params) (w : Width) (a : PortAddr) : Option Target :=
  if a.toNat % widthBytes w ≠ 0 then none
  else
    match a.toNat / 0x10000 with
    | 0 => if w = .word then (regAt (a.toNat % 0x10000)).map .reg else none
    | 1 => windowTarget P .src (a.toNat % 0x10000) (widthBytes w)
    | 2 => windowTarget P .work (a.toNat % 0x10000) (widthBytes w)
    | 3 => windowTarget P .ptab (a.toNat % 0x10000) (widthBytes w)
    | 4 => windowTarget P .ctab (a.toNat % 0x10000) (widthBytes w)
    | 5 => windowTarget P .outcome (a.toNat % 0x10000) (widthBytes w)
    | _ => none

/-- The registers a host write is admitted to (10_state.md R21; STATUS by its W1C bits). -/
def regWritable : Reg → Bool
  | .cmd        => true
  | .status     => true
  | .errInfo    => false
  | .appliedCnt => false
  | .failedCnt  => false
  | .srcLen     => true
  | .patchCount => true
  | .codeCount  => true
  | .codeIn0    => true
  | .codeIn1    => true
  | .decAddr    => false
  | .decValue   => false
  | .addrIn     => true
  | .offsetOut  => false
  | .encAddr    => true
  | .encValue   => true
  | .codeOut0   => false
  | .codeOut1   => false
  | .seqPos     => false

/-- The windows a host write is admitted to (R51). -/
def bufWritable : Buf → Bool
  | .src     => true
  | .work    => false
  | .ptab    => true
  | .ctab    => true
  | .outcome => false

/-- Whether a target may be written by the host. -/
def writable : Target → Bool
  | .reg r     => regWritable r
  | .cells b _ => bufWritable b

/-- A register as the host reads it, reserved bits 0 (10_state.md R21). -/
def readReg (r : Reg) (s : State) : Word :=
  match r with
  | .cmd        => s.cmd
  | .status     => statusWord s.status
  | .errInfo    => errInfoWord s.errInfo
  | .appliedCnt => s.appliedCnt
  | .failedCnt  => s.failedCnt
  | .srcLen     => s.srcLen
  | .patchCount => s.patchCount.setWidth 32
  | .codeCount  => s.codeCount.setWidth 32
  | .codeIn0    => s.codeIn0
  | .codeIn1    => s.codeIn1
  | .decAddr    => s.decAddr.setWidth 32
  | .decValue   => s.decValue.setWidth 32
  | .addrIn     => s.addrIn
  | .offsetOut  => s.offsetOut
  | .encAddr    => s.encAddr
  | .encValue   => s.encValue.setWidth 32
  | .codeOut0   => s.codeOut0
  | .codeOut1   => s.codeOut1
  | .seqPos     => seqPosWord s.seqPos

/-- A host write of `v` to a register, while idle: CMD is accepted (10_state.md R22), STATUS clears its sticky bits
(R24), any other writable register stores the value without its reserved bits (R21, 20_memory.md R56). -/
def writeReg (r : Reg) (v : Word) (s : State) : State :=
  match r with
  | .cmd        => accept v s
  | .status     => { s with status := writeStatus v s.status }
  | .errInfo    => s
  | .appliedCnt => s
  | .failedCnt  => s
  | .srcLen     => { s with srcLen := v }
  | .patchCount => { s with patchCount := v.setWidth 16 }
  | .codeCount  => { s with codeCount := v.setWidth 16 }
  | .codeIn0    => { s with codeIn0 := v }
  | .codeIn1    => { s with codeIn1 := v }
  | .decAddr    => s
  | .decValue   => s
  | .addrIn     => { s with addrIn := v }
  | .offsetOut  => s
  | .encAddr    => { s with encAddr := v }
  | .encValue   => { s with encValue := v.setWidth 8 }
  | .codeOut0   => s
  | .codeOut1   => s
  | .seqPos     => s

/-- The host's read returns `v`. -/
def answer (v : Word) (s : State) : State := { s with rdata := v }

/-- A read of a target while the access is allowed: a register, or cells in little-endian order (R52). -/
def readTarget (w : Width) (t : Target) (s : State) : Host.Outcome State Fault Refusal :=
  match t with
  | .reg r     => .next (answer (readReg r s) s)
  | .cells b k =>
    match readCells s b k (widthBytes w) with
    | .ok bs   => .next (answer (BitVec.ofNat 32 (leValue bs)) s)
    | .error f => .fault f

/-- A write of a target while the access is allowed. -/
def writeTarget (w : Width) (t : Target) (v : Word) (s : State) : State :=
  match t with
  | .reg r     => writeReg r v s
  | .cells b k => writeBytes b k (leBytes (widthBytes w) v.toNat) s

/-- The unspecified value of a hazard read of width `w` (R233): a free value of that width, and the next draw. -/
def hazardRead (w : Width) (s : State) : State :=
  { markHazard s with
    rdata := BitVec.ofNat 32 ((Config.freeWord s.draws).toNat % 0x100 ^ widthBytes w)
    draws := s.draws + 1 }

/-- A host read. While BUSY only STATUS may be read, any other read is a hazard (70_reset_and_hazards.md R233); a read
that is not admitted returns 0 and sets ACCESS_ERR, and HAZARD too while BUSY (20_memory.md R53;
notes/assumptions/7). -/
def hostRead (w : Width) (a : PortAddr) (s : State) : Host.Outcome State Fault Refusal :=
  match portTarget s.params w a with
  | none => .next (answer 0 (markAccessErr (if s.status.busy then markHazard s else s)))
  | some t =>
    if s.status.busy && t != .reg .status then .next (hazardRead w s) else readTarget w t s

/-- What a host write reaches, if it is admitted (R53). -/
def writeAdmitted (P : Params) (w : Width) (a : PortAddr) : Option Target :=
  match portTarget P w a with
  | none   => none
  | some t => if writable t then some t else none

/-- A host write. While BUSY every write is dropped as a hazard (R233); a write that is not admitted is dropped and sets
ACCESS_ERR (20_memory.md R53). -/
def hostWrite (w : Width) (a : PortAddr) (v : Word) (s : State) : State :=
  match writeAdmitted s.params w a with
  | none   => markAccessErr (if s.status.busy then markHazard s else s)
  | some t => if s.status.busy then markHazard s else writeTarget w t v s

/-- The reset input (70_reset_and_hazards.md R230): the state of 10_state.md R44, whatever was in progress. The
parameters are the block's (R43), and the model's own `inputs`, `rdata` and `draws` are not of the block
(notes/assumptions/10). -/
def resetBlock (s : State) : State :=
  { State.reset with params := s.params, inputs := s.inputs, rdata := s.rdata, draws := s.draws }

end Sys2Proof.Machine
end

