-- ==== Sys2Proof/Machine/Schedule.lean ====
section
/-! DEFINITION. What the engine does on its turn (10_state.md R35; 60_exceptions.md R202, R203), what each input does,
and how a command word comes to be in progress. -/

namespace Sys2Proof.Machine

/-- The engine performs the word in CMD: the command it encodes, or ILLEGAL_CMD (30_encoding.md R73). -/
def performWord (s : State) : Host.Outcome State Fault Refusal :=
  match decode s.cmd with
  | .ok i    => exec i s
  | .error e => .next (completeRaised (illegalCmd e) s)

/-- The engine's turn: a command in progress is performed whole (20_memory.md R55), an idle engine waits. -/
def engineTurn (s : State) : Host.Outcome State Fault Refusal :=
  if s.status.busy then performWord s else .next s

/-- One input. -/
def perform (i : Input) (s : State) : Host.Outcome State Fault Refusal :=
  match i with
  | .read w a    => hostRead w a s
  | .write w a v => .next (hostWrite w a v s)
  | .engine      => engineTurn s
  | .reset       => .next (resetBlock s)

/-- The state in which `w` has just been accepted and the engine has the next turn. -/
def commandPending (w : Word) (s : State) : State :=
  { accept w s with inputs := .engine :: s.inputs }

end Sys2Proof.Machine
end

