-- ==== Sys2Proof/Machine/Step.lean ====
section
/-! DEFINITION. One step of the block and its host: the oldest input, or, when none is pending, the engine's turn. -/

namespace Sys2Proof.Machine

/-- One step. A parameter set outside 00_scope.md R11 is no block (U11). Host accesses and commands form one sequence
(20_memory.md R62); with no input pending the engine completes what it has accepted (70_reset_and_hazards.md R238, weak
fairness; notes/assumptions/4). -/
def step (s : State) : Host.Outcome State Fault Refusal :=
  if s.params.wf then
    match s.inputs with
    | []     => engineTurn s
    | i :: t => perform i { s with inputs := t }
  else .refused .noSuchBlock

/-- `s` with the command word `w` (its low `nbits` bits) accepted, so that the very next step performs it: CPS fetches
nothing, a command comes to it by a CMD write (70_reset_and_hazards.md R231; notes/assumptions/9). -/
def State.withFetchWord (s : State) (nbits w : Nat) : State :=
  commandPending (BitVec.ofNat 32 (w % 2 ^ nbits)) s

end Sys2Proof.Machine
end

