-- ==== Sys2Proof/Safety.lean ====
section
/-! DEFINITION. The terms claims use: the invariant of the block, memories that are wholly written, and what a table entry
or an image buffer holds, said cell by cell. -/

namespace Sys2Proof.Machine

/-- A memory is in its canonical form. -/
def bufWf (s : State) (b : Buf) : Bool := memWf (unlisted b) (bufSize s.params b) (getMem s b)

/-- An OUTCOME byte is one of the three of 10_state.md R41. -/
def outcomeByte (v : Byte) : Bool := v == 0x00 || v == 0x01 || v == 0x02

/-- What holds of the block between steps. -/
structure State.Inv (s : State) : Prop where
  /-- The parameters are those of a block (00_scope.md R11). -/
  params : s.params.wf = true
  /-- Every memory is canonical: strictly rising offsets, inside the memory (10_state.md R37 to R41). -/
  mems : ∀ b, bufWf s b = true
  /-- OUTCOME holds NOT_ATTEMPTED, APPLIED or CONTEXT_MISMATCH (R41). -/
  outcomes : ∀ k v, byteAt s .outcome k = some v → outcomeByte v = true
  /-- BUSY and DONE are never both 1 (R23, 60_exceptions.md R202, R203). -/
  busyDone : s.status.busy = true → s.status.done = false
  /-- MATCH is 0 after an error (R36). -/
  matchErr : s.status.err ≠ .none → s.status.matched = false
  /-- ERR_INFO is 0 when ERR = NONE (R25). -/
  errInfo : s.status.err = .none → s.errInfo = ⟨0, 0, 0⟩
  /-- POS is a character position, and 0 but for INVALID_CODE (R25). -/
  pos : s.errInfo.pos.toNat ≤ 5 ∧ (s.status.err ≠ .invalidCode → s.errInfo.pos = 0)
  /-- SEQ_POS shows SEQ as it stood at the completion of the last RUN, and only RUN moves SEQ (R33, R34). -/
  seqPos : s.seqPos = s.seq
  /-- SEQ rests where a RUN can end: IDLE, CONFIG, FORMAT or DONE, with the index of R34. -/
  seqLegal : s.seq = ⟨.idle, 0⟩ ∨ s.seq.phase = .config ∨ s.seq = ⟨.format, 0xFFFF⟩ ∨ s.seq = ⟨.done, 0⟩
  /-- OUTPUT_VALID is 1 only after a RUN that ended in its DONE phase (R23). -/
  validDone : s.status.outputValid = true → s.seq = ⟨.done, 0⟩
  /-- A command in progress that writes WORK has OUTPUT_VALID cleared (R36, 60_exceptions.md R202). -/
  validBusy : ∀ i, s.status.busy = true → decode s.cmd = .ok i → clearsOutputValid i = true →
    s.status.outputValid = false

/-- Every cell of the memory `b` has been written. -/
def Written (s : State) (b : Buf) : Prop := ∀ k, k < bufSize s.params b → ∃ v, byteAt s b k = some v

/-- Every cell the host or the engine can read has been written: what a host that fills the buffers and the tables
leaves (70_reset_and_hazards.md R232). -/
def Loaded (s : State) : Prop := ∀ b, Written s b

/-- `b[k .. k + len(bs))` holds the bytes `bs`. -/
def CellsAt (s : State) (b : Buf) (k : Nat) (bs : List Byte) : Prop :=
  ∀ j, j < bs.length → byteAt s b (k + j) = bs[j]?

/-- Field of descriptor `P[i]`: its `n` bytes from byte `b` hold the number `v`, little-endian (30_encoding.md R80). -/
def FieldAt (s : State) (i b n v : Nat) : Prop :=
  v < 0x100 ^ n ∧ ∀ j, j < n → byteAt s .ptab (256 * i + b + j) = some (BitVec.ofNat 8 (v / 0x100 ^ j))

/-- CODE_IN holds the code of the nibbles `n` (10_state.md R29, 30_encoding.md R85), PAD anything. -/
def CodeInHolds (s : State) (n : Nibbles) : Prop :=
  wordByte s.codeIn0 0 = 6
    ∧ wordByte s.codeIn0 1 = symbol s.params n.n0 ∧ wordByte s.codeIn0 2 = symbol s.params n.n1
    ∧ wordByte s.codeIn0 3 = symbol s.params n.n2 ∧ wordByte s.codeIn1 0 = symbol s.params n.n3
    ∧ wordByte s.codeIn1 1 = symbol s.params n.n4 ∧ wordByte s.codeIn1 2 = symbol s.params n.n5

/-- `C[j]` holds the code of the nibbles `n` (R85), PAD anything, even unwritten. -/
def CodeAt (s : State) (j : Nat) (n : Nibbles) : Prop :=
  CellsAt s .ctab (8 * j)
    [6, symbol s.params n.n0, symbol s.params n.n1, symbol s.params n.n2, symbol s.params n.n3, symbol s.params n.n4,
      symbol s.params n.n5]

end Sys2Proof.Machine
end

