-- ==== Sys2Proof/Reference.lean ====
section
/-! DEFINITION. The source's software contract on whole byte buffers, in the source's own terms (Patch and Code of
00_scope.md R18; the contracts quoted in 42_context_verifier.md, 43_patch_applier.md and 44_orchestrator.md), for claims
that the machine refines it. No meaning uses this file. -/

namespace Sys2Proof.Machine

/-- The source's replacement: "either a single new byte or a byte sequence plus a required total region length", and
the filler. -/
inductive Replacement
  | single (newByte : Byte)
  | region (newCode : List Byte) (regionLength : Nat) (filler : Byte)
  deriving DecidableEq, Repr

/-- The source's Patch, without its description (00_scope.md R6, R18). -/
structure Patch where
  offset   : Nat
  expected : List Byte
  repl     : Replacement
  deriving DecidableEq, Repr

/-- The configuration rules a patch meets (44_orchestrator.md R161). -/
def Patch.Ok (P : Params) (p : Patch) : Prop :=
  p.expected.length ≤ 120 ∧
  match p.repl with
  | .single _        => p.expected ≠ [] ∧ p.offset < P.imageLen
  | .region code n _ => code.length ≤ 120 ∧ code.length ≤ n ∧ p.offset + n ≤ P.imageLen

/-- Descriptor `P[i]` holds the patch `p` in the layout of 30_encoding.md R80; the bytes its kind does not use may hold
anything, even be unwritten (R82). -/
def PatchAt (s : State) (i : Nat) (p : Patch) : Prop :=
  FieldAt s i 0 4 p.offset ∧ FieldAt s i 5 1 p.expected.length ∧ FieldAt s i 10 6 0 ∧
  CellsAt s .ptab (256 * i + 16) p.expected ∧
  match p.repl with
  | .single b           => FieldAt s i 4 1 0 ∧ byteAt s .ptab (256 * i + 7) = some b
  | .region code n fill =>
      FieldAt s i 4 1 1 ∧ FieldAt s i 6 1 code.length ∧ FieldAt s i 8 2 n ∧
      byteAt s .ptab (256 * i + 7) = some fill ∧ CellsAt s .ptab (256 * i + 136) code

/-- The source's `verify(image, offset, expected)`: `image[offset : offset+len(expected)] == expected`. -/
def verifyWindow (image : List Byte) (offset : Nat) (expected : List Byte) : Bool :=
  (image.drop offset).take expected.length == expected

/-- The source's two apply forms on a buffer. -/
def replaceAt (image : List Byte) (offset : Nat) : Replacement → List Byte
  | .single b           => image.set offset b
  | .region code n fill =>
      image.take offset ++ (code ++ List.replicate (n - code.length) fill) ++ image.drop (offset + n)

/-- The source's fold over the ordered patches: the final image, and for each patch whether it applied. -/
def foldPatches : List Patch → List Byte → List Byte × List Bool
  | [], image => (image, [])
  | p :: t, image =>
    if verifyWindow image p.offset p.expected then
      let r := foldPatches t (replaceAt image p.offset p.repl)
      (r.1, true :: r.2)
    else
      let r := foldPatches t image
      (r.1, false :: r.2)

/-- The source's unconditional code writes, in order (44_orchestrator.md R167). -/
def foldCodes (P : Params) (image : List Byte) (codes : List Nibbles) : List Byte :=
  codes.foldl (fun im n => im.set ((decodeAddr n).toNat - 0x8000 + P.headerSize) (decodeValue n)) image

/-- The source's `validate(image)`, its length check apart: the magic and the two bank counts (41_image_validator.md). -/
def headerOk (P : Params) (image : List Byte) : Prop :=
  image.take 4 = P.magic ∧ image[P.bank0Off]? = some P.bank0Val ∧ image[P.bank1Off]? = some P.bank1Val

/-- The buffer `b` holds the whole image. -/
def ImageAt (s : State) (b : Buf) (image : List Byte) : Prop :=
  image.length = s.params.imageLen ∧ CellsAt s b 0 image

end Sys2Proof.Machine
end

