-- ==== Sys2Proof/Certificates/Slice0/Obligations.lean ====
section
/-! DEFINITION. The statements for the provers, each a numbered rule of spec/ or a consequence of several. -/

namespace Sys2Proof.Claims

open Sys2Proof.Machine

/-- `s` after a completion with the given ERR, ERR_INFO and MATCH (60_exceptions.md R203), nothing else changed. -/
def ended (e : ErrCode) (info : ErrInfo) (m : Bool) (s : State) : State :=
  { s with
    status := { s.status with busy := false, done := true, matched := m, err := e }
    errInfo := info }

/-- `s` with OUTPUT_VALID 0. -/
def notValid (s : State) : State := { s with status := { s.status with outputValid := false } }

/-- A completion without error. -/
def endedOk (m : Bool) (s : State) : State := ended .none ⟨0, 0, 0⟩ m s

/-- The OPC of a word lies outside the map of 30_encoding.md R72. -/
def badOpc (w : Word) : Prop := w.toNat % 256 = 0 ∨ 0x0E ≤ w.toNat % 256

/-- The RSV bits of a word are not 0. -/
def badRsv (w : Word) : Prop := w.toNat / 0x1000000 ≠ 0

/-- The IDX of a word is not 0 and its OPC is none of VERIFY, APPLY_SINGLE, APPLY_REGION, PATCH_STEP, CODE_WRITE. -/
def badIdx (w : Word) : Prop :=
  w.toNat / 256 % 0x10000 ≠ 0 ∧ w.toNat % 256 ∉ [0x05, 0x06, 0x07, 0x0A, 0x0B]

/-- The word is a legal COPY, APPLY_SINGLE, APPLY_REGION, PATCH_STEP, CODE_WRITE or RUN (10_state.md R36). -/
def writesWork (w : Word) : Prop :=
  w.toNat % 256 ∈ [0x06, 0x07, 0x08, 0x0A, 0x0B, 0x0C] ∧ ¬ badRsv w ∧ ¬ badIdx w

/-- Character `k` of the code in CODE_IN (10_state.md R29). -/
def codeInChar (s : State) (k : Nat) : Byte :=
  if k < 3 then wordByte s.codeIn0 (k + 1) else wordByte s.codeIn1 (k - 3)

/-- The code entry `C[j]` has length 6, `k` is the position of its first character outside ALPHABET, and the cells up
to that character are written. -/
def firstBadChar (s : State) (j k : Nat) : Prop :=
  k < 6 ∧ byteAt s .ctab (8 * j) = some 6
    ∧ (∀ p, p < k → ∃ c, byteAt s .ctab (8 * j + 1 + p) = some c ∧ c ∈ s.params.alphabet)
    ∧ ∃ c, byteAt s .ctab (8 * j + 1 + k) = some c ∧ c ∉ s.params.alphabet

/-- The image offset a code names. -/
def codeOffset (s : State) (n : Nibbles) : Nat := (decodeAddr n).toNat - 0x8000 + s.params.headerSize

/-- Patch index `i` is in the configured list and in the table (44_orchestrator.md R162). -/
def patchIndexOk (s : State) (i : Nat) : Prop := i < s.patchCount.toNat ∧ i < s.params.nPatchMax

/-- Code index `j` is in the configured list and in the table (R162). -/
def codeIndexOk (s : State) (j : Nat) : Prop := j < s.codeCount.toNat ∧ j < s.params.nCodeMax

/-- Every entry of the configuration is valid and present: what CHECK_CONFIG passes (R164). -/
def ConfigHolds (s : State) (ps : List Patch) (cs : List Nibbles) : Prop :=
  ps.length = s.patchCount.toNat ∧ ps.length ≤ s.params.nPatchMax
    ∧ cs.length = s.codeCount.toNat ∧ cs.length ≤ s.params.nCodeMax
    ∧ (∀ i p, ps[i]? = some p → PatchAt s i p ∧ p.Ok s.params)
    ∧ ∀ j n, cs[j]? = some n → CodeAt s j n

/-- The state in which RUN has cleared what it clears (44_orchestrator.md R172) and stands at a position. -/
def runAt (p : Phase) (i : BitVec 16) (s : State) : State :=
  { notValid s with appliedCnt := 0, failedCnt := 0, outcome := [], seq := ⟨p, i⟩, seqPos := ⟨p, i⟩ }

/-- What `check_desc` answers, by the order of 44_orchestrator.md R161: 0 for a pass, else the REASON. -/
def descReason (imageLen kind rsv expLen offset newLen regionLen : Nat) : Nat :=
  if kind ≠ 0 ∧ kind ≠ 1 then 1
  else if rsv ≠ 0 then 2
  else if 120 < expLen then 3
  else if kind = 0 then
    if expLen = 0 then 4 else if imageLen ≤ offset then 7 else 0
  else if 120 < newLen then 5
  else if regionLen < newLen then 6
  else if imageLen < offset + regionLen then 7
  else 0

/-- The error codes a command may end with (60_exceptions.md R200, column "raised by"), NONE among them. -/
def mayRaise : Instr → List ErrCode
  | .decode        => [.none, .invalidCode]
  | .encode        => [.none, .encodeRange]
  | .toOffset      => [.none, .addrRange]
  | .validate      => [.none, .formatError]
  | .verify _      => [.none, .indexRange, .configError]
  | .applySingle _ => [.none, .indexRange, .configError, .wrongKind]
  | .applyRegion _ => [.none, .indexRange, .configError, .wrongKind]
  | .copy          => [.none]
  | .checkConfig   => [.none, .configError, .invalidCode]
  | .patchStep _   => [.none, .indexRange, .configError]
  | .codeWrite _   => [.none, .indexRange, .invalidCode]
  | .run           => [.none, .configError, .invalidCode, .formatError, .noneApplied]
  | .clearCounts   => [.none]

/-- The same change of what only the port owns (60_exceptions.md R207): the sticky flags and the model's own fields. -/
def portOwned (hazard accessErr : Bool) (rdata : Word) (draws : Nat) (inputs : List Input) (s : State) : State :=
  { s with
    status := { s.status with hazard := hazard, accessErr := accessErr }
    rdata := rdata
    draws := draws
    inputs := inputs }

/-- A change of the next state of an outcome. -/
def mapNext (f : State → State) : Host.Outcome State Fault Refusal → Host.Outcome State Fault Refusal
  | .next s    => .next (f s)
  | .fault r   => .fault r
  | .refused r => .refused r

/-- Commands performed one after another. -/
def execAll : List Instr → State → Host.Outcome State Fault Refusal
  | [], s     => .next s
  | i :: t, s =>
    match exec i s with
    | .next s'   => execAll t s'
    | .fault r   => .fault r
    | .refused r => .refused r

/-- An access of the host: a read or a write. -/
def isAccess : Input → Bool
  | .read _ _    => true
  | .write _ _ _ => true
  | .engine      => false
  | .reset       => false

end Sys2Proof.Claims

open Sys2Proof Sys2Proof.Machine Sys2Proof.Claims

/-! ### Encoding -/

/-- Decoding the assembled word of a well-formed command gives the command, every index included (30_encoding.md R70,
R71, R72, R87). -/
def Obligations.DecodeOfEncodedCommand : Prop :=
  ∀ i : Instr, i.wf = true → Sys2Proof.decode (Sys2Proof.encode i) = .ok i

/-- Where each legal word has one meaning, the word is the one assembled for it, and the index fits (R70 to R72). -/
def Obligations.EncodeOfDecodedWord : Prop :=
  ∀ (w : Word) (i : Instr), Sys2Proof.decode w = .ok i → Sys2Proof.encode i = w ∧ i.wf = true

/-- The words written out from 30_encoding.md R72 and R87 decode to the commands they stand for. -/
def Obligations.DecodeOfWrittenOutWords : Prop :=
  Sys2Proof.decode 0b00000000000000000000000000000001 = .ok .decode
    ∧ Sys2Proof.decode 0b00000000000000000000000000000100 = .ok .validate
    ∧ Sys2Proof.decode 0b00000000000000000000000100000101 = .ok (.verify 1)
    ∧ Sys2Proof.decode 0b00000000111111111111111100000111 = .ok (.applyRegion 0xFFFF)
    ∧ Sys2Proof.decode 0x0000020A = .ok (.patchStep 2)
    ∧ Sys2Proof.decode 0x0000120B = .ok (.codeWrite 0x12)
    ∧ Sys2Proof.decode 0x0000000C = .ok .run

/-- A word decodes exactly when it is none of the three illegal kinds of R73. -/
def Obligations.DecodesExactlyLegalWords : Prop :=
  ∀ w : Word, (∃ i, Sys2Proof.decode w = .ok i) ↔ ¬ (badOpc w ∨ badRsv w ∨ badIdx w)

/-- From R73, R201 (the reasons, in their order) and R203 (the completion): an illegal command, once accepted, completes
with ILLEGAL_CMD and MATCH 0 and changes no state except STATUS, ERR_INFO and CMD; the sticky flags stay. That OUTPUT_VALID
stays too, even when the OPC is that of RUN, COPY or another command that writes WORK, is the model's reading
(notes/assumptions/11, DEDUCED): R73 leaves STATUS out of what it says is unchanged. -/
def Obligations.IllegalCommandCompletes : Prop :=
  ∀ (w : Word) (s : State) (reason : Byte),
    (badOpc w ∧ reason = 1) ∨ (¬ badOpc w ∧ badRsv w ∧ reason = 2)
      ∨ (¬ badOpc w ∧ ¬ badRsv w ∧ badIdx w ∧ reason = 3) →
    engineTurn (accept w s) = .next (ended .illegalCmd ⟨0xFFFF, reason, 0⟩ false { s with cmd := w })

/-! ### The code format -/

/-- R76: the source of every output bit of the interleave, and that the terms of R77 never overlap, so that `|` in them
equals `+`. -/
def Obligations.CodeBitSources : Prop :=
  ∀ n : Nibbles,
    ((decodeAddr n).getLsbD 15 = true
      ∧ (decodeAddr n).getLsbD 14 = n.n3.getLsbD 2 ∧ (decodeAddr n).getLsbD 13 = n.n3.getLsbD 1
      ∧ (decodeAddr n).getLsbD 12 = n.n3.getLsbD 0 ∧ (decodeAddr n).getLsbD 11 = n.n4.getLsbD 3
      ∧ (decodeAddr n).getLsbD 10 = n.n5.getLsbD 2 ∧ (decodeAddr n).getLsbD 9 = n.n5.getLsbD 1
      ∧ (decodeAddr n).getLsbD 8 = n.n5.getLsbD 0 ∧ (decodeAddr n).getLsbD 7 = n.n1.getLsbD 3
      ∧ (decodeAddr n).getLsbD 6 = n.n2.getLsbD 2 ∧ (decodeAddr n).getLsbD 5 = n.n2.getLsbD 1
      ∧ (decodeAddr n).getLsbD 4 = n.n2.getLsbD 0 ∧ (decodeAddr n).getLsbD 3 = n.n3.getLsbD 3
      ∧ (decodeAddr n).getLsbD 2 = n.n4.getLsbD 2 ∧ (decodeAddr n).getLsbD 1 = n.n4.getLsbD 1
      ∧ (decodeAddr n).getLsbD 0 = n.n4.getLsbD 0)
    ∧ ((decodeValue n).getLsbD 7 = n.n0.getLsbD 3
      ∧ (decodeValue n).getLsbD 6 = n.n1.getLsbD 2 ∧ (decodeValue n).getLsbD 5 = n.n1.getLsbD 1
      ∧ (decodeValue n).getLsbD 4 = n.n1.getLsbD 0 ∧ (decodeValue n).getLsbD 3 = n.n5.getLsbD 3
      ∧ (decodeValue n).getLsbD 2 = n.n0.getLsbD 2 ∧ (decodeValue n).getLsbD 1 = n.n0.getLsbD 1
      ∧ (decodeValue n).getLsbD 0 = n.n0.getLsbD 0)
    ∧ (decodeAddr n).toNat
        = 0x8000 + n.n3.toNat % 8 * 0x1000 + n.n5.toNat % 8 * 0x100 + n.n4.toNat / 8 * 0x800
          + n.n2.toNat % 8 * 0x10 + n.n1.toNat / 8 * 0x80 + n.n4.toNat % 8 + n.n3.toNat / 8 * 8
    ∧ (decodeValue n).toNat
        = n.n1.toNat % 8 * 0x10 + n.n0.toNat / 8 * 0x80 + n.n0.toNat % 8 + n.n5.toNat / 8 * 8

/-- R79: the nibbles of the inverse assembly, bit for bit; decoding them returns the pair, and encoding a decoded code
returns it with `n2[3]` cleared. -/
def Obligations.CodecRoundTrip : Prop :=
  (∀ (a : BitVec 16) (v : Byte), 0x8000 ≤ a.toNat →
    ((encodeNibbles a v).n0.toNat = v.toNat % 8 + v.toNat / 0x80 * 8
      ∧ (encodeNibbles a v).n1.toNat = v.toNat / 0x10 % 8 + a.toNat / 0x80 % 2 * 8
      ∧ (encodeNibbles a v).n2.toNat = a.toNat / 0x10 % 8
      ∧ (encodeNibbles a v).n3.toNat = a.toNat / 0x1000 % 8 + a.toNat / 8 % 2 * 8
      ∧ (encodeNibbles a v).n4.toNat = a.toNat % 8 + a.toNat / 0x800 % 2 * 8
      ∧ (encodeNibbles a v).n5.toNat = a.toNat / 0x100 % 8 + v.toNat / 8 % 2 * 8)
    ∧ decodeAddr (encodeNibbles a v) = a ∧ decodeValue (encodeNibbles a v) = v)
  ∧ ∀ n : Nibbles, encodeNibbles (decodeAddr n) (decodeValue n) = { n with n2 := n.n2 &&& 7 }

/-- R78: two codes decode to the same pair exactly when they differ at most in `n2[3]`, every pair with address bit 15
set is reached, and encode writes 0 there. -/
def Obligations.TwoCodesPerPair : Prop :=
  (∀ n m : Nibbles, decodeAddr n = decodeAddr m ∧ decodeValue n = decodeValue m ↔
    { n with n2 := n.n2 &&& 7 } = { m with n2 := m.n2 &&& 7 })
  ∧ (∀ (a : BitVec 16) (v : Byte), 0x8000 ≤ a.toNat → ∃ n, decodeAddr n = a ∧ decodeValue n = v)
  ∧ ∀ (a : BitVec 16) (v : Byte), (encodeNibbles a v).n2.getLsbD 3 = false

/-- R102 with the corrected condition of 90_conflicts.md C1: a decoded address lies in `[0x8000, 0xFFFF]`, and is
0x8000 exactly when `n3 = n4 = n5 = 0`, `n1[3] = 0` and `n2[2:0] = 0`. -/
def Obligations.DecodedAddressBase : Prop :=
  ∀ n : Nibbles, 0x8000 ≤ (decodeAddr n).toNat
    ∧ (decodeAddr n = 0x8000 ↔
        n.n3 = 0 ∧ n.n4 = 0 ∧ n.n5 = 0 ∧ n.n1.getLsbD 3 = false ∧ n.n2 &&& 7 = 0)

/-- R106 and R57: `to_offset` on every number, its bounds in every block, one-to-one, and never failing on a decoded
address. -/
def Obligations.ToOffsetInsideImage : Prop :=
  ∀ P : Params, P.wf = true →
    (∀ a, 0x8000 ≤ a → a ≤ 0xFFFF →
      toOffset P a = some (a - 0x8000 + P.headerSize) ∧ a - 0x8000 + P.headerSize ≤ P.headerSize + 0x7FFF
        ∧ P.headerSize + 0x7FFF < P.imageLen)
    ∧ (∀ a, a < 0x8000 ∨ 0xFFFF < a → toOffset P a = none)
    ∧ (∀ a b, toOffset P a = toOffset P b → toOffset P a ≠ none → a = b)
    ∧ ∀ n : Nibbles, ∃ k, toOffset P (decodeAddr n).toNat = some k ∧ P.headerSize ≤ k ∧ k < P.imageLen

/-! ### CodeCodec commands -/

/-- DECODE (R103, R101), the word 0x00000001: on a valid code it completes with the decoded pair and changes nothing else but its
completion; a wrong length and the first character outside ALPHABET are reported, the result registers kept. -/
def Obligations.DecodeCommand : Prop :=
  (∀ w, Sys2Proof.decode w = .ok .decode ↔ w = 0x00000001)
  ∧ ∀ s : State, s.params.wf = true →
    (∀ n, CodeInHolds s n →
      exec .decode s = .next (endedOk false { s with decAddr := decodeAddr n, decValue := decodeValue n }))
    ∧ (wordByte s.codeIn0 0 ≠ 6 → exec .decode s = .next (ended .invalidCode ⟨0xFFFF, 1, 0⟩ false s))
    ∧ ∀ k, k < 6 → wordByte s.codeIn0 0 = 6 → (∀ p, p < k → codeInChar s p ∈ s.params.alphabet) →
        codeInChar s k ∉ s.params.alphabet →
        exec .decode s = .next (ended .invalidCode ⟨0xFFFF, 2, BitVec.ofNat 8 k⟩ false s)

/-- ENCODE (R104): in range it completes with the six symbols of the inverse assembly, L = 6 and PAD = 0, and changes
nothing else; out of range ENCODE_RANGE, CODE_OUT kept. -/
def Obligations.EncodeCommand : Prop :=
  ∀ s : State,
    (0x8000 ≤ s.encAddr.toNat → s.encAddr.toNat ≤ 0xFFFF →
      ∃ t, exec .encode s = .next t
        ∧ t = endedOk false { s with codeOut0 := t.codeOut0, codeOut1 := t.codeOut1 }
        ∧ let n := encodeNibbles (s.encAddr.setWidth 16) s.encValue
          wordByte t.codeOut0 0 = 6 ∧ wordByte t.codeOut0 1 = symbol s.params n.n0
            ∧ wordByte t.codeOut0 2 = symbol s.params n.n1 ∧ wordByte t.codeOut0 3 = symbol s.params n.n2
            ∧ wordByte t.codeOut1 0 = symbol s.params n.n3 ∧ wordByte t.codeOut1 1 = symbol s.params n.n4
            ∧ wordByte t.codeOut1 2 = symbol s.params n.n5 ∧ wordByte t.codeOut1 3 = 0)
    ∧ (s.encAddr.toNat < 0x8000 ∨ 0xFFFF < s.encAddr.toNat →
      exec .encode s = .next (ended .encodeRange ⟨0xFFFF, 0, 0⟩ false s))

/-- R104, "DECODE of the result returns `(a, v)`", as two commands with the host moving CODE_OUT to CODE_IN between
them. -/
def Obligations.EncodeThenDecode : Prop :=
  ∀ s t : State, s.params.wf = true → exec .encode s = .next t → t.status.err = .none →
    ∃ u, exec .decode { t with codeIn0 := t.codeOut0, codeIn1 := t.codeOut1 } = .next u
      ∧ u.status.err = .none ∧ u.decAddr.setWidth 32 = s.encAddr ∧ u.decValue = s.encValue

/-- TO_OFFSET (R105), the word 0x00000003: every bit of ADDR_IN counts; in range OFFSET_OUT is the image offset, out of range ADDR_RANGE and
OFFSET_OUT kept; nothing else changes but the completion. -/
def Obligations.ToOffsetCommand : Prop :=
  (∀ w, Sys2Proof.decode w = .ok .toOffset ↔ w = 0x00000003)
  ∧ ∀ s : State,
    (0x8000 ≤ s.addrIn.toNat → s.addrIn.toNat ≤ 0xFFFF →
      exec .toOffset s
        = .next (endedOk false
            { s with offsetOut := BitVec.ofNat 32 (s.addrIn.toNat - 0x8000 + s.params.headerSize) }))
    ∧ (s.addrIn.toNat < 0x8000 ∨ 0xFFFF < s.addrIn.toNat →
      exec .toOffset s = .next (ended .addrRange ⟨0xFFFF, 0, 0⟩ false s))

/-! ### ImageValidator -/

/-- VALIDATE (R120, R121), the word 0x00000004: LENGTH, MAGIC, BANK0, BANK1 in this order, the first failure reported and no cell read after
it (cells not named may be unwritten), and the completion when all pass; nothing else changes. -/
def Obligations.ValidateCommand : Prop :=
  (∀ w, Sys2Proof.decode w = .ok .validate ↔ w = 0x00000004)
  ∧ ∀ s : State, s.params.wf = true →
    (s.srcLen.toNat ≠ s.params.imageLen →
      exec .validate s = .next (ended .formatError ⟨0xFFFF, 1, 0⟩ false s))
    ∧ (s.srcLen.toNat = s.params.imageLen →
      (∀ k v, k < 4 → CellsAt s .src 0 (s.params.magic.take k) → byteAt s .src k = some v →
        s.params.magic[k]? ≠ some v → exec .validate s = .next (ended .formatError ⟨0xFFFF, 2, 0⟩ false s))
      ∧ (CellsAt s .src 0 s.params.magic →
        (∀ v, byteAt s .src s.params.bank0Off = some v → v ≠ s.params.bank0Val →
          exec .validate s = .next (ended .formatError ⟨0xFFFF, 3, 0⟩ false s))
        ∧ (byteAt s .src s.params.bank0Off = some s.params.bank0Val →
          (∀ v, byteAt s .src s.params.bank1Off = some v → v ≠ s.params.bank1Val →
            exec .validate s = .next (ended .formatError ⟨0xFFFF, 4, 0⟩ false s))
          ∧ (byteAt s .src s.params.bank1Off = some s.params.bank1Val →
            exec .validate s = .next (endedOk false s)))))

/-! ### Index and descriptor checks -/

/-- R162: an index outside the configured list or outside the table is INDEX_RANGE, reason 1 for a patch index and 2 for
a code index, before anything is read; any other index passes its check. -/
def Obligations.IndexRangeChecked : Prop :=
  ∀ (s : State) (i : Nat),
    (s.patchCount.toNat ≤ i ∨ s.params.nPatchMax ≤ i →
      exec (.verify i) s = .next (ended .indexRange ⟨BitVec.ofNat 16 i, 1, 0⟩ false s)
      ∧ exec (.applySingle i) s = .next (ended .indexRange ⟨BitVec.ofNat 16 i, 1, 0⟩ false (notValid s))
      ∧ exec (.applyRegion i) s = .next (ended .indexRange ⟨BitVec.ofNat 16 i, 1, 0⟩ false (notValid s))
      ∧ exec (.patchStep i) s = .next (ended .indexRange ⟨BitVec.ofNat 16 i, 1, 0⟩ false (notValid s)))
    ∧ (s.codeCount.toNat ≤ i ∨ s.params.nCodeMax ≤ i →
      exec (.codeWrite i) s = .next (ended .indexRange ⟨BitVec.ofNat 16 i, 2, 0⟩ false (notValid s)))
    ∧ (patchIndexOk s i → checkIndex s i = .ok ()) ∧ (codeIndexOk s i → checkCodeIndex s i = .ok ())

/-- R161: `check_desc(i)` on a written descriptor raises CONFIG_ERROR with the first failing reason, and passes when
none fails; sums are exact. -/
def Obligations.DescriptorCheckOrder : Prop :=
  ∀ (s : State) (i kind rsv expLen offset newLen regionLen : Nat),
    FieldAt s i 4 1 kind → FieldAt s i 10 6 rsv → FieldAt s i 5 1 expLen → FieldAt s i 0 4 offset →
    FieldAt s i 6 1 newLen → FieldAt s i 8 2 regionLen →
    let r := descReason s.params.imageLen kind rsv expLen offset newLen regionLen
    (r = 0 → checkDesc s i = .ok ())
    ∧ (r ≠ 0 → checkDesc s i
        = .error (.raised ⟨.configError, ⟨BitVec.ofNat 16 i, BitVec.ofNat 8 r, 0⟩⟩))

/-- A descriptor that fails its check ends each patch command with that error, WORK, the counters and OUTCOME as they
were (R131, R141, R143, R166). -/
def Obligations.DescriptorErrorReported : Prop :=
  ∀ (s : State) (i : Nat) (e : CmdError), patchIndexOk s i → checkDesc s i = .error (.raised e) →
    exec (.verify i) s = .next (ended e.code e.info false s)
    ∧ exec (.applySingle i) s = .next (ended e.code e.info false (notValid s))
    ∧ exec (.applyRegion i) s = .next (ended e.code e.info false (notValid s))
    ∧ exec (.patchStep i) s = .next (ended e.code e.info false (notValid s))

/-- WRONG_KIND (R141, R143): APPLY_SINGLE on a region patch and APPLY_REGION on a single patch, WORK unchanged, REASON
the descriptor's KIND. -/
def Obligations.WrongKindReported : Prop :=
  ∀ (s : State) (i : Nat) (p : Patch), patchIndexOk s i → PatchAt s i p → p.Ok s.params →
    match p.repl with
    | .region _ _ _ =>
        exec (.applySingle i) s = .next (ended .wrongKind ⟨BitVec.ofNat 16 i, 1, 0⟩ false (notValid s))
    | .single _ =>
        exec (.applyRegion i) s = .next (ended .wrongKind ⟨BitVec.ofNat 16 i, 0, 0⟩ false (notValid s))

/-! ### ContextVerifier and PatchApplier -/

/-- VERIFY (R131, R130) on a valid patch: an empty window matches, a window that leaves the image does not, any other
matches exactly when every byte of WORK in it equals the expected byte; nothing else changes. -/
def Obligations.VerifyCommand : Prop :=
  ∀ (s : State) (i : Nat) (p : Patch), patchIndexOk s i → PatchAt s i p → p.Ok s.params →
    (p.expected = [] → exec (.verify i) s = .next (endedOk true s))
    ∧ (p.expected ≠ [] → s.params.imageLen < p.offset + p.expected.length →
        exec (.verify i) s = .next (endedOk false s))
    ∧ ∀ window, window.length = p.expected.length → p.offset + p.expected.length ≤ s.params.imageLen →
        CellsAt s .work p.offset window →
        exec (.verify i) s = .next (endedOk (window == p.expected) s)

/-- R131's last corner case (90_conflicts.md C3): from a window that matches, one changed byte makes the result
false. -/
def Obligations.ChangedByteBreaksMatch : Prop :=
  ∀ (s : State) (i j : Nat) (p : Patch) (v : Byte), patchIndexOk s i → PatchAt s i p → p.Ok s.params →
    p.offset + p.expected.length ≤ s.params.imageLen → CellsAt s .work p.offset p.expected →
    j < p.expected.length → p.expected[j]? ≠ some v →
    exec (.verify i) s = .next (endedOk true s)
    ∧ exec (.verify i) (writeByte .work (p.offset + j) v s)
        = .next (endedOk false (writeByte .work (p.offset + j) v s))

/-- APPLY_SINGLE (R141, R140, R144) on a single patch whose cell holds `cur`: MATCH says whether `cur` is the old byte,
the cell holds the new byte then and `cur` otherwise, every other cell of WORK and everything else is kept. -/
def Obligations.ApplySingleCommand : Prop :=
  ∀ (s : State) (i : Nat) (p : Patch) (new old cur : Byte), patchIndexOk s i → PatchAt s i p → p.Ok s.params →
    p.repl = .single new → p.expected[0]? = some old → byteAt s .work p.offset = some cur →
    ∃ t, exec (.applySingle i) s = .next t
      ∧ { t with work := s.work } = endedOk (cur == old) (notValid s)
      ∧ byteAt t .work p.offset = some (if cur = old then new else cur)
      ∧ ∀ k, k ≠ p.offset → byteAt t .work k = byteAt s .work k

/-- APPLY_REGION (R143, R142, R144) on a region patch: the region holds the new code and then filler, every cell outside
it is kept, and everything else; the window is not read. -/
def Obligations.ApplyRegionCommand : Prop :=
  ∀ (s : State) (i : Nat) (p : Patch) (code : List Byte) (n : Nat) (fill : Byte), patchIndexOk s i →
    PatchAt s i p → p.Ok s.params → p.repl = .region code n fill →
    ∃ t, exec (.applyRegion i) s = .next t
      ∧ { t with work := s.work } = endedOk false (notValid s)
      ∧ CellsAt t .work p.offset (code ++ List.replicate (n - code.length) fill)
      ∧ ∀ k, k < p.offset ∨ p.offset + n ≤ k → byteAt t .work k = byteAt s .work k

/-! ### Orchestrator -/

/-- COPY (R160), the word 0x00000008: every cell of the image is copied, an unwritten one as unwritten; SRC_LEN is not read, and nothing else
changes. -/
def Obligations.CopyCommand : Prop :=
  (∀ w, Sys2Proof.decode w = .ok .copy ↔ w = 0x00000008)
  ∧ ∀ s : State, ∃ t, exec .copy s = .next t
    ∧ { t with work := s.work } = endedOk false (notValid s)
    ∧ ∀ k, k < s.params.imageLen → byteAt t .work k = byteAt s .src k

/-- CLEAR_COUNTS (R175), the word 0x0000000D: both counters 0, every OUTCOME byte 0x00, OUTPUT_VALID, WORK and all else kept. -/
def Obligations.ClearCountsCommand : Prop :=
  (∀ w, Sys2Proof.decode w = .ok .clearCounts ↔ w = 0x0000000D)
  ∧ ∀ s : State, ∃ t, exec .clearCounts s = .next t
    ∧ { t with outcome := s.outcome } = endedOk false { s with appliedCnt := 0, failedCnt := 0 }
    ∧ ∀ k, k < s.params.nPatchMax → byteAt t .outcome k = some 0x00

/-- CHECK_CONFIG (R163, R164) on a valid configuration completes and changes nothing but its completion, whatever SRC and
WORK hold. -/
def Obligations.CheckConfigPasses : Prop :=
  ∀ (s : State) (ps : List Patch) (cs : List Nibbles), s.params.wf = true → ConfigHolds s ps cs →
    exec .checkConfig s = .next (endedOk false s)

/-- R164, the order of the configuration check, for CHECK_CONFIG and for RUN, which moves SEQ to the entry being
checked: the two counts, then the first descriptor that fails, then the first code that fails. -/
def Obligations.FirstConfigFailureReported : Prop :=
  ∀ s : State, s.params.wf = true →
    (s.params.nPatchMax < s.patchCount.toNat →
      exec .checkConfig s = .next (ended .configError ⟨0xFFFF, 8, 0⟩ false s)
      ∧ exec .run s = .next (ended .configError ⟨0xFFFF, 8, 0⟩ false (runAt .config 0xFFFF s)))
    ∧ (s.patchCount.toNat ≤ s.params.nPatchMax → s.params.nCodeMax < s.codeCount.toNat →
      exec .checkConfig s = .next (ended .configError ⟨0xFFFF, 9, 0⟩ false s)
      ∧ exec .run s = .next (ended .configError ⟨0xFFFF, 9, 0⟩ false (runAt .config 0xFFFF s)))
    ∧ (s.patchCount.toNat ≤ s.params.nPatchMax → s.codeCount.toNat ≤ s.params.nCodeMax →
      (∀ i e, i < s.patchCount.toNat → (∀ j, j < i → ∃ p, PatchAt s j p ∧ p.Ok s.params) →
        checkDesc s i = .error (.raised e) →
        exec .checkConfig s = .next (ended e.code e.info false s)
        ∧ exec .run s = .next (ended e.code e.info false (runAt .config (BitVec.ofNat 16 i) s)))
      ∧ ((∀ j, j < s.patchCount.toNat → ∃ p, PatchAt s j p ∧ p.Ok s.params) →
        ∀ j, j < s.codeCount.toNat → (∀ j', j' < j → ∃ n, CodeAt s j' n) →
          (∀ l, byteAt s .ctab (8 * j) = some l → l ≠ 6 →
            exec .checkConfig s = .next (ended .invalidCode ⟨BitVec.ofNat 16 j, 1, 0⟩ false s)
            ∧ exec .run s = .next (ended .invalidCode ⟨BitVec.ofNat 16 j, 1, 0⟩ false
                (runAt .config (BitVec.ofNat 16 j) s)))
          ∧ ∀ k, firstBadChar s j k →
            exec .checkConfig s
              = .next (ended .invalidCode ⟨BitVec.ofNat 16 j, 2, BitVec.ofNat 8 k⟩ false s)
            ∧ exec .run s = .next (ended .invalidCode ⟨BitVec.ofNat 16 j, 2, BitVec.ofNat 8 k⟩ false
                (runAt .config (BitVec.ofNat 16 j) s))))

/-- PATCH_STEP (R166, R165) on a valid patch whose window matches: the patch is applied, APPLIED_CNT gains 1 modulo 2^32,
OUTCOME[i] is APPLIED, and nothing else changes. -/
def Obligations.PatchStepApplies : Prop :=
  ∀ (s : State) (i : Nat) (p : Patch), patchIndexOk s i → PatchAt s i p → p.Ok s.params →
    (p.expected = [] ∨ p.offset + p.expected.length ≤ s.params.imageLen) → CellsAt s .work p.offset p.expected →
    ∃ t, exec (.patchStep i) s = .next t
      ∧ { t with work := s.work, outcome := s.outcome }
          = endedOk true { notValid s with appliedCnt := s.appliedCnt + 1 }
      ∧ byteAt t .outcome i = some 0x01
      ∧ (∀ k, k ≠ i → byteAt t .outcome k = byteAt s .outcome k)
      ∧ match p.repl with
        | .single new =>
            byteAt t .work p.offset = some new
            ∧ ∀ k, k ≠ p.offset → byteAt t .work k = byteAt s .work k
        | .region code n fill =>
            CellsAt t .work p.offset (code ++ List.replicate (n - code.length) fill)
            ∧ ∀ k, k < p.offset ∨ p.offset + n ≤ k → byteAt t .work k = byteAt s .work k

/-- PATCH_STEP (R166, R165) on a valid patch whose window does not match: FAILED_CNT gains 1 modulo 2^32, OUTCOME[i] is
CONTEXT_MISMATCH, WORK and all else are kept, and it is no error (R208). -/
def Obligations.PatchStepSkips : Prop :=
  ∀ (s : State) (i : Nat) (p : Patch), patchIndexOk s i → PatchAt s i p → p.Ok s.params → p.expected ≠ [] →
    (s.params.imageLen < p.offset + p.expected.length
      ∨ (p.offset + p.expected.length ≤ s.params.imageLen
          ∧ ∃ window, window.length = p.expected.length ∧ CellsAt s .work p.offset window ∧ window ≠ p.expected)) →
    ∃ t, exec (.patchStep i) s = .next t
      ∧ { t with outcome := s.outcome } = endedOk false { notValid s with failedCnt := s.failedCnt + 1 }
      ∧ byteAt t .outcome i = some 0x02
      ∧ ∀ k, k ≠ i → byteAt t .outcome k = byteAt s .outcome k

/-- CODE_WRITE (R168, R167, R169) on a valid code: the cell the code names gets the value whatever it held, a cell behind
the header, and the result registers get the pair and the offset; nothing else changes. -/
def Obligations.CodeWriteCommand : Prop :=
  ∀ (s : State) (j : Nat) (n : Nibbles), s.params.wf = true → codeIndexOk s j → CodeAt s j n →
    ∃ t, exec (.codeWrite j) s = .next t
      ∧ { t with work := s.work }
          = endedOk false { notValid s with
              decAddr := decodeAddr n, decValue := decodeValue n, offsetOut := BitVec.ofNat 32 (codeOffset s n) }
      ∧ s.params.headerSize ≤ codeOffset s n ∧ codeOffset s n < s.params.imageLen
      ∧ byteAt t .work (codeOffset s n) = some (decodeValue n)
      ∧ ∀ k, k ≠ codeOffset s n → byteAt t .work k = byteAt s .work k

/-- CODE_WRITE (R168) on an invalid code entry: INVALID_CODE with the index, WORK and the result registers kept. -/
def Obligations.CodeWriteRejectsInvalidCode : Prop :=
  ∀ (s : State) (j : Nat), s.params.wf = true → codeIndexOk s j →
    (∀ l, byteAt s .ctab (8 * j) = some l → l ≠ 6 →
      exec (.codeWrite j) s = .next (ended .invalidCode ⟨BitVec.ofNat 16 j, 1, 0⟩ false (notValid s)))
    ∧ ∀ k, firstBadChar s j k →
      exec (.codeWrite j) s
        = .next (ended .invalidCode ⟨BitVec.ofNat 16 j, 2, BitVec.ofNat 8 k⟩ false (notValid s))

/-- RUN refines the source's `run(image, patches, codes)` (R172, R165, R167, R171): on a valid image and a valid
configuration it completes; WORK is the source's final image, the counts count the patches that applied and that did not,
OUTCOME records each, the run ends in its DONE phase, and it succeeds with OUTPUT_VALID exactly when some patch applied;
SRC, the tables and the result registers are kept. -/
def Obligations.RunRefinesSource : Prop :=
  ∀ (s : State) (image : List Byte) (ps : List Patch) (cs : List Nibbles), s.params.wf = true →
    s.srcLen.toNat = s.params.imageLen → ImageAt s .src image → headerOk s.params image → ConfigHolds s ps cs →
    ∃ t, exec .run s = .next t
      ∧ let r := foldPatches ps image
        let applied := (r.2.filter (· = true)).length
        ImageAt t .work (foldCodes s.params r.1 cs)
        ∧ t.appliedCnt = BitVec.ofNat 32 applied ∧ t.failedCnt = BitVec.ofNat 32 (ps.length - applied)
        ∧ (∀ k, k < ps.length → byteAt t .outcome k = some (if r.2[k]? = some true then 0x01 else 0x02))
        ∧ (∀ k, ps.length ≤ k → byteAt t .outcome k = some 0x00)
        ∧ { t with work := s.work, outcome := s.outcome, appliedCnt := s.appliedCnt, failedCnt := s.failedCnt }
          = { s with
              status := { s.status with
                busy := false, done := true, outputValid := applied != 0, matched := false
                err := if applied = 0 then .noneApplied else .none }
              errInfo := if applied = 0 then ⟨0xFFFF, 0, 0⟩ else ⟨0, 0, 0⟩
              seq := ⟨.done, 0⟩
              seqPos := ⟨.done, 0⟩ }

/-- R172's FORMAT phase and R122: after a valid configuration a failed validation ends the run with FORMAT_ERROR at
(FORMAT, 0xFFFF), before WORK is written, the counters 0 and OUTCOME all 0x00. -/
def Obligations.RunFormatError : Prop :=
  ∀ (s : State) (ps : List Patch) (cs : List Nibbles) (e : CmdError), s.params.wf = true → ConfigHolds s ps cs →
    validate s = .error (.raised e) →
    exec .run s = .next (ended e.code e.info false (runAt .format 0xFFFF s))

/-- R172, from every state: "After a CONFIG or FORMAT error, `WORK` holds what it held before the RUN, the counters are 0
and every OUTCOME is 0x00", and nothing else is written. -/
def Obligations.RunErrorBeforeWork : Prop :=
  ∀ s t : State, exec .run s = .next t →
    t.status.err = .configError ∨ t.status.err = .invalidCode ∨ t.status.err = .formatError →
    t.status.outputValid = false ∧ t.appliedCnt = 0 ∧ t.failedCnt = 0
    ∧ (∀ k, byteAt t .outcome k = some 0x00)
    ∧ (t.seqPos.phase = .config ∨ t.seqPos = ⟨.format, 0xFFFF⟩)
    ∧ { t with
        status := s.status, errInfo := s.errInfo, appliedCnt := s.appliedCnt, failedCnt := s.failedCnt
        outcome := s.outcome, seq := s.seq, seqPos := s.seqPos } = s

/-- R172, R171, from every state: a run that reaches its DONE phase has counted every patch once, succeeds exactly when
some patch applied, and shows it in ERR, ERR_INFO and OUTPUT_VALID. -/
def Obligations.RunCountsEveryPatch : Prop :=
  ∀ s t : State, s.params.wf = true → exec .run s = .next t → t.seqPos.phase = .done →
    t.seqPos = ⟨.done, 0⟩ ∧ t.appliedCnt.toNat + t.failedCnt.toNat = s.patchCount.toNat
    ∧ (t.appliedCnt = 0 → t.status.err = .noneApplied ∧ t.errInfo = ⟨0xFFFF, 0, 0⟩ ∧ t.status.outputValid = false)
    ∧ (t.appliedCnt ≠ 0 → t.status.err = .none ∧ t.errInfo = ⟨0, 0, 0⟩ ∧ t.status.outputValid = true)

/-- The parts of RUN are commands of their own (44_orchestrator.md): a run that reaches its DONE phase leaves the WORK,
the counts and the OUTCOME that COPY, CLEAR_COUNTS, each PATCH_STEP in order and each CODE_WRITE in order leave. -/
def Obligations.RunEqualsHandDrivenFold : Prop :=
  ∀ s t : State, s.params.wf = true → exec .run s = .next t → t.seqPos.phase = .done →
    ∃ u, execAll (.copy :: .clearCounts :: ((List.range s.patchCount.toNat).map .patchStep
        ++ (List.range s.codeCount.toNat).map .codeWrite)) s = .next u
      ∧ u.work = t.work ∧ u.appliedCnt = t.appliedCnt ∧ u.failedCnt = t.failedCnt ∧ u.outcome = t.outcome

/-! ### Whole-machine rules -/

/-- R65, R37, R27, R207: no command writes SRC, PTAB, CTAB, the operand registers, CMD or the sticky flags, nor anything
that is not the block's. -/
def Obligations.CommandsKeepProgram : Prop :=
  ∀ (i : Instr) (s t : State), exec i s = .next t →
    t.src = s.src ∧ t.ptab = s.ptab ∧ t.ctab = s.ctab ∧ t.cmd = s.cmd ∧ t.srcLen = s.srcLen
    ∧ t.patchCount = s.patchCount ∧ t.codeCount = s.codeCount ∧ t.codeIn0 = s.codeIn0 ∧ t.codeIn1 = s.codeIn1
    ∧ t.addrIn = s.addrIn ∧ t.encAddr = s.encAddr ∧ t.encValue = s.encValue
    ∧ t.status.hazard = s.status.hazard ∧ t.status.accessErr = s.status.accessErr
    ∧ t.params = s.params ∧ t.inputs = s.inputs ∧ t.rdata = s.rdata ∧ t.draws = s.draws

/-- Who writes what (10_state.md R26, R30, R31, R32, R33, R38, R41): each result register, counter and engine memory
changes only under the commands the rules name. -/
def Obligations.CommandsWriteOnlyTheirOwn : Prop :=
  ∀ (i : Instr) (s t : State), exec i s = .next t →
    (clearsOutputValid i = false → t.work = s.work)
    ∧ ((∀ j, i ≠ .patchStep j) → i ≠ .run → i ≠ .clearCounts →
        t.appliedCnt = s.appliedCnt ∧ t.failedCnt = s.failedCnt ∧ t.outcome = s.outcome)
    ∧ (i ≠ .decode → (∀ j, i ≠ .codeWrite j) → t.decAddr = s.decAddr ∧ t.decValue = s.decValue)
    ∧ (i ≠ .toOffset → (∀ j, i ≠ .codeWrite j) → t.offsetOut = s.offsetOut)
    ∧ (i ≠ .encode → t.codeOut0 = s.codeOut0 ∧ t.codeOut1 = s.codeOut1)
    ∧ (i ≠ .run → t.seq = s.seq ∧ t.seqPos = s.seqPos)

/-- The flags at every completion (R36, R203, R25): BUSY 0, DONE 1; MATCH 1 only after VERIFY, APPLY_SINGLE or PATCH_STEP
without error; OUTPUT_VALID set by a successful RUN, cleared by the commands that write WORK, kept by the others; ERR_INFO
0 without error. -/
def Obligations.FlagsAtCompletion : Prop :=
  ∀ (i : Instr) (s t : State), exec i s = .next t →
    t.status.busy = false ∧ t.status.done = true
    ∧ (t.status.matched = true →
        t.status.err = .none ∧ ∃ j, i = .verify j ∨ i = .applySingle j ∨ i = .patchStep j)
    ∧ (i = .run → t.status.outputValid = (t.status.err == .none))
    ∧ (i ≠ .run → t.status.outputValid = (s.status.outputValid && !clearsOutputValid i))
    ∧ (t.status.err = .none → t.errInfo = ⟨0, 0, 0⟩)

/-- R203: every error but NONE_APPLIED is detected before the command's first write to WORK, to the counters and OUTCOME
(RUN's clearing apart) or to a result register. -/
def Obligations.ErrorsComeBeforeWrites : Prop :=
  ∀ (i : Instr) (s t : State), exec i s = .next t → t.status.err ≠ .none → t.status.err ≠ .noneApplied →
    t.work = s.work ∧ t.decAddr = s.decAddr ∧ t.decValue = s.decValue ∧ t.offsetOut = s.offsetOut
    ∧ t.codeOut0 = s.codeOut0 ∧ t.codeOut1 = s.codeOut1
    ∧ (i ≠ .run → t.appliedCnt = s.appliedCnt ∧ t.failedCnt = s.failedCnt ∧ t.outcome = s.outcome)

/-- R200, "raised by": each command ends with no other error than the table gives it. -/
def Obligations.ErrorsPerCommand : Prop :=
  ∀ (i : Instr) (s t : State), exec i s = .next t → t.status.err ∈ mayRaise i

/-- No command is refused, and every command completes on a block whose buffers and tables are wholly written, whatever
they and the registers hold: the UNWRITTEN fault (10_state.md R44) is the one way a command can stop. -/
def Obligations.CommandsCompleteOnWrittenBlock : Prop :=
  (∀ (i : Instr) (s : State) (r : Refusal), exec i s ≠ .refused r)
  ∧ ∀ (i : Instr) (s : State), s.params.wf = true → Loaded s → ∃ t, exec i s = .next t

/-- R207, R233: what the host does at the port while a command is in progress does not change what the command does:
a command answers the same whatever the sticky flags are. -/
def Obligations.PortDoesNotDisturbCommands : Prop :=
  ∀ (i : Instr) (s : State) (hazard accessErr : Bool) (rdata : Word) (draws : Nat) (inputs : List Input),
    exec i (portOwned hazard accessErr rdata draws inputs s)
      = mapNext (portOwned hazard accessErr rdata draws inputs) (exec i s)

/-! ### The host port -/

/-- R51, R52, R53: what each port address and width reaches: nothing when misaligned, a register only as an aligned word,
the cells of a window only when all of them exist, nothing elsewhere. -/
def Obligations.PortMapReaches : Prop :=
  ∀ (P : Params) (w : Width) (a : PortAddr), P.wf = true →
    (a.toNat % widthBytes w ≠ 0 → portTarget P w a = none)
    ∧ (a.toNat < 0x10000 → w ≠ .word → portTarget P w a = none)
    ∧ (∀ k, a.toNat = 4 * k → k < 19 → w = .word →
        portTarget P w a = ([Reg.cmd, .status, .errInfo, .appliedCnt, .failedCnt, .srcLen, .patchCount, .codeCount,
          .codeIn0, .codeIn1, .decAddr, .decValue, .addrIn, .offsetOut, .encAddr, .encValue, .codeOut0, .codeOut1,
          .seqPos][k]?).map .reg)
    ∧ (0x4C ≤ a.toNat → a.toNat < 0x10000 → portTarget P w a = none)
    ∧ (∀ k b size, k < 0x10000 →
        (a.toNat = 0x10000 + k ∧ b = .src ∧ size = P.imageLen) ∨ (a.toNat = 0x20000 + k ∧ b = .work ∧ size = P.imageLen)
          ∨ (a.toNat = 0x30000 + k ∧ b = .ptab ∧ size = 256 * P.nPatchMax)
          ∨ (a.toNat = 0x40000 + k ∧ b = .ctab ∧ size = 8 * P.nCodeMax)
          ∨ (a.toNat = 0x50000 + k ∧ b = .outcome ∧ size = P.nPatchMax) →
        (a.toNat % widthBytes w = 0 → k + widthBytes w ≤ size → portTarget P w a = some (.cells b k))
        ∧ (size < k + widthBytes w → portTarget P w a = none))
    ∧ (0x60000 ≤ a.toNat → portTarget P w a = none)

/-- R53: a read that is not admitted returns 0, a write that is not admitted (unreachable, or of a read-only register or
window) changes nothing else, and either sets ACCESS_ERR, and HAZARD too while BUSY = 1. That a not admitted read while BUSY
returns 0 is the model's reading of R53 beside R233 (notes/assumptions/7). -/
def Obligations.AccessNotAdmitted : Prop :=
  ∀ (w : Width) (a : PortAddr) (v : Word) (s : State),
    (portTarget s.params w a = none →
      hostRead w a s = .next { s with
        rdata := 0
        status := { s.status with accessErr := true, hazard := s.status.hazard || s.status.busy } })
    ∧ (portTarget s.params w a = none
        ∨ (∃ k, portTarget s.params w a = some (.cells .work k) ∨ portTarget s.params w a = some (.cells .outcome k))
        ∨ (∃ r, portTarget s.params w a = some (.reg r)
            ∧ r ∈ [Reg.errInfo, .appliedCnt, .failedCnt, .decAddr, .decValue, .offsetOut, .codeOut0, .codeOut1, .seqPos]) →
      hostWrite w a v s = { s with
        status := { s.status with accessErr := true, hazard := s.status.hazard || s.status.busy } })

/-- R233: while BUSY = 1 every write is dropped and every read but of STATUS returns a free value; both set HAZARD and
change nothing of the block; STATUS is read as it stands. The value is not constrained: it is the free value at the
model's draw counter (notes/assumptions/6). -/
def Obligations.BusyRule : Prop :=
  ∀ (w : Width) (a : PortAddr) (v : Word) (s : State), s.status.busy = true →
    (∃ ae, hostWrite w a v s = { s with status := { s.status with hazard := true, accessErr := ae } }
      ∧ (writeAdmitted s.params w a ≠ none → ae = s.status.accessErr))
    ∧ (∀ t, portTarget s.params w a = some t → t ≠ .reg .status →
      ∃ x d, hostRead w a s = .next { s with rdata := x, draws := d, status := { s.status with hazard := true } })
    ∧ (portTarget s.params w a = some (.reg .status) →
      hostRead w a s = .next { s with rdata := statusWord s.status })

/-- R56, R52: an admitted read of an idle block is free of side effects: a register as it stands, or the cells of a window
in little-endian order. -/
def Obligations.IdleReadHasNoSideEffect : Prop :=
  ∀ (w : Width) (a : PortAddr) (s : State), s.status.busy = false →
    (∀ r, portTarget s.params w a = some (.reg r) → hostRead w a s = .next { s with rdata := readReg r s })
    ∧ ∀ b k bs, portTarget s.params w a = some (.cells b k) → bs.length = widthBytes w → CellsAt s b k bs →
      ∃ v : Word, hostRead w a s = .next { s with rdata := v }
        ∧ (∀ j, j < bs.length → bs[j]? = some (wordByte v j)) ∧ v.toNat < 0x100 ^ bs.length

/-- R21, R56: while idle a word write to a register that is only data stores its value without the reserved bits, which
read back 0, and leaves every other register alone. -/
def Obligations.RegisterWriteThenRead : Prop :=
  ∀ (a : PortAddr) (v : Word) (s : State) (r : Reg), s.status.busy = false →
    portTarget s.params .word a = some (.reg r) →
    r ∈ [Reg.srcLen, .patchCount, .codeCount, .codeIn0, .codeIn1, .addrIn, .encAddr, .encValue] →
    readReg r (hostWrite .word a v s)
        = (if r = .patchCount ∨ r = .codeCount then v &&& 0xFFFF else if r = .encValue then v &&& 0xFF else v)
      ∧ (∀ r', r' ≠ r → readReg r' (hostWrite .word a v s) = readReg r' s)
      ∧ (∀ b, getMem (hostWrite .word a v s) b = getMem s b) ∧ (hostWrite .word a v s).seq = s.seq

/-- R52, R54: while idle a window write stores the bytes of the value in little-endian order, at the lowest address the
least significant, and changes no other cell and no register. -/
def Obligations.WindowWriteIsLittleEndian : Prop :=
  ∀ (w : Width) (a : PortAddr) (v : Word) (s : State) (b : Buf) (k : Nat), s.status.busy = false →
    portTarget s.params w a = some (.cells b k) → b ∈ [Buf.src, .ptab, .ctab] →
    (∀ j, j < widthBytes w → byteAt (hostWrite w a v s) b (k + j) = some (wordByte v j))
    ∧ (∀ b' k', b' ≠ b ∨ k' < k ∨ k + widthBytes w ≤ k' → byteAt (hostWrite w a v s) b' k' = byteAt s b' k')
    ∧ setMem (hostWrite w a v s) b (getMem s b) = s

/-- R24: a word write to STATUS while idle clears HAZARD by bit 4 and ACCESS_ERR by bit 5 and changes nothing else; while
busy it is dropped and sets HAZARD. -/
def Obligations.StatusWriteClearsSticky : Prop :=
  ∀ (a : PortAddr) (v : Word) (s : State), a.toNat = 0x004 →
    (s.status.busy = false →
      hostWrite .word a v s = { s with status := { s.status with
        hazard := if v.getLsbD 4 then false else s.status.hazard
        accessErr := if v.getLsbD 5 then false else s.status.accessErr } })
    ∧ (s.status.busy = true → hostWrite .word a v s = { s with status := { s.status with hazard := true } })

/-- R202, R22, R36: a CMD write while idle is accepted, illegal words too: CMD, BUSY 1, DONE 0, and OUTPUT_VALID 0 for the
six commands that write WORK, all at once and nothing else; while busy it is dropped as a hazard. A read of CMD returns the
last accepted word. That an illegal word whose OPC is one of the six keeps OUTPUT_VALID is the model's reading
(notes/assumptions/11, DEDUCED), which these rules and R73 do not settle. -/
def Obligations.CommandAccepted : Prop :=
  ∀ (a : PortAddr) (w : Word) (s : State), a.toNat = 0x000 →
    (s.status.busy = false →
      (∃ ov, hostWrite .word a w s
          = { s with cmd := w, status := { s.status with busy := true, done := false, outputValid := ov } }
        ∧ (writesWork w → ov = false) ∧ (¬ writesWork w → ov = s.status.outputValid))
      ∧ hostRead .word a s = .next { s with rdata := s.cmd })
    ∧ (s.status.busy = true → hostWrite .word a w s = { s with status := { s.status with hazard := true } })

/-- R23, R25, R33: where each field of STATUS, ERR_INFO and SEQ_POS stands in the word the host reads; every other bit is
0. -/
def Obligations.RegisterFieldPlaces : Prop :=
  ∀ s : State,
    (readReg .status s).toNat
        = s.status.busy.toNat + 2 * s.status.done.toNat + 4 * s.status.outputValid.toNat + 8 * s.status.matched.toNat
          + 16 * s.status.hazard.toNat + 32 * s.status.accessErr.toNat + 256 * errNumber s.status.err
      ∧ errNumber s.status.err ≤ 9
    ∧ (readReg .errInfo s).toNat
        = s.errInfo.index.toNat + 0x10000 * s.errInfo.reason.toNat + 0x1000000 * s.errInfo.pos.toNat
    ∧ (readReg .seqPos s).toNat = s.seqPos.index.toNat + 0x10000 * phaseNumber s.seqPos.phase
      ∧ phaseNumber s.seqPos.phase ≤ 5

/-! ### Reset and steps -/

/-- R44: after reset every register reads 0, SEQ is (IDLE, 0), the engine is idle, every OUTCOME byte is 0x00, the other
memories read as the UNWRITTEN fault; and a RUN issued then reads no cell: it ends with FORMAT_ERROR, reason LENGTH. -/
def Obligations.StateAfterReset : Prop :=
  (∀ r, readReg r State.reset = 0)
  ∧ State.reset.seq = ⟨.idle, 0⟩ ∧ State.reset.status.busy = false
  ∧ (∀ k, byteAt State.reset .outcome k = some 0x00)
  ∧ (∀ b k, b ≠ .outcome → readCell State.reset b k = .error (.unwritten b k))
  ∧ exec .run State.reset
      = .next (ended .formatError ⟨0xFFFF, 1, 0⟩ false { State.reset with
          seq := ⟨.format, 0xFFFF⟩, seqPos := ⟨.format, 0xFFFF⟩ })

/-- R230: the reset input, in any state and with any command in progress, gives the state of R44 (the parameters and the
model's own fields kept): the command is abandoned, DONE is 0, every memory but OUTCOME is unwritten. -/
def Obligations.ResetInputAbandonsCommand : Prop :=
  ∀ (s : State) (t : List Input), s.params.wf = true → s.inputs = .reset :: t →
    ∃ u, step s = .next u ∧ (∀ r, readReg r u = 0) ∧ u.seq = ⟨.idle, 0⟩ ∧ u.status.busy = false
      ∧ u.status.done = false ∧ (∀ k, byteAt u .outcome k = some 0x00)
      ∧ (∀ b k, b ≠ .outcome → byteAt u b k = none) ∧ u.params = s.params ∧ u.inputs = t

/-- A step performs the command in progress: when the engine has the turn and CMD decodes to a command, the step is that
command (10_state.md R35, 20_memory.md R55); what the step adds is that the turn is used up. -/
def Obligations.StepPerformsDecodedCommand : Prop :=
  ∀ (s : State) (i : Instr), s.params.wf = true → s.status.busy = true → Sys2Proof.decode s.cmd = .ok i →
    (s.inputs = [] → step s = exec i s)
    ∧ ∀ t, s.inputs = .engine :: t → step s = exec i { s with inputs := t }

/-- The other steps: a host access, the idle engine, which waits (R231), and a set of parameters no block has (U11). -/
def Obligations.StepPerformsInputs : Prop :=
  ∀ s : State,
    (s.params.wf = false → step s = .refused .noSuchBlock)
    ∧ (s.params.wf = true →
      (∀ w a t, s.inputs = .read w a :: t → step s = hostRead w a { s with inputs := t })
      ∧ (∀ w a v t, s.inputs = .write w a v :: t → step s = .next (hostWrite w a v { s with inputs := t }))
      ∧ (s.status.busy = false → s.inputs = [] → step s = .next s)
      ∧ ∀ t, s.status.busy = false → s.inputs = .engine :: t → step s = .next { s with inputs := t })

/-- R202 and R203 together: a legal word written to CMD of an idle block with nothing else pending is performed by the
step after. -/
def Obligations.WrittenCommandIsPerformed : Prop :=
  ∀ (s : State) (a : PortAddr) (w : Word) (i : Instr), s.params.wf = true → s.status.busy = false →
    a.toNat = 0 → s.inputs = [.write .word a w] → Sys2Proof.decode w = .ok i →
    Sys2Proof.core.run 2 s = exec i (accept w { s with inputs := [] })

/-- The state after reset meets the invariant. -/
def Obligations.ResetMeetsInvariant : Prop := State.reset.Inv

/-- Every step keeps the invariant: canonical memories, legal OUTCOME bytes, BUSY and DONE apart, MATCH 0 and ERR_INFO
coherent with ERR, SEQ_POS equal to SEQ at a legal place, OUTPUT_VALID only after a finished run and never under a command
that writes WORK. -/
def Obligations.StepKeepsInvariant : Prop :=
  ∀ s t : State, s.Inv → step s = .next t → t.Inv

/-- R238, R233: a command in progress completes, whatever the host does meanwhile at the port: on a wholly written block,
with only host accesses pending, one step each and one more leave BUSY = 0 and DONE = 1, and each access that is not a read
of STATUS has left HAZARD set. -/
def Obligations.PendingCommandCompletes : Prop :=
  ∀ s : State, s.params.wf = true → s.status.busy = true → Loaded s → (∀ i ∈ s.inputs, isAccess i = true) →
    ∃ t, Sys2Proof.core.run (s.inputs.length + 1) s = .next t ∧ t.status.busy = false ∧ t.status.done = true
      ∧ t.inputs = []
      ∧ ((∃ w a v, Input.write w a v ∈ s.inputs)
          ∨ (∃ w a, Input.read w a ∈ s.inputs ∧ portTarget s.params w a ≠ some (.reg .status)) →
        t.status.hazard = true)
end

