-- ==== Sys2Proof/Laws/State.lean ====
section
/-! SUPPORT. One lemma per field of State per named update of it, so that no proof unfolds a record update. -/

namespace Sys2Proof.Machine

@[simp] theorem complete_cmd (m : Bool) (s : State) : (complete m s).cmd = s.cmd := rfl
@[simp] theorem complete_status (m : Bool) (s : State) : (complete m s).status = completeStatus .none m s.status := rfl
@[simp] theorem complete_errInfo (m : Bool) (s : State) : (complete m s).errInfo = ⟨0, 0, 0⟩ := rfl
@[simp] theorem complete_appliedCnt (m : Bool) (s : State) : (complete m s).appliedCnt = s.appliedCnt := rfl
@[simp] theorem complete_failedCnt (m : Bool) (s : State) : (complete m s).failedCnt = s.failedCnt := rfl
@[simp] theorem complete_srcLen (m : Bool) (s : State) : (complete m s).srcLen = s.srcLen := rfl
@[simp] theorem complete_patchCount (m : Bool) (s : State) : (complete m s).patchCount = s.patchCount := rfl
@[simp] theorem complete_codeCount (m : Bool) (s : State) : (complete m s).codeCount = s.codeCount := rfl
@[simp] theorem complete_codeIn0 (m : Bool) (s : State) : (complete m s).codeIn0 = s.codeIn0 := rfl
@[simp] theorem complete_codeIn1 (m : Bool) (s : State) : (complete m s).codeIn1 = s.codeIn1 := rfl
@[simp] theorem complete_decAddr (m : Bool) (s : State) : (complete m s).decAddr = s.decAddr := rfl
@[simp] theorem complete_decValue (m : Bool) (s : State) : (complete m s).decValue = s.decValue := rfl
@[simp] theorem complete_addrIn (m : Bool) (s : State) : (complete m s).addrIn = s.addrIn := rfl
@[simp] theorem complete_offsetOut (m : Bool) (s : State) : (complete m s).offsetOut = s.offsetOut := rfl
@[simp] theorem complete_encAddr (m : Bool) (s : State) : (complete m s).encAddr = s.encAddr := rfl
@[simp] theorem complete_encValue (m : Bool) (s : State) : (complete m s).encValue = s.encValue := rfl
@[simp] theorem complete_codeOut0 (m : Bool) (s : State) : (complete m s).codeOut0 = s.codeOut0 := rfl
@[simp] theorem complete_codeOut1 (m : Bool) (s : State) : (complete m s).codeOut1 = s.codeOut1 := rfl
@[simp] theorem complete_seqPos (m : Bool) (s : State) : (complete m s).seqPos = s.seqPos := rfl
@[simp] theorem complete_seq (m : Bool) (s : State) : (complete m s).seq = s.seq := rfl
@[simp] theorem complete_src (m : Bool) (s : State) : (complete m s).src = s.src := rfl
@[simp] theorem complete_work (m : Bool) (s : State) : (complete m s).work = s.work := rfl
@[simp] theorem complete_ptab (m : Bool) (s : State) : (complete m s).ptab = s.ptab := rfl
@[simp] theorem complete_ctab (m : Bool) (s : State) : (complete m s).ctab = s.ctab := rfl
@[simp] theorem complete_outcome (m : Bool) (s : State) : (complete m s).outcome = s.outcome := rfl
@[simp] theorem complete_params (m : Bool) (s : State) : (complete m s).params = s.params := rfl
@[simp] theorem complete_inputs (m : Bool) (s : State) : (complete m s).inputs = s.inputs := rfl
@[simp] theorem complete_rdata (m : Bool) (s : State) : (complete m s).rdata = s.rdata := rfl
@[simp] theorem complete_draws (m : Bool) (s : State) : (complete m s).draws = s.draws := rfl

@[simp] theorem completeRaised_cmd (e : CmdError) (s : State) : (completeRaised e s).cmd = s.cmd := rfl
@[simp] theorem completeRaised_status (e : CmdError) (s : State) : (completeRaised e s).status = completeStatus e.code false s.status := rfl
@[simp] theorem completeRaised_errInfo (e : CmdError) (s : State) : (completeRaised e s).errInfo = e.info := rfl
@[simp] theorem completeRaised_appliedCnt (e : CmdError) (s : State) : (completeRaised e s).appliedCnt = s.appliedCnt := rfl
@[simp] theorem completeRaised_failedCnt (e : CmdError) (s : State) : (completeRaised e s).failedCnt = s.failedCnt := rfl
@[simp] theorem completeRaised_srcLen (e : CmdError) (s : State) : (completeRaised e s).srcLen = s.srcLen := rfl
@[simp] theorem completeRaised_patchCount (e : CmdError) (s : State) : (completeRaised e s).patchCount = s.patchCount := rfl
@[simp] theorem completeRaised_codeCount (e : CmdError) (s : State) : (completeRaised e s).codeCount = s.codeCount := rfl
@[simp] theorem completeRaised_codeIn0 (e : CmdError) (s : State) : (completeRaised e s).codeIn0 = s.codeIn0 := rfl
@[simp] theorem completeRaised_codeIn1 (e : CmdError) (s : State) : (completeRaised e s).codeIn1 = s.codeIn1 := rfl
@[simp] theorem completeRaised_decAddr (e : CmdError) (s : State) : (completeRaised e s).decAddr = s.decAddr := rfl
@[simp] theorem completeRaised_decValue (e : CmdError) (s : State) : (completeRaised e s).decValue = s.decValue := rfl
@[simp] theorem completeRaised_addrIn (e : CmdError) (s : State) : (completeRaised e s).addrIn = s.addrIn := rfl
@[simp] theorem completeRaised_offsetOut (e : CmdError) (s : State) : (completeRaised e s).offsetOut = s.offsetOut := rfl
@[simp] theorem completeRaised_encAddr (e : CmdError) (s : State) : (completeRaised e s).encAddr = s.encAddr := rfl
@[simp] theorem completeRaised_encValue (e : CmdError) (s : State) : (completeRaised e s).encValue = s.encValue := rfl
@[simp] theorem completeRaised_codeOut0 (e : CmdError) (s : State) : (completeRaised e s).codeOut0 = s.codeOut0 := rfl
@[simp] theorem completeRaised_codeOut1 (e : CmdError) (s : State) : (completeRaised e s).codeOut1 = s.codeOut1 := rfl
@[simp] theorem completeRaised_seqPos (e : CmdError) (s : State) : (completeRaised e s).seqPos = s.seqPos := rfl
@[simp] theorem completeRaised_seq (e : CmdError) (s : State) : (completeRaised e s).seq = s.seq := rfl
@[simp] theorem completeRaised_src (e : CmdError) (s : State) : (completeRaised e s).src = s.src := rfl
@[simp] theorem completeRaised_work (e : CmdError) (s : State) : (completeRaised e s).work = s.work := rfl
@[simp] theorem completeRaised_ptab (e : CmdError) (s : State) : (completeRaised e s).ptab = s.ptab := rfl
@[simp] theorem completeRaised_ctab (e : CmdError) (s : State) : (completeRaised e s).ctab = s.ctab := rfl
@[simp] theorem completeRaised_outcome (e : CmdError) (s : State) : (completeRaised e s).outcome = s.outcome := rfl
@[simp] theorem completeRaised_params (e : CmdError) (s : State) : (completeRaised e s).params = s.params := rfl
@[simp] theorem completeRaised_inputs (e : CmdError) (s : State) : (completeRaised e s).inputs = s.inputs := rfl
@[simp] theorem completeRaised_rdata (e : CmdError) (s : State) : (completeRaised e s).rdata = s.rdata := rfl
@[simp] theorem completeRaised_draws (e : CmdError) (s : State) : (completeRaised e s).draws = s.draws := rfl

@[simp] theorem accept_cmd (w : Word) (s : State) : (accept w s).cmd = w := rfl
@[simp] theorem accept_status (w : Word) (s : State) : (accept w s).status = acceptStatus w s.status := rfl
@[simp] theorem accept_errInfo (w : Word) (s : State) : (accept w s).errInfo = s.errInfo := rfl
@[simp] theorem accept_appliedCnt (w : Word) (s : State) : (accept w s).appliedCnt = s.appliedCnt := rfl
@[simp] theorem accept_failedCnt (w : Word) (s : State) : (accept w s).failedCnt = s.failedCnt := rfl
@[simp] theorem accept_srcLen (w : Word) (s : State) : (accept w s).srcLen = s.srcLen := rfl
@[simp] theorem accept_patchCount (w : Word) (s : State) : (accept w s).patchCount = s.patchCount := rfl
@[simp] theorem accept_codeCount (w : Word) (s : State) : (accept w s).codeCount = s.codeCount := rfl
@[simp] theorem accept_codeIn0 (w : Word) (s : State) : (accept w s).codeIn0 = s.codeIn0 := rfl
@[simp] theorem accept_codeIn1 (w : Word) (s : State) : (accept w s).codeIn1 = s.codeIn1 := rfl
@[simp] theorem accept_decAddr (w : Word) (s : State) : (accept w s).decAddr = s.decAddr := rfl
@[simp] theorem accept_decValue (w : Word) (s : State) : (accept w s).decValue = s.decValue := rfl
@[simp] theorem accept_addrIn (w : Word) (s : State) : (accept w s).addrIn = s.addrIn := rfl
@[simp] theorem accept_offsetOut (w : Word) (s : State) : (accept w s).offsetOut = s.offsetOut := rfl
@[simp] theorem accept_encAddr (w : Word) (s : State) : (accept w s).encAddr = s.encAddr := rfl
@[simp] theorem accept_encValue (w : Word) (s : State) : (accept w s).encValue = s.encValue := rfl
@[simp] theorem accept_codeOut0 (w : Word) (s : State) : (accept w s).codeOut0 = s.codeOut0 := rfl
@[simp] theorem accept_codeOut1 (w : Word) (s : State) : (accept w s).codeOut1 = s.codeOut1 := rfl
@[simp] theorem accept_seqPos (w : Word) (s : State) : (accept w s).seqPos = s.seqPos := rfl
@[simp] theorem accept_seq (w : Word) (s : State) : (accept w s).seq = s.seq := rfl
@[simp] theorem accept_src (w : Word) (s : State) : (accept w s).src = s.src := rfl
@[simp] theorem accept_work (w : Word) (s : State) : (accept w s).work = s.work := rfl
@[simp] theorem accept_ptab (w : Word) (s : State) : (accept w s).ptab = s.ptab := rfl
@[simp] theorem accept_ctab (w : Word) (s : State) : (accept w s).ctab = s.ctab := rfl
@[simp] theorem accept_outcome (w : Word) (s : State) : (accept w s).outcome = s.outcome := rfl
@[simp] theorem accept_params (w : Word) (s : State) : (accept w s).params = s.params := rfl
@[simp] theorem accept_inputs (w : Word) (s : State) : (accept w s).inputs = s.inputs := rfl
@[simp] theorem accept_rdata (w : Word) (s : State) : (accept w s).rdata = s.rdata := rfl
@[simp] theorem accept_draws (w : Word) (s : State) : (accept w s).draws = s.draws := rfl

@[simp] theorem moveSeq_cmd (p : Phase) (i : BitVec 16) (s : State) : (moveSeq p i s).cmd = s.cmd := rfl
@[simp] theorem moveSeq_status (p : Phase) (i : BitVec 16) (s : State) : (moveSeq p i s).status = s.status := rfl
@[simp] theorem moveSeq_errInfo (p : Phase) (i : BitVec 16) (s : State) : (moveSeq p i s).errInfo = s.errInfo := rfl
@[simp] theorem moveSeq_appliedCnt (p : Phase) (i : BitVec 16) (s : State) : (moveSeq p i s).appliedCnt = s.appliedCnt := rfl
@[simp] theorem moveSeq_failedCnt (p : Phase) (i : BitVec 16) (s : State) : (moveSeq p i s).failedCnt = s.failedCnt := rfl
@[simp] theorem moveSeq_srcLen (p : Phase) (i : BitVec 16) (s : State) : (moveSeq p i s).srcLen = s.srcLen := rfl
@[simp] theorem moveSeq_patchCount (p : Phase) (i : BitVec 16) (s : State) : (moveSeq p i s).patchCount = s.patchCount := rfl
@[simp] theorem moveSeq_codeCount (p : Phase) (i : BitVec 16) (s : State) : (moveSeq p i s).codeCount = s.codeCount := rfl
@[simp] theorem moveSeq_codeIn0 (p : Phase) (i : BitVec 16) (s : State) : (moveSeq p i s).codeIn0 = s.codeIn0 := rfl
@[simp] theorem moveSeq_codeIn1 (p : Phase) (i : BitVec 16) (s : State) : (moveSeq p i s).codeIn1 = s.codeIn1 := rfl
@[simp] theorem moveSeq_decAddr (p : Phase) (i : BitVec 16) (s : State) : (moveSeq p i s).decAddr = s.decAddr := rfl
@[simp] theorem moveSeq_decValue (p : Phase) (i : BitVec 16) (s : State) : (moveSeq p i s).decValue = s.decValue := rfl
@[simp] theorem moveSeq_addrIn (p : Phase) (i : BitVec 16) (s : State) : (moveSeq p i s).addrIn = s.addrIn := rfl
@[simp] theorem moveSeq_offsetOut (p : Phase) (i : BitVec 16) (s : State) : (moveSeq p i s).offsetOut = s.offsetOut := rfl
@[simp] theorem moveSeq_encAddr (p : Phase) (i : BitVec 16) (s : State) : (moveSeq p i s).encAddr = s.encAddr := rfl
@[simp] theorem moveSeq_encValue (p : Phase) (i : BitVec 16) (s : State) : (moveSeq p i s).encValue = s.encValue := rfl
@[simp] theorem moveSeq_codeOut0 (p : Phase) (i : BitVec 16) (s : State) : (moveSeq p i s).codeOut0 = s.codeOut0 := rfl
@[simp] theorem moveSeq_codeOut1 (p : Phase) (i : BitVec 16) (s : State) : (moveSeq p i s).codeOut1 = s.codeOut1 := rfl
@[simp] theorem moveSeq_seqPos (p : Phase) (i : BitVec 16) (s : State) : (moveSeq p i s).seqPos = s.seqPos := rfl
@[simp] theorem moveSeq_seq (p : Phase) (i : BitVec 16) (s : State) : (moveSeq p i s).seq = ⟨p, i⟩ := rfl
@[simp] theorem moveSeq_src (p : Phase) (i : BitVec 16) (s : State) : (moveSeq p i s).src = s.src := rfl
@[simp] theorem moveSeq_work (p : Phase) (i : BitVec 16) (s : State) : (moveSeq p i s).work = s.work := rfl
@[simp] theorem moveSeq_ptab (p : Phase) (i : BitVec 16) (s : State) : (moveSeq p i s).ptab = s.ptab := rfl
@[simp] theorem moveSeq_ctab (p : Phase) (i : BitVec 16) (s : State) : (moveSeq p i s).ctab = s.ctab := rfl
@[simp] theorem moveSeq_outcome (p : Phase) (i : BitVec 16) (s : State) : (moveSeq p i s).outcome = s.outcome := rfl
@[simp] theorem moveSeq_params (p : Phase) (i : BitVec 16) (s : State) : (moveSeq p i s).params = s.params := rfl
@[simp] theorem moveSeq_inputs (p : Phase) (i : BitVec 16) (s : State) : (moveSeq p i s).inputs = s.inputs := rfl
@[simp] theorem moveSeq_rdata (p : Phase) (i : BitVec 16) (s : State) : (moveSeq p i s).rdata = s.rdata := rfl
@[simp] theorem moveSeq_draws (p : Phase) (i : BitVec 16) (s : State) : (moveSeq p i s).draws = s.draws := rfl

@[simp] theorem setOutputValid_cmd (b : Bool) (s : State) : (setOutputValid b s).cmd = s.cmd := rfl
@[simp] theorem setOutputValid_status (b : Bool) (s : State) : (setOutputValid b s).status = { s.status with outputValid := b } := rfl
@[simp] theorem setOutputValid_errInfo (b : Bool) (s : State) : (setOutputValid b s).errInfo = s.errInfo := rfl
@[simp] theorem setOutputValid_appliedCnt (b : Bool) (s : State) : (setOutputValid b s).appliedCnt = s.appliedCnt := rfl
@[simp] theorem setOutputValid_failedCnt (b : Bool) (s : State) : (setOutputValid b s).failedCnt = s.failedCnt := rfl
@[simp] theorem setOutputValid_srcLen (b : Bool) (s : State) : (setOutputValid b s).srcLen = s.srcLen := rfl
@[simp] theorem setOutputValid_patchCount (b : Bool) (s : State) : (setOutputValid b s).patchCount = s.patchCount := rfl
@[simp] theorem setOutputValid_codeCount (b : Bool) (s : State) : (setOutputValid b s).codeCount = s.codeCount := rfl
@[simp] theorem setOutputValid_codeIn0 (b : Bool) (s : State) : (setOutputValid b s).codeIn0 = s.codeIn0 := rfl
@[simp] theorem setOutputValid_codeIn1 (b : Bool) (s : State) : (setOutputValid b s).codeIn1 = s.codeIn1 := rfl
@[simp] theorem setOutputValid_decAddr (b : Bool) (s : State) : (setOutputValid b s).decAddr = s.decAddr := rfl
@[simp] theorem setOutputValid_decValue (b : Bool) (s : State) : (setOutputValid b s).decValue = s.decValue := rfl
@[simp] theorem setOutputValid_addrIn (b : Bool) (s : State) : (setOutputValid b s).addrIn = s.addrIn := rfl
@[simp] theorem setOutputValid_offsetOut (b : Bool) (s : State) : (setOutputValid b s).offsetOut = s.offsetOut := rfl
@[simp] theorem setOutputValid_encAddr (b : Bool) (s : State) : (setOutputValid b s).encAddr = s.encAddr := rfl
@[simp] theorem setOutputValid_encValue (b : Bool) (s : State) : (setOutputValid b s).encValue = s.encValue := rfl
@[simp] theorem setOutputValid_codeOut0 (b : Bool) (s : State) : (setOutputValid b s).codeOut0 = s.codeOut0 := rfl
@[simp] theorem setOutputValid_codeOut1 (b : Bool) (s : State) : (setOutputValid b s).codeOut1 = s.codeOut1 := rfl
@[simp] theorem setOutputValid_seqPos (b : Bool) (s : State) : (setOutputValid b s).seqPos = s.seqPos := rfl
@[simp] theorem setOutputValid_seq (b : Bool) (s : State) : (setOutputValid b s).seq = s.seq := rfl
@[simp] theorem setOutputValid_src (b : Bool) (s : State) : (setOutputValid b s).src = s.src := rfl
@[simp] theorem setOutputValid_work (b : Bool) (s : State) : (setOutputValid b s).work = s.work := rfl
@[simp] theorem setOutputValid_ptab (b : Bool) (s : State) : (setOutputValid b s).ptab = s.ptab := rfl
@[simp] theorem setOutputValid_ctab (b : Bool) (s : State) : (setOutputValid b s).ctab = s.ctab := rfl
@[simp] theorem setOutputValid_outcome (b : Bool) (s : State) : (setOutputValid b s).outcome = s.outcome := rfl
@[simp] theorem setOutputValid_params (b : Bool) (s : State) : (setOutputValid b s).params = s.params := rfl
@[simp] theorem setOutputValid_inputs (b : Bool) (s : State) : (setOutputValid b s).inputs = s.inputs := rfl
@[simp] theorem setOutputValid_rdata (b : Bool) (s : State) : (setOutputValid b s).rdata = s.rdata := rfl
@[simp] theorem setOutputValid_draws (b : Bool) (s : State) : (setOutputValid b s).draws = s.draws := rfl

@[simp] theorem markHazard_cmd (s : State) : (markHazard s).cmd = s.cmd := rfl
@[simp] theorem markHazard_status (s : State) : (markHazard s).status = { s.status with hazard := true } := rfl
@[simp] theorem markHazard_errInfo (s : State) : (markHazard s).errInfo = s.errInfo := rfl
@[simp] theorem markHazard_appliedCnt (s : State) : (markHazard s).appliedCnt = s.appliedCnt := rfl
@[simp] theorem markHazard_failedCnt (s : State) : (markHazard s).failedCnt = s.failedCnt := rfl
@[simp] theorem markHazard_srcLen (s : State) : (markHazard s).srcLen = s.srcLen := rfl
@[simp] theorem markHazard_patchCount (s : State) : (markHazard s).patchCount = s.patchCount := rfl
@[simp] theorem markHazard_codeCount (s : State) : (markHazard s).codeCount = s.codeCount := rfl
@[simp] theorem markHazard_codeIn0 (s : State) : (markHazard s).codeIn0 = s.codeIn0 := rfl
@[simp] theorem markHazard_codeIn1 (s : State) : (markHazard s).codeIn1 = s.codeIn1 := rfl
@[simp] theorem markHazard_decAddr (s : State) : (markHazard s).decAddr = s.decAddr := rfl
@[simp] theorem markHazard_decValue (s : State) : (markHazard s).decValue = s.decValue := rfl
@[simp] theorem markHazard_addrIn (s : State) : (markHazard s).addrIn = s.addrIn := rfl
@[simp] theorem markHazard_offsetOut (s : State) : (markHazard s).offsetOut = s.offsetOut := rfl
@[simp] theorem markHazard_encAddr (s : State) : (markHazard s).encAddr = s.encAddr := rfl
@[simp] theorem markHazard_encValue (s : State) : (markHazard s).encValue = s.encValue := rfl
@[simp] theorem markHazard_codeOut0 (s : State) : (markHazard s).codeOut0 = s.codeOut0 := rfl
@[simp] theorem markHazard_codeOut1 (s : State) : (markHazard s).codeOut1 = s.codeOut1 := rfl
@[simp] theorem markHazard_seqPos (s : State) : (markHazard s).seqPos = s.seqPos := rfl
@[simp] theorem markHazard_seq (s : State) : (markHazard s).seq = s.seq := rfl
@[simp] theorem markHazard_src (s : State) : (markHazard s).src = s.src := rfl
@[simp] theorem markHazard_work (s : State) : (markHazard s).work = s.work := rfl
@[simp] theorem markHazard_ptab (s : State) : (markHazard s).ptab = s.ptab := rfl
@[simp] theorem markHazard_ctab (s : State) : (markHazard s).ctab = s.ctab := rfl
@[simp] theorem markHazard_outcome (s : State) : (markHazard s).outcome = s.outcome := rfl
@[simp] theorem markHazard_params (s : State) : (markHazard s).params = s.params := rfl
@[simp] theorem markHazard_inputs (s : State) : (markHazard s).inputs = s.inputs := rfl
@[simp] theorem markHazard_rdata (s : State) : (markHazard s).rdata = s.rdata := rfl
@[simp] theorem markHazard_draws (s : State) : (markHazard s).draws = s.draws := rfl

@[simp] theorem markAccessErr_cmd (s : State) : (markAccessErr s).cmd = s.cmd := rfl
@[simp] theorem markAccessErr_status (s : State) : (markAccessErr s).status = { s.status with accessErr := true } := rfl
@[simp] theorem markAccessErr_errInfo (s : State) : (markAccessErr s).errInfo = s.errInfo := rfl
@[simp] theorem markAccessErr_appliedCnt (s : State) : (markAccessErr s).appliedCnt = s.appliedCnt := rfl
@[simp] theorem markAccessErr_failedCnt (s : State) : (markAccessErr s).failedCnt = s.failedCnt := rfl
@[simp] theorem markAccessErr_srcLen (s : State) : (markAccessErr s).srcLen = s.srcLen := rfl
@[simp] theorem markAccessErr_patchCount (s : State) : (markAccessErr s).patchCount = s.patchCount := rfl
@[simp] theorem markAccessErr_codeCount (s : State) : (markAccessErr s).codeCount = s.codeCount := rfl
@[simp] theorem markAccessErr_codeIn0 (s : State) : (markAccessErr s).codeIn0 = s.codeIn0 := rfl
@[simp] theorem markAccessErr_codeIn1 (s : State) : (markAccessErr s).codeIn1 = s.codeIn1 := rfl
@[simp] theorem markAccessErr_decAddr (s : State) : (markAccessErr s).decAddr = s.decAddr := rfl
@[simp] theorem markAccessErr_decValue (s : State) : (markAccessErr s).decValue = s.decValue := rfl
@[simp] theorem markAccessErr_addrIn (s : State) : (markAccessErr s).addrIn = s.addrIn := rfl
@[simp] theorem markAccessErr_offsetOut (s : State) : (markAccessErr s).offsetOut = s.offsetOut := rfl
@[simp] theorem markAccessErr_encAddr (s : State) : (markAccessErr s).encAddr = s.encAddr := rfl
@[simp] theorem markAccessErr_encValue (s : State) : (markAccessErr s).encValue = s.encValue := rfl
@[simp] theorem markAccessErr_codeOut0 (s : State) : (markAccessErr s).codeOut0 = s.codeOut0 := rfl
@[simp] theorem markAccessErr_codeOut1 (s : State) : (markAccessErr s).codeOut1 = s.codeOut1 := rfl
@[simp] theorem markAccessErr_seqPos (s : State) : (markAccessErr s).seqPos = s.seqPos := rfl
@[simp] theorem markAccessErr_seq (s : State) : (markAccessErr s).seq = s.seq := rfl
@[simp] theorem markAccessErr_src (s : State) : (markAccessErr s).src = s.src := rfl
@[simp] theorem markAccessErr_work (s : State) : (markAccessErr s).work = s.work := rfl
@[simp] theorem markAccessErr_ptab (s : State) : (markAccessErr s).ptab = s.ptab := rfl
@[simp] theorem markAccessErr_ctab (s : State) : (markAccessErr s).ctab = s.ctab := rfl
@[simp] theorem markAccessErr_outcome (s : State) : (markAccessErr s).outcome = s.outcome := rfl
@[simp] theorem markAccessErr_params (s : State) : (markAccessErr s).params = s.params := rfl
@[simp] theorem markAccessErr_inputs (s : State) : (markAccessErr s).inputs = s.inputs := rfl
@[simp] theorem markAccessErr_rdata (s : State) : (markAccessErr s).rdata = s.rdata := rfl
@[simp] theorem markAccessErr_draws (s : State) : (markAccessErr s).draws = s.draws := rfl

@[simp] theorem answer_cmd (v : Word) (s : State) : (answer v s).cmd = s.cmd := rfl
@[simp] theorem answer_status (v : Word) (s : State) : (answer v s).status = s.status := rfl
@[simp] theorem answer_errInfo (v : Word) (s : State) : (answer v s).errInfo = s.errInfo := rfl
@[simp] theorem answer_appliedCnt (v : Word) (s : State) : (answer v s).appliedCnt = s.appliedCnt := rfl
@[simp] theorem answer_failedCnt (v : Word) (s : State) : (answer v s).failedCnt = s.failedCnt := rfl
@[simp] theorem answer_srcLen (v : Word) (s : State) : (answer v s).srcLen = s.srcLen := rfl
@[simp] theorem answer_patchCount (v : Word) (s : State) : (answer v s).patchCount = s.patchCount := rfl
@[simp] theorem answer_codeCount (v : Word) (s : State) : (answer v s).codeCount = s.codeCount := rfl
@[simp] theorem answer_codeIn0 (v : Word) (s : State) : (answer v s).codeIn0 = s.codeIn0 := rfl
@[simp] theorem answer_codeIn1 (v : Word) (s : State) : (answer v s).codeIn1 = s.codeIn1 := rfl
@[simp] theorem answer_decAddr (v : Word) (s : State) : (answer v s).decAddr = s.decAddr := rfl
@[simp] theorem answer_decValue (v : Word) (s : State) : (answer v s).decValue = s.decValue := rfl
@[simp] theorem answer_addrIn (v : Word) (s : State) : (answer v s).addrIn = s.addrIn := rfl
@[simp] theorem answer_offsetOut (v : Word) (s : State) : (answer v s).offsetOut = s.offsetOut := rfl
@[simp] theorem answer_encAddr (v : Word) (s : State) : (answer v s).encAddr = s.encAddr := rfl
@[simp] theorem answer_encValue (v : Word) (s : State) : (answer v s).encValue = s.encValue := rfl
@[simp] theorem answer_codeOut0 (v : Word) (s : State) : (answer v s).codeOut0 = s.codeOut0 := rfl
@[simp] theorem answer_codeOut1 (v : Word) (s : State) : (answer v s).codeOut1 = s.codeOut1 := rfl
@[simp] theorem answer_seqPos (v : Word) (s : State) : (answer v s).seqPos = s.seqPos := rfl
@[simp] theorem answer_seq (v : Word) (s : State) : (answer v s).seq = s.seq := rfl
@[simp] theorem answer_src (v : Word) (s : State) : (answer v s).src = s.src := rfl
@[simp] theorem answer_work (v : Word) (s : State) : (answer v s).work = s.work := rfl
@[simp] theorem answer_ptab (v : Word) (s : State) : (answer v s).ptab = s.ptab := rfl
@[simp] theorem answer_ctab (v : Word) (s : State) : (answer v s).ctab = s.ctab := rfl
@[simp] theorem answer_outcome (v : Word) (s : State) : (answer v s).outcome = s.outcome := rfl
@[simp] theorem answer_params (v : Word) (s : State) : (answer v s).params = s.params := rfl
@[simp] theorem answer_inputs (v : Word) (s : State) : (answer v s).inputs = s.inputs := rfl
@[simp] theorem answer_rdata (v : Word) (s : State) : (answer v s).rdata = v := rfl
@[simp] theorem answer_draws (v : Word) (s : State) : (answer v s).draws = s.draws := rfl

@[simp] theorem clearCounts_cmd (s : State) : (clearCounts s).cmd = s.cmd := rfl
@[simp] theorem clearCounts_status (s : State) : (clearCounts s).status = s.status := rfl
@[simp] theorem clearCounts_errInfo (s : State) : (clearCounts s).errInfo = s.errInfo := rfl
@[simp] theorem clearCounts_appliedCnt (s : State) : (clearCounts s).appliedCnt = 0 := rfl
@[simp] theorem clearCounts_failedCnt (s : State) : (clearCounts s).failedCnt = 0 := rfl
@[simp] theorem clearCounts_srcLen (s : State) : (clearCounts s).srcLen = s.srcLen := rfl
@[simp] theorem clearCounts_patchCount (s : State) : (clearCounts s).patchCount = s.patchCount := rfl
@[simp] theorem clearCounts_codeCount (s : State) : (clearCounts s).codeCount = s.codeCount := rfl
@[simp] theorem clearCounts_codeIn0 (s : State) : (clearCounts s).codeIn0 = s.codeIn0 := rfl
@[simp] theorem clearCounts_codeIn1 (s : State) : (clearCounts s).codeIn1 = s.codeIn1 := rfl
@[simp] theorem clearCounts_decAddr (s : State) : (clearCounts s).decAddr = s.decAddr := rfl
@[simp] theorem clearCounts_decValue (s : State) : (clearCounts s).decValue = s.decValue := rfl
@[simp] theorem clearCounts_addrIn (s : State) : (clearCounts s).addrIn = s.addrIn := rfl
@[simp] theorem clearCounts_offsetOut (s : State) : (clearCounts s).offsetOut = s.offsetOut := rfl
@[simp] theorem clearCounts_encAddr (s : State) : (clearCounts s).encAddr = s.encAddr := rfl
@[simp] theorem clearCounts_encValue (s : State) : (clearCounts s).encValue = s.encValue := rfl
@[simp] theorem clearCounts_codeOut0 (s : State) : (clearCounts s).codeOut0 = s.codeOut0 := rfl
@[simp] theorem clearCounts_codeOut1 (s : State) : (clearCounts s).codeOut1 = s.codeOut1 := rfl
@[simp] theorem clearCounts_seqPos (s : State) : (clearCounts s).seqPos = s.seqPos := rfl
@[simp] theorem clearCounts_seq (s : State) : (clearCounts s).seq = s.seq := rfl
@[simp] theorem clearCounts_src (s : State) : (clearCounts s).src = s.src := rfl
@[simp] theorem clearCounts_work (s : State) : (clearCounts s).work = s.work := rfl
@[simp] theorem clearCounts_ptab (s : State) : (clearCounts s).ptab = s.ptab := rfl
@[simp] theorem clearCounts_ctab (s : State) : (clearCounts s).ctab = s.ctab := rfl
@[simp] theorem clearCounts_outcome (s : State) : (clearCounts s).outcome = [] := rfl
@[simp] theorem clearCounts_params (s : State) : (clearCounts s).params = s.params := rfl
@[simp] theorem clearCounts_inputs (s : State) : (clearCounts s).inputs = s.inputs := rfl
@[simp] theorem clearCounts_rdata (s : State) : (clearCounts s).rdata = s.rdata := rfl
@[simp] theorem clearCounts_draws (s : State) : (clearCounts s).draws = s.draws := rfl

@[simp] theorem copyImage_cmd (s : State) : (copyImage s).cmd = s.cmd := rfl
@[simp] theorem copyImage_status (s : State) : (copyImage s).status = s.status := rfl
@[simp] theorem copyImage_errInfo (s : State) : (copyImage s).errInfo = s.errInfo := rfl
@[simp] theorem copyImage_appliedCnt (s : State) : (copyImage s).appliedCnt = s.appliedCnt := rfl
@[simp] theorem copyImage_failedCnt (s : State) : (copyImage s).failedCnt = s.failedCnt := rfl
@[simp] theorem copyImage_srcLen (s : State) : (copyImage s).srcLen = s.srcLen := rfl
@[simp] theorem copyImage_patchCount (s : State) : (copyImage s).patchCount = s.patchCount := rfl
@[simp] theorem copyImage_codeCount (s : State) : (copyImage s).codeCount = s.codeCount := rfl
@[simp] theorem copyImage_codeIn0 (s : State) : (copyImage s).codeIn0 = s.codeIn0 := rfl
@[simp] theorem copyImage_codeIn1 (s : State) : (copyImage s).codeIn1 = s.codeIn1 := rfl
@[simp] theorem copyImage_decAddr (s : State) : (copyImage s).decAddr = s.decAddr := rfl
@[simp] theorem copyImage_decValue (s : State) : (copyImage s).decValue = s.decValue := rfl
@[simp] theorem copyImage_addrIn (s : State) : (copyImage s).addrIn = s.addrIn := rfl
@[simp] theorem copyImage_offsetOut (s : State) : (copyImage s).offsetOut = s.offsetOut := rfl
@[simp] theorem copyImage_encAddr (s : State) : (copyImage s).encAddr = s.encAddr := rfl
@[simp] theorem copyImage_encValue (s : State) : (copyImage s).encValue = s.encValue := rfl
@[simp] theorem copyImage_codeOut0 (s : State) : (copyImage s).codeOut0 = s.codeOut0 := rfl
@[simp] theorem copyImage_codeOut1 (s : State) : (copyImage s).codeOut1 = s.codeOut1 := rfl
@[simp] theorem copyImage_seqPos (s : State) : (copyImage s).seqPos = s.seqPos := rfl
@[simp] theorem copyImage_seq (s : State) : (copyImage s).seq = s.seq := rfl
@[simp] theorem copyImage_src (s : State) : (copyImage s).src = s.src := rfl
@[simp] theorem copyImage_work (s : State) : (copyImage s).work = s.src.filter (fun c => decide (c.1 < s.params.imageLen)) := rfl
@[simp] theorem copyImage_ptab (s : State) : (copyImage s).ptab = s.ptab := rfl
@[simp] theorem copyImage_ctab (s : State) : (copyImage s).ctab = s.ctab := rfl
@[simp] theorem copyImage_outcome (s : State) : (copyImage s).outcome = s.outcome := rfl
@[simp] theorem copyImage_params (s : State) : (copyImage s).params = s.params := rfl
@[simp] theorem copyImage_inputs (s : State) : (copyImage s).inputs = s.inputs := rfl
@[simp] theorem copyImage_rdata (s : State) : (copyImage s).rdata = s.rdata := rfl
@[simp] theorem copyImage_draws (s : State) : (copyImage s).draws = s.draws := rfl

@[simp] theorem latchSeq_cmd (s : State) : (latchSeq s).cmd = s.cmd := rfl
@[simp] theorem latchSeq_status (s : State) : (latchSeq s).status = s.status := rfl
@[simp] theorem latchSeq_errInfo (s : State) : (latchSeq s).errInfo = s.errInfo := rfl
@[simp] theorem latchSeq_appliedCnt (s : State) : (latchSeq s).appliedCnt = s.appliedCnt := rfl
@[simp] theorem latchSeq_failedCnt (s : State) : (latchSeq s).failedCnt = s.failedCnt := rfl
@[simp] theorem latchSeq_srcLen (s : State) : (latchSeq s).srcLen = s.srcLen := rfl
@[simp] theorem latchSeq_patchCount (s : State) : (latchSeq s).patchCount = s.patchCount := rfl
@[simp] theorem latchSeq_codeCount (s : State) : (latchSeq s).codeCount = s.codeCount := rfl
@[simp] theorem latchSeq_codeIn0 (s : State) : (latchSeq s).codeIn0 = s.codeIn0 := rfl
@[simp] theorem latchSeq_codeIn1 (s : State) : (latchSeq s).codeIn1 = s.codeIn1 := rfl
@[simp] theorem latchSeq_decAddr (s : State) : (latchSeq s).decAddr = s.decAddr := rfl
@[simp] theorem latchSeq_decValue (s : State) : (latchSeq s).decValue = s.decValue := rfl
@[simp] theorem latchSeq_addrIn (s : State) : (latchSeq s).addrIn = s.addrIn := rfl
@[simp] theorem latchSeq_offsetOut (s : State) : (latchSeq s).offsetOut = s.offsetOut := rfl
@[simp] theorem latchSeq_encAddr (s : State) : (latchSeq s).encAddr = s.encAddr := rfl
@[simp] theorem latchSeq_encValue (s : State) : (latchSeq s).encValue = s.encValue := rfl
@[simp] theorem latchSeq_codeOut0 (s : State) : (latchSeq s).codeOut0 = s.codeOut0 := rfl
@[simp] theorem latchSeq_codeOut1 (s : State) : (latchSeq s).codeOut1 = s.codeOut1 := rfl
@[simp] theorem latchSeq_seqPos (s : State) : (latchSeq s).seqPos = s.seq := rfl
@[simp] theorem latchSeq_seq (s : State) : (latchSeq s).seq = s.seq := rfl
@[simp] theorem latchSeq_src (s : State) : (latchSeq s).src = s.src := rfl
@[simp] theorem latchSeq_work (s : State) : (latchSeq s).work = s.work := rfl
@[simp] theorem latchSeq_ptab (s : State) : (latchSeq s).ptab = s.ptab := rfl
@[simp] theorem latchSeq_ctab (s : State) : (latchSeq s).ctab = s.ctab := rfl
@[simp] theorem latchSeq_outcome (s : State) : (latchSeq s).outcome = s.outcome := rfl
@[simp] theorem latchSeq_params (s : State) : (latchSeq s).params = s.params := rfl
@[simp] theorem latchSeq_inputs (s : State) : (latchSeq s).inputs = s.inputs := rfl
@[simp] theorem latchSeq_rdata (s : State) : (latchSeq s).rdata = s.rdata := rfl
@[simp] theorem latchSeq_draws (s : State) : (latchSeq s).draws = s.draws := rfl

@[simp] theorem setMem_cmd (s : State) (b : Buf) (m : Memory) : (setMem s b m).cmd = s.cmd := by cases b <;> rfl
@[simp] theorem writeByte_cmd (b : Buf) (k : Nat) (v : Byte) (s : State) : (writeByte b k v s).cmd = s.cmd := setMem_cmd s b _
@[simp] theorem writeBytes_cmd (b : Buf) (k : Nat) (bs : List Byte) (s : State) : (writeBytes b k bs s).cmd = s.cmd := setMem_cmd s b _
@[simp] theorem setMem_status (s : State) (b : Buf) (m : Memory) : (setMem s b m).status = s.status := by cases b <;> rfl
@[simp] theorem writeByte_status (b : Buf) (k : Nat) (v : Byte) (s : State) : (writeByte b k v s).status = s.status := setMem_status s b _
@[simp] theorem writeBytes_status (b : Buf) (k : Nat) (bs : List Byte) (s : State) : (writeBytes b k bs s).status = s.status := setMem_status s b _
@[simp] theorem setMem_errInfo (s : State) (b : Buf) (m : Memory) : (setMem s b m).errInfo = s.errInfo := by cases b <;> rfl
@[simp] theorem writeByte_errInfo (b : Buf) (k : Nat) (v : Byte) (s : State) : (writeByte b k v s).errInfo = s.errInfo := setMem_errInfo s b _
@[simp] theorem writeBytes_errInfo (b : Buf) (k : Nat) (bs : List Byte) (s : State) : (writeBytes b k bs s).errInfo = s.errInfo := setMem_errInfo s b _
@[simp] theorem setMem_appliedCnt (s : State) (b : Buf) (m : Memory) : (setMem s b m).appliedCnt = s.appliedCnt := by cases b <;> rfl
@[simp] theorem writeByte_appliedCnt (b : Buf) (k : Nat) (v : Byte) (s : State) : (writeByte b k v s).appliedCnt = s.appliedCnt := setMem_appliedCnt s b _
@[simp] theorem writeBytes_appliedCnt (b : Buf) (k : Nat) (bs : List Byte) (s : State) : (writeBytes b k bs s).appliedCnt = s.appliedCnt := setMem_appliedCnt s b _
@[simp] theorem setMem_failedCnt (s : State) (b : Buf) (m : Memory) : (setMem s b m).failedCnt = s.failedCnt := by cases b <;> rfl
@[simp] theorem writeByte_failedCnt (b : Buf) (k : Nat) (v : Byte) (s : State) : (writeByte b k v s).failedCnt = s.failedCnt := setMem_failedCnt s b _
@[simp] theorem writeBytes_failedCnt (b : Buf) (k : Nat) (bs : List Byte) (s : State) : (writeBytes b k bs s).failedCnt = s.failedCnt := setMem_failedCnt s b _
@[simp] theorem setMem_srcLen (s : State) (b : Buf) (m : Memory) : (setMem s b m).srcLen = s.srcLen := by cases b <;> rfl
@[simp] theorem writeByte_srcLen (b : Buf) (k : Nat) (v : Byte) (s : State) : (writeByte b k v s).srcLen = s.srcLen := setMem_srcLen s b _
@[simp] theorem writeBytes_srcLen (b : Buf) (k : Nat) (bs : List Byte) (s : State) : (writeBytes b k bs s).srcLen = s.srcLen := setMem_srcLen s b _
@[simp] theorem setMem_patchCount (s : State) (b : Buf) (m : Memory) : (setMem s b m).patchCount = s.patchCount := by cases b <;> rfl
@[simp] theorem writeByte_patchCount (b : Buf) (k : Nat) (v : Byte) (s : State) : (writeByte b k v s).patchCount = s.patchCount := setMem_patchCount s b _
@[simp] theorem writeBytes_patchCount (b : Buf) (k : Nat) (bs : List Byte) (s : State) : (writeBytes b k bs s).patchCount = s.patchCount := setMem_patchCount s b _
@[simp] theorem setMem_codeCount (s : State) (b : Buf) (m : Memory) : (setMem s b m).codeCount = s.codeCount := by cases b <;> rfl
@[simp] theorem writeByte_codeCount (b : Buf) (k : Nat) (v : Byte) (s : State) : (writeByte b k v s).codeCount = s.codeCount := setMem_codeCount s b _
@[simp] theorem writeBytes_codeCount (b : Buf) (k : Nat) (bs : List Byte) (s : State) : (writeBytes b k bs s).codeCount = s.codeCount := setMem_codeCount s b _
@[simp] theorem setMem_codeIn0 (s : State) (b : Buf) (m : Memory) : (setMem s b m).codeIn0 = s.codeIn0 := by cases b <;> rfl
@[simp] theorem writeByte_codeIn0 (b : Buf) (k : Nat) (v : Byte) (s : State) : (writeByte b k v s).codeIn0 = s.codeIn0 := setMem_codeIn0 s b _
@[simp] theorem writeBytes_codeIn0 (b : Buf) (k : Nat) (bs : List Byte) (s : State) : (writeBytes b k bs s).codeIn0 = s.codeIn0 := setMem_codeIn0 s b _
@[simp] theorem setMem_codeIn1 (s : State) (b : Buf) (m : Memory) : (setMem s b m).codeIn1 = s.codeIn1 := by cases b <;> rfl
@[simp] theorem writeByte_codeIn1 (b : Buf) (k : Nat) (v : Byte) (s : State) : (writeByte b k v s).codeIn1 = s.codeIn1 := setMem_codeIn1 s b _
@[simp] theorem writeBytes_codeIn1 (b : Buf) (k : Nat) (bs : List Byte) (s : State) : (writeBytes b k bs s).codeIn1 = s.codeIn1 := setMem_codeIn1 s b _
@[simp] theorem setMem_decAddr (s : State) (b : Buf) (m : Memory) : (setMem s b m).decAddr = s.decAddr := by cases b <;> rfl
@[simp] theorem writeByte_decAddr (b : Buf) (k : Nat) (v : Byte) (s : State) : (writeByte b k v s).decAddr = s.decAddr := setMem_decAddr s b _
@[simp] theorem writeBytes_decAddr (b : Buf) (k : Nat) (bs : List Byte) (s : State) : (writeBytes b k bs s).decAddr = s.decAddr := setMem_decAddr s b _
@[simp] theorem setMem_decValue (s : State) (b : Buf) (m : Memory) : (setMem s b m).decValue = s.decValue := by cases b <;> rfl
@[simp] theorem writeByte_decValue (b : Buf) (k : Nat) (v : Byte) (s : State) : (writeByte b k v s).decValue = s.decValue := setMem_decValue s b _
@[simp] theorem writeBytes_decValue (b : Buf) (k : Nat) (bs : List Byte) (s : State) : (writeBytes b k bs s).decValue = s.decValue := setMem_decValue s b _
@[simp] theorem setMem_addrIn (s : State) (b : Buf) (m : Memory) : (setMem s b m).addrIn = s.addrIn := by cases b <;> rfl
@[simp] theorem writeByte_addrIn (b : Buf) (k : Nat) (v : Byte) (s : State) : (writeByte b k v s).addrIn = s.addrIn := setMem_addrIn s b _
@[simp] theorem writeBytes_addrIn (b : Buf) (k : Nat) (bs : List Byte) (s : State) : (writeBytes b k bs s).addrIn = s.addrIn := setMem_addrIn s b _
@[simp] theorem setMem_offsetOut (s : State) (b : Buf) (m : Memory) : (setMem s b m).offsetOut = s.offsetOut := by cases b <;> rfl
@[simp] theorem writeByte_offsetOut (b : Buf) (k : Nat) (v : Byte) (s : State) : (writeByte b k v s).offsetOut = s.offsetOut := setMem_offsetOut s b _
@[simp] theorem writeBytes_offsetOut (b : Buf) (k : Nat) (bs : List Byte) (s : State) : (writeBytes b k bs s).offsetOut = s.offsetOut := setMem_offsetOut s b _
@[simp] theorem setMem_encAddr (s : State) (b : Buf) (m : Memory) : (setMem s b m).encAddr = s.encAddr := by cases b <;> rfl
@[simp] theorem writeByte_encAddr (b : Buf) (k : Nat) (v : Byte) (s : State) : (writeByte b k v s).encAddr = s.encAddr := setMem_encAddr s b _
@[simp] theorem writeBytes_encAddr (b : Buf) (k : Nat) (bs : List Byte) (s : State) : (writeBytes b k bs s).encAddr = s.encAddr := setMem_encAddr s b _
@[simp] theorem setMem_encValue (s : State) (b : Buf) (m : Memory) : (setMem s b m).encValue = s.encValue := by cases b <;> rfl
@[simp] theorem writeByte_encValue (b : Buf) (k : Nat) (v : Byte) (s : State) : (writeByte b k v s).encValue = s.encValue := setMem_encValue s b _
@[simp] theorem writeBytes_encValue (b : Buf) (k : Nat) (bs : List Byte) (s : State) : (writeBytes b k bs s).encValue = s.encValue := setMem_encValue s b _
@[simp] theorem setMem_codeOut0 (s : State) (b : Buf) (m : Memory) : (setMem s b m).codeOut0 = s.codeOut0 := by cases b <;> rfl
@[simp] theorem writeByte_codeOut0 (b : Buf) (k : Nat) (v : Byte) (s : State) : (writeByte b k v s).codeOut0 = s.codeOut0 := setMem_codeOut0 s b _
@[simp] theorem writeBytes_codeOut0 (b : Buf) (k : Nat) (bs : List Byte) (s : State) : (writeBytes b k bs s).codeOut0 = s.codeOut0 := setMem_codeOut0 s b _
@[simp] theorem setMem_codeOut1 (s : State) (b : Buf) (m : Memory) : (setMem s b m).codeOut1 = s.codeOut1 := by cases b <;> rfl
@[simp] theorem writeByte_codeOut1 (b : Buf) (k : Nat) (v : Byte) (s : State) : (writeByte b k v s).codeOut1 = s.codeOut1 := setMem_codeOut1 s b _
@[simp] theorem writeBytes_codeOut1 (b : Buf) (k : Nat) (bs : List Byte) (s : State) : (writeBytes b k bs s).codeOut1 = s.codeOut1 := setMem_codeOut1 s b _
@[simp] theorem setMem_seqPos (s : State) (b : Buf) (m : Memory) : (setMem s b m).seqPos = s.seqPos := by cases b <;> rfl
@[simp] theorem writeByte_seqPos (b : Buf) (k : Nat) (v : Byte) (s : State) : (writeByte b k v s).seqPos = s.seqPos := setMem_seqPos s b _
@[simp] theorem writeBytes_seqPos (b : Buf) (k : Nat) (bs : List Byte) (s : State) : (writeBytes b k bs s).seqPos = s.seqPos := setMem_seqPos s b _
@[simp] theorem setMem_seq (s : State) (b : Buf) (m : Memory) : (setMem s b m).seq = s.seq := by cases b <;> rfl
@[simp] theorem writeByte_seq (b : Buf) (k : Nat) (v : Byte) (s : State) : (writeByte b k v s).seq = s.seq := setMem_seq s b _
@[simp] theorem writeBytes_seq (b : Buf) (k : Nat) (bs : List Byte) (s : State) : (writeBytes b k bs s).seq = s.seq := setMem_seq s b _
@[simp] theorem setMem_params (s : State) (b : Buf) (m : Memory) : (setMem s b m).params = s.params := by cases b <;> rfl
@[simp] theorem writeByte_params (b : Buf) (k : Nat) (v : Byte) (s : State) : (writeByte b k v s).params = s.params := setMem_params s b _
@[simp] theorem writeBytes_params (b : Buf) (k : Nat) (bs : List Byte) (s : State) : (writeBytes b k bs s).params = s.params := setMem_params s b _
@[simp] theorem setMem_inputs (s : State) (b : Buf) (m : Memory) : (setMem s b m).inputs = s.inputs := by cases b <;> rfl
@[simp] theorem writeByte_inputs (b : Buf) (k : Nat) (v : Byte) (s : State) : (writeByte b k v s).inputs = s.inputs := setMem_inputs s b _
@[simp] theorem writeBytes_inputs (b : Buf) (k : Nat) (bs : List Byte) (s : State) : (writeBytes b k bs s).inputs = s.inputs := setMem_inputs s b _
@[simp] theorem setMem_rdata (s : State) (b : Buf) (m : Memory) : (setMem s b m).rdata = s.rdata := by cases b <;> rfl
@[simp] theorem writeByte_rdata (b : Buf) (k : Nat) (v : Byte) (s : State) : (writeByte b k v s).rdata = s.rdata := setMem_rdata s b _
@[simp] theorem writeBytes_rdata (b : Buf) (k : Nat) (bs : List Byte) (s : State) : (writeBytes b k bs s).rdata = s.rdata := setMem_rdata s b _
@[simp] theorem setMem_draws (s : State) (b : Buf) (m : Memory) : (setMem s b m).draws = s.draws := by cases b <;> rfl
@[simp] theorem writeByte_draws (b : Buf) (k : Nat) (v : Byte) (s : State) : (writeByte b k v s).draws = s.draws := setMem_draws s b _
@[simp] theorem writeBytes_draws (b : Buf) (k : Nat) (bs : List Byte) (s : State) : (writeBytes b k bs s).draws = s.draws := setMem_draws s b _

/-- Replacing a memory replaces it and no other. -/
@[simp] theorem getMem_setMem (s : State) (b b' : Buf) (m : Memory) :
    getMem (setMem s b m) b' = if b' = b then m else getMem s b' := by
  cases b <;> cases b' <;> rfl

@[simp] theorem setMem_getMem (s : State) (b : Buf) : setMem s b (getMem s b) = s := by cases b <;> rfl

@[simp] theorem getMem_complete (m : Bool) (s : State) (b : Buf) : getMem (complete m s) b = getMem s b := by cases b <;> rfl
@[simp] theorem byteAt_complete (m : Bool) (s : State) (b : Buf) (k : Nat) : byteAt (complete m s) b k = byteAt s b k := by simp [byteAt]
@[simp] theorem getMem_completeRaised (e : CmdError) (s : State) (b : Buf) : getMem (completeRaised e s) b = getMem s b := by cases b <;> rfl
@[simp] theorem byteAt_completeRaised (e : CmdError) (s : State) (b : Buf) (k : Nat) : byteAt (completeRaised e s) b k = byteAt s b k := by simp [byteAt]
@[simp] theorem getMem_accept (w : Word) (s : State) (b : Buf) : getMem (accept w s) b = getMem s b := by cases b <;> rfl
@[simp] theorem byteAt_accept (w : Word) (s : State) (b : Buf) (k : Nat) : byteAt (accept w s) b k = byteAt s b k := by simp [byteAt]
@[simp] theorem getMem_moveSeq (p : Phase) (i : BitVec 16) (s : State) (b : Buf) : getMem (moveSeq p i s) b = getMem s b := by cases b <;> rfl
@[simp] theorem byteAt_moveSeq (p : Phase) (i : BitVec 16) (s : State) (b : Buf) (k : Nat) : byteAt (moveSeq p i s) b k = byteAt s b k := by simp [byteAt]
@[simp] theorem getMem_setOutputValid (v : Bool) (s : State) (b : Buf) : getMem (setOutputValid v s) b = getMem s b := by cases b <;> rfl
@[simp] theorem byteAt_setOutputValid (v : Bool) (s : State) (b : Buf) (k : Nat) : byteAt (setOutputValid v s) b k = byteAt s b k := by simp [byteAt]
@[simp] theorem getMem_markHazard (s : State) (b : Buf) : getMem (markHazard s) b = getMem s b := by cases b <;> rfl
@[simp] theorem byteAt_markHazard (s : State) (b : Buf) (k : Nat) : byteAt (markHazard s) b k = byteAt s b k := by simp [byteAt]
@[simp] theorem getMem_markAccessErr (s : State) (b : Buf) : getMem (markAccessErr s) b = getMem s b := by cases b <;> rfl
@[simp] theorem byteAt_markAccessErr (s : State) (b : Buf) (k : Nat) : byteAt (markAccessErr s) b k = byteAt s b k := by simp [byteAt]
@[simp] theorem getMem_answer (w : Word) (s : State) (b : Buf) : getMem (answer w s) b = getMem s b := by cases b <;> rfl
@[simp] theorem byteAt_answer (w : Word) (s : State) (b : Buf) (k : Nat) : byteAt (answer w s) b k = byteAt s b k := by simp [byteAt]
@[simp] theorem getMem_latchSeq (s : State) (b : Buf) : getMem (latchSeq s) b = getMem s b := by cases b <;> rfl
@[simp] theorem byteAt_latchSeq (s : State) (b : Buf) (k : Nat) : byteAt (latchSeq s) b k = byteAt s b k := by simp [byteAt]

end Sys2Proof.Machine
end

