-- ==== Sys2Proof/Laws/Memory.lean ====
section
/-! SUPPORT. The laws of byte memories: a read after a write, what a write leaves alone, the canonical form kept. -/

namespace Sys2Proof.Machine

variable {d : Option Byte} {size lo k k' : Nat} {v : Byte} {m : Memory}

@[simp] theorem memWfFrom_nil : memWfFrom d size lo [] = true := rfl

theorem memWfFrom_cons {a : Nat} {b : Byte} {t : Memory} :
    memWfFrom d size lo ((a, b) :: t) = true ↔
      lo ≤ a ∧ a < size ∧ d ≠ some b ∧ memWfFrom d size (a + 1) t = true := by
  simp [memWfFrom, and_assoc]

theorem memWfFrom_mono {lo' : Nat} (h : lo ≤ lo') (hm : memWfFrom d size lo' m = true) :
    memWfFrom d size lo m = true := by
  cases m with
  | nil => rfl
  | cons c t =>
    obtain ⟨a, b⟩ := c
    rw [memWfFrom_cons] at hm ⊢
    exact ⟨by omega, hm.2⟩

/-- A canonical memory holds nothing below the bound its offsets start at. -/
theorem memRead_below (hm : memWfFrom d size lo m = true) (h : k < lo) : memRead d m k = d := by
  induction m generalizing lo with
  | nil => rfl
  | cons c t ih =>
    obtain ⟨a, b⟩ := c
    rw [memWfFrom_cons] at hm
    have : k ≠ a := by omega
    simp only [memRead, this, if_false]
    exact ih hm.2.2.2 (by omega)

/-- A canonical memory holds nothing at or above its size. -/
theorem memRead_above (hm : memWfFrom d size lo m = true) (h : size ≤ k) : memRead d m k = d := by
  induction m generalizing lo with
  | nil => rfl
  | cons c t ih =>
    obtain ⟨a, b⟩ := c
    rw [memWfFrom_cons] at hm
    have : k ≠ a := by omega
    simp only [memRead, this, if_false]
    exact ih hm.2.2.2

theorem memRead_memCell_append {t : Memory} (ht : memRead d t k = d) :
    memRead d (memCell d k v ++ t) k = some v := by
  unfold memCell
  split
  · rename_i h; simpa [ht] using h
  · simp [memRead]

theorem memRead_memCell_append_ne {t : Memory} (h : k' ≠ k) :
    memRead d (memCell d k v ++ t) k' = memRead d t k' := by
  unfold memCell
  split <;> simp [memRead, h]

/-- A read after a write to the same offset gives the byte written. -/
theorem memRead_memWrite_same (hm : memWfFrom d size lo m = true) :
    memRead d (memWrite d m k v) k = some v := by
  induction m generalizing lo with
  | nil => simpa [memWrite] using memRead_memCell_append (t := []) (d := d) (k := k) (v := v) rfl
  | cons c t ih =>
    obtain ⟨a, b⟩ := c
    have hm' := memWfFrom_cons.1 hm
    unfold memWrite
    split
    · rename_i h
      exact memRead_memCell_append (memRead_below (lo := a) (memWfFrom_cons.2 ⟨Nat.le_refl a, hm'.2⟩) h)
    · split
      · rename_i h
        exact memRead_memCell_append (memRead_below hm'.2.2.2 (by omega))
      · rename_i h1 h2
        simp only [memRead, h2, if_false]
        exact ih hm'.2.2.2

/-- Where an unlisted cell is unwritten, a read after a write gives the byte written, whatever the list's form. -/
theorem memRead_memWrite_same_none : memRead none (memWrite none m k v) k = some v := by
  induction m with
  | nil => simp [memWrite, memCell, memRead]
  | cons c t ih =>
    obtain ⟨a, b⟩ := c
    unfold memWrite
    split
    · simp [memCell, memRead]
    · split
      · simp [memCell, memRead]
      · rename_i h1 h2
        simpa only [memRead, h2, if_false] using ih

/-- A write leaves every other offset alone. -/
theorem memRead_memWrite_ne (h : k' ≠ k) : memRead d (memWrite d m k v) k' = memRead d m k' := by
  induction m with
  | nil => simpa [memWrite] using memRead_memCell_append_ne (t := []) (d := d) (v := v) h
  | cons c t ih =>
    obtain ⟨a, b⟩ := c
    unfold memWrite
    split
    · exact memRead_memCell_append_ne h
    · split
      · rename_i h1 h2
        have : k' ≠ a := by omega
        simp only [memRead, this, if_false]
        exact memRead_memCell_append_ne h
      · simp only [memRead, ih]

/-- A write keeps the canonical form. -/
theorem memWfFrom_memWrite (hm : memWfFrom d size lo m = true) (hlo : lo ≤ k) (hk : k < size) :
    memWfFrom d size lo (memWrite d m k v) = true := by
  have cell : ∀ {t : Memory}, memWfFrom d size (k + 1) t = true →
      memWfFrom d size lo (memCell d k v ++ t) = true := by
    intro t ht
    unfold memCell
    split
    · exact memWfFrom_mono (by omega) ht
    · rename_i h
      exact memWfFrom_cons.2 ⟨hlo, hk, h, ht⟩
  induction m generalizing lo with
  | nil => simpa [memWrite] using cell (t := []) rfl
  | cons c t ih =>
    obtain ⟨a, b⟩ := c
    have hm' := memWfFrom_cons.1 hm
    unfold memWrite
    split
    · rename_i h
      exact cell (memWfFrom_cons.2 ⟨by omega, hm'.2⟩)
    · split
      · rename_i h
        subst h
        exact cell hm'.2.2.2
      · rename_i h1 h2
        refine memWfFrom_cons.2 ⟨hm'.1, hm'.2.1, hm'.2.2.1, ih hm'.2.2.2 (by omega) ?_⟩
        intro t' ht'
        unfold memCell
        split
        · exact memWfFrom_mono (by omega) ht'
        · rename_i h
          exact memWfFrom_cons.2 ⟨by omega, hk, h, ht'⟩

theorem memWf_memWrite (hm : memWf d size m = true) (hk : k < size) : memWf d size (memWrite d m k v) = true :=
  memWfFrom_memWrite hm (Nat.zero_le k) hk

/-- Writing a byte sequence keeps the canonical form. -/
theorem memWf_memWriteList {bs : List Byte} (hm : memWf d size m = true) (hk : k + bs.length ≤ size) :
    memWf d size (memWriteList d m k bs) = true := by
  induction bs generalizing m k with
  | nil => exact hm
  | cons b t ih =>
    simp only [List.length_cons] at hk
    exact ih (memWf_memWrite hm (by omega)) (by omega)

/-- Writing a byte sequence leaves every offset outside it alone. -/
theorem memRead_memWriteList_outside {bs : List Byte} (h : k' < k ∨ k + bs.length ≤ k') :
    memRead d (memWriteList d m k bs) k' = memRead d m k' := by
  induction bs generalizing m k with
  | nil => rfl
  | cons b t ih =>
    simp only [List.length_cons] at h
    simp only [memWriteList]
    rw [ih (by omega), memRead_memWrite_ne (by omega)]

/-- Where an unlisted cell is unwritten, a read inside a written sequence gives its byte. -/
theorem memRead_memWriteList_inside {bs : List Byte} {j : Nat} (h : j < bs.length) :
    memRead none (memWriteList none m k bs) (k + j) = bs[j]? := by
  induction bs generalizing m k j with
  | nil => simp at h
  | cons b t ih =>
    simp only [memWriteList]
    cases j with
    | zero => rw [memRead_memWriteList_outside (by omega)]; simpa using memRead_memWrite_same_none
    | succ j =>
      simp only [List.length_cons] at h
      have := ih (m := memWrite none m k b) (k := k + 1) (j := j) (by omega)
      rw [show k + (j + 1) = k + 1 + j by omega, this]
      simp

/-- Keeping the cells below a bound keeps the canonical form. -/
theorem memWfFrom_filter {n size' : Nat} (hm : memWfFrom d size lo m = true) (hn : n ≤ size') :
    memWfFrom d size' lo (m.filter (fun c => decide (c.1 < n))) = true := by
  induction m generalizing lo with
  | nil => rfl
  | cons c t ih =>
    obtain ⟨a, b⟩ := c
    rw [memWfFrom_cons] at hm
    simp only [List.filter_cons]
    split
    · rename_i h
      have h : a < n := by simpa using h
      exact memWfFrom_cons.2 ⟨hm.1, by omega, hm.2.2.1, ih hm.2.2.2⟩
    · exact memWfFrom_mono (by omega) (ih hm.2.2.2)

/-- The cells below the bound are kept. -/
theorem memRead_filter {n : Nat} (h : k < n) :
    memRead d (m.filter (fun c => decide (c.1 < n))) k = memRead d m k := by
  induction m with
  | nil => rfl
  | cons c t ih =>
    obtain ⟨a, b⟩ := c
    simp only [List.filter_cons]
    split
    · simp only [memRead, ih]
    · rename_i h'
      have : k ≠ a := by have : ¬ a < n := by simpa using h'
                         omega
      simp only [memRead, this, if_false, ih]

/-- Reading `b` after one byte of `b'` was written. -/
theorem byteAt_writeByte_ne {s : State} {b b' : Buf} (h : b ≠ b' ∨ k' ≠ k) :
    byteAt (writeByte b' k v s) b k' = byteAt s b k' := by
  unfold byteAt writeByte
  rw [getMem_setMem]
  split
  · rename_i hb
    subst hb
    exact memRead_memWrite_ne (by simpa using h)
  · rfl

/-- Reading back a byte written to WORK (or any memory whose unlisted cells are unwritten). -/
theorem byteAt_writeByte_same {s : State} {b : Buf} (h : unlisted b = none) :
    byteAt (writeByte b k v s) b k = some v := by
  unfold byteAt writeByte
  rw [getMem_setMem, if_pos rfl, h]
  exact memRead_memWrite_same_none

/-- Reading back an OUTCOME byte. -/
theorem byteAt_writeByte_same_wf {s : State} {b : Buf} (h : memWf (unlisted b) size (getMem s b) = true) :
    byteAt (writeByte b k v s) b k = some v := by
  unfold byteAt writeByte
  rw [getMem_setMem, if_pos rfl]
  exact memRead_memWrite_same h

/-- Reading outside a written sequence, or another memory. -/
theorem byteAt_writeBytes_outside {s : State} {b b' : Buf} {bs : List Byte}
    (h : b ≠ b' ∨ k' < k ∨ k + bs.length ≤ k') :
    byteAt (writeBytes b' k bs s) b k' = byteAt s b k' := by
  unfold byteAt writeBytes
  rw [getMem_setMem]
  split
  · rename_i hb
    subst hb
    exact memRead_memWriteList_outside (by simpa using h)
  · rfl

/-- Reading inside a written sequence. -/
theorem byteAt_writeBytes_inside {s : State} {b : Buf} {bs : List Byte} {j : Nat} (hb : unlisted b = none)
    (h : j < bs.length) : byteAt (writeBytes b k bs s) b (k + j) = bs[j]? := by
  unfold byteAt writeBytes
  rw [getMem_setMem, if_pos rfl, hb]
  exact memRead_memWriteList_inside h

/-- A written value other than an unlisted cell's is read back, canonical form or not. -/
theorem memRead_memWrite_of_ne {d : Option Byte} {v : Byte} (hd : d ≠ some v) (m : Memory) (k : Nat) :
    memRead d (memWrite d m k v) k = some v := by
  induction m with
  | nil => simp [memWrite, memCell, memRead, hd]
  | cons c t ih =>
    obtain ⟨a, b⟩ := c
    unfold memWrite
    split
    · simp [memCell, memRead, hd]
    · split
      · simp [memCell, memRead, hd]
      · rename_i h1 h2
        simpa only [memRead, h2, if_false] using ih

/-- An OUTCOME byte other than NOT_ATTEMPTED is read back (10_state.md R41). -/
theorem byteAt_writeByte_outcome {s : State} {i : Nat} {v : Byte} (h : v ≠ 0) :
    byteAt (writeByte .outcome i v s) .outcome i = some v :=
  memRead_memWrite_of_ne (fun e => h (Option.some.inj e).symm) _ _

end Sys2Proof.Machine
end

