-- ==== Sys2Proof/Laws/Ops.lean ====
section
/-! SUPPORT. What the shared operations can do: reads of cells, little-endian numbers, checks that raise or stop, loops. -/

namespace Sys2Proof.Machine

@[simp] theorem getMem_src (s : State) : getMem s .src = s.src := rfl
@[simp] theorem getMem_work (s : State) : getMem s .work = s.work := rfl
@[simp] theorem getMem_ptab (s : State) : getMem s .ptab = s.ptab := rfl
@[simp] theorem getMem_ctab (s : State) : getMem s .ctab = s.ctab := rfl
@[simp] theorem getMem_outcome (s : State) : getMem s .outcome = s.outcome := rfl

theorem readCell_eq_ok {s : State} {b : Buf} {k : Nat} {v : Byte} :
    readCell s b k = .ok v ↔ byteAt s b k = some v := by
  unfold readCell
  cases byteAt s b k <;> simp

/-- A read of cells that hold `bs` gives `bs`. -/
theorem readCells_of_cellsAt {s : State} {b : Buf} {k : Nat} {bs : List Byte} (h : CellsAt s b k bs) :
    readCells s b k bs.length = .ok bs := by
  induction bs generalizing k with
  | nil => rfl
  | cons x t ih =>
    have h0 : byteAt s b k = some x := by simpa using h 0 (by simp)
    have ht : CellsAt s b (k + 1) t := fun j hj => by
      have := h (j + 1) (by simpa using hj)
      simpa [show k + (j + 1) = k + 1 + j by omega] using this
    simp [readCells, readCell_eq_ok.2 h0, ih ht]

/-- A read of written cells ends well. -/
theorem readCells_of_written {s : State} {b : Buf} {k n : Nat}
    (h : ∀ j, k ≤ j → j < k + n → ∃ v, byteAt s b j = some v) : ∃ bs, readCells s b k n = .ok bs := by
  induction n generalizing k with
  | zero => exact ⟨[], rfl⟩
  | succ n ih =>
    obtain ⟨v, hv⟩ := h k (Nat.le_refl k) (by omega)
    obtain ⟨t, ht⟩ := ih (k := k + 1) fun j h1 h2 => h j (by omega) (by omega)
    exact ⟨v :: t, by simp [readCells, readCell_eq_ok.2 hv, ht]⟩

@[simp] theorem length_leBytes (n v : Nat) : (leBytes n v).length = n := by
  induction n generalizing v with
  | zero => rfl
  | succ n ih => simp [leBytes, ih]

theorem getElem?_leBytes {n j : Nat} (v : Nat) (h : j < n) :
    (leBytes n v)[j]? = some (BitVec.ofNat 8 (v / 0x100 ^ j)) := by
  induction n generalizing v j with
  | zero => omega
  | succ n ih =>
    cases j with
    | zero => simp [leBytes]
    | succ j =>
      simp only [leBytes, List.getElem?_cons_succ]
      rw [ih (v / 0x100) (by omega), Nat.div_div_eq_div_mul, Nat.pow_succ, Nat.mul_comm 0x100]

/-- The little-endian bytes of a number that fits hold that number. -/
theorem leValue_leBytes {n v : Nat} (h : v < 0x100 ^ n) : leValue (leBytes n v) = v := by
  induction n generalizing v with
  | zero => simp at h; simp [leBytes, leValue, h]
  | succ n ih =>
    have : v / 0x100 < 0x100 ^ n := by
      rw [Nat.div_lt_iff_lt_mul (by decide)]
      rw [Nat.pow_succ] at h
      omega
    simp only [leBytes, leValue, ih this, BitVec.toNat_ofNat]
    omega

/-- A little-endian number fits its bytes. -/
theorem leValue_lt : ∀ (bs : List Byte), leValue bs < 0x100 ^ bs.length := by
  intro bs
  induction bs with
  | nil => simp [leValue]
  | cons b t ih =>
    simp only [leValue, List.length_cons, Nat.pow_succ]
    have := b.isLt
    omega

/-- Each byte of a little-endian number (20_memory.md R52). -/
theorem getElem?_eq_leValue : ∀ (bs : List Byte) (j), j < bs.length →
    bs[j]? = some (BitVec.ofNat 8 (leValue bs / 0x100 ^ j)) := by
  intro bs
  induction bs with
  | nil => simp
  | cons b t ih =>
    intro j hj
    cases j with
    | zero =>
      simp only [leValue]
      simp
      apply BitVec.eq_of_toNat_eq
      simp
      have := b.isLt
      omega
    | succ j =>
      simp only [List.getElem?_cons_succ, leValue, Nat.pow_succ]
      rw [ih j (by simpa using hj), Nat.mul_comm (0x100 ^ j), ← Nat.div_div_eq_div_mul]
      congr 3
      have := b.isLt
      omega

/-- The operand read of a descriptor field that holds `v` is `v`. -/
theorem descField_of_fieldAt {s : State} {i b n v : Nat} (h : FieldAt s i b n v) : descField s i b n = .ok v := by
  have hc : CellsAt s .ptab (256 * i + b) (leBytes n v) := fun j hj => by
    rw [length_leBytes] at hj
    rw [h.2 j hj, getElem?_leBytes v hj]
  have := readCells_of_cellsAt hc
  rw [length_leBytes] at this
  simp [descField, Config.descSize, this, leValue_leBytes h.1]

@[simp] theorem require_of_true {c : Prop} [Decidable c] {e : CmdError} (h : c) : require c e = .ok () := by
  simp [require, h]

theorem require_of_false {c : Prop} [Decidable c] {e : CmdError} (h : ¬ c) : require c e = .error (.raised e) := by
  simp [require, raise, h]

@[simp] theorem engineRead_ok {α : Type} (a : α) : engineRead (.ok a : Except Fault α) = .ok a := rfl

theorem engineRead_cell {s : State} {b : Buf} {k : Nat} {v : Byte} (h : byteAt s b k = some v) :
    engineRead (readCell s b k) = .ok v := by
  rw [readCell_eq_ok.2 h]; rfl

@[simp] theorem check_bind_ok {α β : Type} (a : α) (f : α → Check β) : ((Except.ok a : Check α) >>= f) = f a := rfl

@[simp] theorem check_bind_error {α β : Type} (e : Stop) (f : α → Check β) :
    ((Except.error e : Check α) >>= f) = .error e := rfl

/-- How a check in sequence can end well. -/
theorem check_bind_eq_ok {α β : Type} {c : Check α} {f : α → Check β} {b : β} :
    (c >>= f) = .ok b ↔ ∃ a, c = .ok a ∧ f a = .ok b := by
  cases c <;> simp

@[simp] theorem runCheck_ok {α : Type} (s : State) (a : α) (k : α → Host.Outcome State Fault Refusal) :
    runCheck s (.ok a) k = k a := rfl

@[simp] theorem runCheck_raised {α : Type} (s : State) (e : CmdError) (k : α → Host.Outcome State Fault Refusal) :
    runCheck s (.error (.raised e)) k = .next (completeRaised e s) := rfl

@[simp] theorem runCheck_faulted {α : Type} (s : State) (f : Fault) (k : α → Host.Outcome State Fault Refusal) :
    runCheck s (.error (.faulted f)) k = .fault f := rfl

/-- All that a command over a check can answer with a next state. -/
theorem runCheck_eq_next {α : Type} {s t : State} {c : Check α} {k : α → Host.Outcome State Fault Refusal}
    (h : runCheck s c k = .next t) :
    (∃ a, c = .ok a ∧ k a = .next t) ∨ (∃ e, c = .error (.raised e) ∧ t = completeRaised e s) := by
  unfold runCheck at h
  split at h
  · exact .inl ⟨_, rfl, h⟩
  · exact .inr ⟨_, rfl, by injection h with h; exact h.symm⟩
  · cases h

/-- A command over a check is never refused where its last part is not. -/
theorem runCheck_ne_refused {α : Type} {s : State} {c : Check α} {k : α → Host.Outcome State Fault Refusal}
    {r : Refusal} (h : ∀ a, k a ≠ .refused r) : runCheck s c k ≠ .refused r := by
  unfold runCheck
  split
  · exact h _
  · simp
  · simp

@[simp] theorem andThen_done (s : State) (k : State → RunResult) : andThen (.done s) k = k s := rfl
@[simp] theorem andThen_raised (e : CmdError) (s : State) (k : State → RunResult) :
    andThen (.raised e s) k = .raised e s := rfl
@[simp] theorem andThen_faulted (f : Fault) (k : State → RunResult) : andThen (.faulted f) k = .faulted f := rfl

theorem andThen_eq_done {r : RunResult} {k : State → RunResult} {t : State} (h : andThen r k = .done t) :
    ∃ s, r = .done s ∧ k s = .done t := by
  cases r <;> simp_all [andThen]

theorem andThen_eq_raised {r : RunResult} {k : State → RunResult} {e : CmdError} {t : State}
    (h : andThen r k = .raised e t) : r = .raised e t ∨ ∃ s, r = .done s ∧ k s = .raised e t := by
  cases r <;> simp_all [andThen]

@[simp] theorem withCheck_ok {α : Type} (s : State) (a : α) (k : α → RunResult) : withCheck s (.ok a) k = k a := rfl
@[simp] theorem withCheck_raised {α : Type} (s : State) (e : CmdError) (k : α → RunResult) :
    withCheck s (.error (.raised e)) k = .raised e s := rfl
@[simp] theorem withCheck_faulted {α : Type} (s : State) (f : Fault) (k : α → RunResult) :
    withCheck s (.error (.faulted f)) k = .faulted f := rfl

theorem withCheck_eq_done {α : Type} {s t : State} {c : Check α} {k : α → RunResult} (h : withCheck s c k = .done t) :
    ∃ a, c = .ok a ∧ k a = .done t := by
  unfold withCheck at h
  split at h
  · exact ⟨_, rfl, h⟩
  · cases h
  · cases h

theorem withCheck_eq_raised {α : Type} {s t : State} {c : Check α} {k : α → RunResult} {e : CmdError}
    (h : withCheck s c k = .raised e t) :
    (∃ a, c = .ok a ∧ k a = .raised e t) ∨ (c = .error (.raised e) ∧ t = s) := by
  unfold withCheck at h
  split at h
  · exact .inl ⟨_, rfl, h⟩
  · injection h with h1 h2; exact .inr ⟨by rw [h1], h2.symm⟩
  · cases h

@[simp] theorem forEach_nil (body : Nat → State → RunResult) (s : State) : forEach body [] s = .done s := rfl

@[simp] theorem forEach_cons (body : Nat → State → RunResult) (i : Nat) (t : List Nat) (s : State) :
    forEach body (i :: t) s = andThen (body i s) (forEach body t) := rfl

theorem forEach_append (body : Nat → State → RunResult) (l l' : List Nat) (s : State) :
    forEach body (l ++ l') s = andThen (forEach body l s) (forEach body l') := by
  induction l generalizing s with
  | nil => rfl
  | cons i t ih =>
    simp only [List.cons_append, forEach_cons]
    cases body i s <;> simp [ih]

/-- A property that every turn keeps holds at the end of a loop, however the loop ends with a state. -/
theorem forEach_keeps {p : State → Prop} {body : Nat → State → RunResult} {l : List Nat}
    (hd : ∀ i ∈ l, ∀ s t, p s → body i s = .done t → p t)
    (hr : ∀ i ∈ l, ∀ s e t, p s → body i s = .raised e t → p t) {s : State} (hs : p s) :
    (∀ t, forEach body l s = .done t → p t) ∧ (∀ e t, forEach body l s = .raised e t → p t) := by
  induction l generalizing s with
  | nil =>
    refine ⟨fun t h => ?_, fun e t h => ?_⟩
    · cases h; exact hs
    · cases h
  | cons i l ih =>
    have ih' := fun {s : State} => ih (s := s) (fun j hj => hd j (List.mem_cons_of_mem _ hj))
      (fun j hj => hr j (List.mem_cons_of_mem _ hj))
    rw [forEach_cons]
    cases hb : body i s with
    | done s' => exact ih' (hd i (List.mem_cons_self ..) s s' hs hb)
    | raised e' s' =>
      refine ⟨fun t h => (by cases h), fun e t h => ?_⟩
      cases h
      exact hr i (List.mem_cons_self ..) s _ _ hs hb
    | faulted f => exact ⟨fun t h => (by cases h), fun e t h => (by cases h)⟩

end Sys2Proof.Machine
end

