-- ==== Sys2Proof/Laws/Commands.lean ====
section
/-! SUPPORT. What the checks and parts of commands answer on table entries that hold a valid patch or code. -/

namespace Sys2Proof.Machine

/-! ### The code format -/

theorem mem_of_findIdx?_eq_some {ch : Byte} {l : List Byte} {k : Nat}
    (h : l.findIdx? (fun x => x == ch) = some k) : l[k]? = some ch := by
  obtain ⟨hk, he, -⟩ := List.findIdx?_eq_some_iff_getElem.1 h
  simp only [beq_iff_eq] at he
  simp [hk, he]

theorem distinct_getElem_inj {l : List Byte} (h : distinct l = true) {i j : Nat} {b : Byte}
    (hi : l[i]? = some b) (hj : l[j]? = some b) : i = j := by
  induction l generalizing i j with
  | nil => simp at hi
  | cons c t ih =>
    simp only [distinct, Bool.and_eq_true, Bool.not_eq_true', List.contains_eq_mem, decide_eq_false_iff_not] at h
    cases i with
    | zero =>
      cases j with
      | zero => rfl
      | succ j =>
        simp only [List.getElem?_cons_zero, Option.some.injEq] at hi
        simp only [List.getElem?_cons_succ] at hj
        exact absurd (hi ▸ List.mem_of_getElem? hj) h.1
    | succ i =>
      cases j with
      | zero =>
        simp only [List.getElem?_cons_zero, Option.some.injEq] at hj
        simp only [List.getElem?_cons_succ] at hi
        exact absurd (hj ▸ List.mem_of_getElem? hi) h.1
      | succ j =>
        simp only [List.getElem?_cons_succ] at hi hj
        exact congrArg (· + 1) (ih h.2 hi hj)

theorem wf_alphabet {P : Params} (h : P.wf = true) : P.alphabet.length = 16 ∧ distinct P.alphabet = true := by
  simp only [Params.wf, Bool.and_eq_true, beq_iff_eq] at h
  simp_all

/-- The bounds of 00_scope.md R11, for arithmetic. -/
theorem wf_bounds {P : Params} (h : P.wf = true) :
    P.magic.length = 4 ∧ 4 ≤ P.headerSize ∧ P.bank0Off < P.headerSize ∧ P.bank1Off < P.headerSize
      ∧ P.headerSize + 0x8000 ≤ P.imageLen ∧ P.imageLen ≤ 0x10000
      ∧ 1 ≤ P.nPatchMax ∧ P.nPatchMax ≤ 256 ∧ 1 ≤ P.nCodeMax ∧ P.nCodeMax ≤ 8192 := by
  simp only [Params.wf, Bool.and_eq_true, beq_iff_eq, decide_eq_true_eq] at h
  simp_all

theorem symbol_getElem? {P : Params} (h : P.wf = true) (n : BitVec 4) :
    P.alphabet[n.toNat]? = some (symbol P n) := by
  have hl : n.toNat < P.alphabet.length := by have := n.isLt; have := (wf_alphabet h).1; omega
  simp [symbol, List.getD, hl]

/-- Each symbol has its own index (40_codec.md R100). -/
theorem sym_symbol {P : Params} (h : P.wf = true) (n : BitVec 4) : sym P (symbol P n) = some n := by
  have hs := symbol_getElem? h n
  unfold sym
  cases hf : P.alphabet.findIdx? (fun x => x == symbol P n) with
  | none =>
    rw [List.findIdx?_eq_none_iff] at hf
    simpa using hf _ (List.mem_of_getElem? hs)
  | some k =>
    have := distinct_getElem_inj (wf_alphabet h).2 (mem_of_findIdx?_eq_some hf) hs
    simp [this]

theorem sym_eq_none {P : Params} {ch : Byte} : sym P ch = none ↔ ch ∉ P.alphabet := by
  unfold sym
  rw [Option.map_eq_none_iff, List.findIdx?_eq_none_iff]
  constructor
  · intro h hm; simpa using h ch hm
  · intro h x hx; simp only [beq_eq_false_iff_ne, ne_eq]; rintro rfl; exact h hx

theorem sym_of_mem {P : Params} {ch : Byte} (h : ch ∈ P.alphabet) : ∃ n, sym P ch = some n := by
  cases hs : sym P ch with
  | none => exact absurd h (sym_eq_none.1 hs)
  | some n => exact ⟨n, rfl⟩

theorem checkSymbol_ok {P : Params} {index : BitVec 16} {entry : Nat → Check Byte} {k : Nat} {ch : Byte} {n : BitVec 4}
    (h : entry (1 + k) = .ok ch) (hs : sym P ch = some n) : checkSymbol P index entry k = .ok n := by
  simp [checkSymbol, h, hs]; rfl

theorem checkSymbol_bad {P : Params} {index : BitVec 16} {entry : Nat → Check Byte} {k : Nat} {ch : Byte}
    (h : entry (1 + k) = .ok ch) (hs : ch ∉ P.alphabet) :
    checkSymbol P index entry k = .error (.raised (invalidCode index 2 (BitVec.ofNat 8 k))) := by
  simp [checkSymbol, h, sym_eq_none.2 hs, raise]

/-- `check_code` on an entry that holds a code. -/
theorem checkCode_ok {P : Params} (hP : P.wf = true) {index : BitVec 16} {entry : Nat → Check Byte} {n : Nibbles}
    (h : entry 0 = .ok 6) (h0 : entry 1 = .ok (symbol P n.n0)) (h1 : entry 2 = .ok (symbol P n.n1))
    (h2 : entry 3 = .ok (symbol P n.n2)) (h3 : entry 4 = .ok (symbol P n.n3))
    (h4 : entry 5 = .ok (symbol P n.n4)) (h5 : entry 6 = .ok (symbol P n.n5)) :
    checkCode P index entry = .ok n := by
  unfold checkCode
  rw [h, checkSymbol_ok h0 (sym_symbol hP _), checkSymbol_ok h1 (sym_symbol hP _),
    checkSymbol_ok h2 (sym_symbol hP _), checkSymbol_ok h3 (sym_symbol hP _), checkSymbol_ok h4 (sym_symbol hP _),
    checkSymbol_ok h5 (sym_symbol hP _)]
  rfl

/-- `check_code` on a wrong length. -/
theorem checkCode_length {P : Params} {index : BitVec 16} {entry : Nat → Check Byte} {l : Byte}
    (h : entry 0 = .ok l) (hl : l ≠ 6) : checkCode P index entry = .error (.raised (invalidCode index 1 0)) := by
  unfold checkCode
  have : ¬ l.toNat = Config.codeLen := fun e => hl (BitVec.eq_of_toNat_eq (by simpa using e))
  simp [h, require_of_false this]

/-- `check_code` on the first character outside ALPHABET. -/
theorem checkCode_symbol {P : Params} {index : BitVec 16} {entry : Nat → Check Byte} {k : Nat} {ch : Byte}
    (h : entry 0 = .ok 6) (hk : k < 6) (hgood : ∀ p, p < k → ∃ c, entry (1 + p) = .ok c ∧ c ∈ P.alphabet)
    (hc : entry (1 + k) = .ok ch) (hbad : ch ∉ P.alphabet) :
    checkCode P index entry = .error (.raised (invalidCode index 2 (BitVec.ofNat 8 k))) := by
  have good : ∀ p, p < k → ∃ n, checkSymbol P index entry p = .ok n := fun p hp => by
    obtain ⟨c, h1, h2⟩ := hgood p hp
    obtain ⟨n, hn⟩ := sym_of_mem h2
    exact ⟨n, checkSymbol_ok h1 hn⟩
  have bad := checkSymbol_bad (index := index) hc hbad
  unfold checkCode
  rw [h]
  have : k = 0 ∨ k = 1 ∨ k = 2 ∨ k = 3 ∨ k = 4 ∨ k = 5 := by omega
  rcases this with rfl | rfl | rfl | rfl | rfl | rfl
  · simp [bad]
  · obtain ⟨n0, e0⟩ := good 0 (by omega)
    simp [e0, bad]
  · obtain ⟨n0, e0⟩ := good 0 (by omega)
    obtain ⟨n1, e1⟩ := good 1 (by omega)
    simp [e0, e1, bad]
  · obtain ⟨n0, e0⟩ := good 0 (by omega)
    obtain ⟨n1, e1⟩ := good 1 (by omega)
    obtain ⟨n2, e2⟩ := good 2 (by omega)
    simp [e0, e1, e2, bad]
  · obtain ⟨n0, e0⟩ := good 0 (by omega)
    obtain ⟨n1, e1⟩ := good 1 (by omega)
    obtain ⟨n2, e2⟩ := good 2 (by omega)
    obtain ⟨n3, e3⟩ := good 3 (by omega)
    simp [e0, e1, e2, e3, bad]
  · obtain ⟨n0, e0⟩ := good 0 (by omega)
    obtain ⟨n1, e1⟩ := good 1 (by omega)
    obtain ⟨n2, e2⟩ := good 2 (by omega)
    obtain ⟨n3, e3⟩ := good 3 (by omega)
    obtain ⟨n4, e4⟩ := good 4 (by omega)
    simp only [e0, e1, e2, e3, e4, bad, check_bind_ok, check_bind_error]
    rfl

/-- Bit 15 of a decoded address is set (R77). -/
theorem decodeAddr_ge (n : Nibbles) : 0x8000 ≤ (decodeAddr n).toNat := by
  have h : (decodeAddr n).getLsbD 15 = true := by simp [decodeAddr, nibble16]
  simp only [BitVec.getLsbD, Nat.testBit_eq_decide_div_mod_eq, decide_eq_true_eq] at h
  omega

/-- `to_offset` never fails on a decoded address (40_codec.md R106). -/
theorem toOffset_decodeAddr (P : Params) (n : Nibbles) :
    toOffset P (decodeAddr n).toNat = some ((decodeAddr n).toNat - 0x8000 + P.headerSize) := by
  have h := decodeAddr_ge n
  have := (decodeAddr n).isLt
  simp only [toOffset, Config.addrBase]
  rw [if_pos ⟨h, by omega⟩]

theorem codeTarget_eq (P : Params) (n : Nibbles) :
    codeTarget P n = .ok (decodeAddr n, decodeValue n, (decodeAddr n).toNat - 0x8000 + P.headerSize) := by
  simp [codeTarget, toOffset_decodeAddr]

/-- `check_code` on a code entry of the table that holds a code. -/
theorem checkCode_of_codeAt {s : State} (hP : s.params.wf = true) {index : BitVec 16} {j : Nat} {n : Nibbles}
    (h : CodeAt s j n) : checkCode s.params index (codeEntryByte s j) = .ok n := by
  have e : ∀ k, k < 7 → ∀ b, [6, symbol s.params n.n0, symbol s.params n.n1, symbol s.params n.n2,
      symbol s.params n.n3, symbol s.params n.n4, symbol s.params n.n5][k]? = some b →
      codeEntryByte s j k = .ok b := fun k hk b hb => by
    have := h k (by simpa using hk)
    rw [hb] at this
    exact engineRead_cell (by simpa [Config.codeEntrySize] using this)
  exact checkCode_ok hP (e 0 (by omega) _ rfl) (e 1 (by omega) _ rfl) (e 2 (by omega) _ rfl) (e 3 (by omega) _ rfl)
    (e 4 (by omega) _ rfl) (e 5 (by omega) _ rfl) (e 6 (by omega) _ rfl)

theorem codeWriteOperands_of_codeAt {s : State} (hP : s.params.wf = true) {j : Nat} {n : Nibbles} (h : CodeAt s j n) :
    codeWriteOperands s j
      = .ok (decodeAddr n, decodeValue n, (decodeAddr n).toNat - 0x8000 + s.params.headerSize) := by
  simp [codeWriteOperands, checkCode_of_codeAt hP h, codeTarget_eq]

/-! ### Patches -/

theorem descOffset_of {s : State} {i v : Nat} (h : FieldAt s i 0 4 v) : descOffset s i = .ok v := descField_of_fieldAt h
theorem descKind_of {s : State} {i v : Nat} (h : FieldAt s i 4 1 v) : descKind s i = .ok v := descField_of_fieldAt h
theorem descExpLen_of {s : State} {i v : Nat} (h : FieldAt s i 5 1 v) : descExpLen s i = .ok v := descField_of_fieldAt h
theorem descNewLen_of {s : State} {i v : Nat} (h : FieldAt s i 6 1 v) : descNewLen s i = .ok v := descField_of_fieldAt h
theorem descRegionLen_of {s : State} {i v : Nat} (h : FieldAt s i 8 2 v) : descRegionLen s i = .ok v :=
  descField_of_fieldAt h
theorem descRsv_of {s : State} {i v : Nat} (h : FieldAt s i 10 6 v) : descRsv s i = .ok v := descField_of_fieldAt h

/-- A valid patch passes `check_desc` (44_orchestrator.md R161). -/
theorem checkDesc_of_patchAt {s : State} {i : Nat} {p : Patch} (h : PatchAt s i p) (hp : p.Ok s.params) :
    checkDesc s i = .ok () := by
  obtain ⟨offset, expected, repl⟩ := p
  obtain ⟨hoff, hexp, hrsv, -, hrep⟩ := h
  obtain ⟨hlen, hok⟩ := hp
  unfold checkDesc
  cases repl with
  | single b =>
    obtain ⟨hne, hlt⟩ := hok
    have hne' : expected.length ≠ 0 := by simpa using hne
    simp only [descKind_of hrep.1, descRsv_of hrsv, descExpLen_of hexp, checkSingle, descOffset_of hoff, check_bind_ok]
    rw [require_of_true (by simp), require_of_true trivial, require_of_true hlen, require_of_true hne', require_of_true hlt]
    rfl
  | region code n fill =>
    obtain ⟨h1, h2, h3⟩ := hok
    simp only [descKind_of hrep.1, descRsv_of hrsv, descExpLen_of hexp, checkRegion, descOffset_of hoff, check_bind_ok,
      descNewLen_of hrep.2.1, descRegionLen_of hrep.2.2.1]
    rw [require_of_true (by simp), require_of_true trivial, require_of_true hlen, require_of_true h1, require_of_true h2,
      require_of_true h3]
    rfl

theorem checkPatch_of_patchAt {s : State} {i : Nat} {p : Patch} (h1 : i < s.patchCount.toNat)
    (h2 : i < s.params.nPatchMax) (h : PatchAt s i p) (hp : p.Ok s.params) : checkPatch s i = .ok () := by
  simp only [checkPatch, checkIndex]
  rw [require_of_true ⟨h1, h2⟩, checkDesc_of_patchAt h hp]
  rfl

/-- The comparison of a window that holds `win` with expected bytes `exp` of PTAB. -/
theorem matchFrom_eq {s : State} {off base : Nat} {win exp : List Byte} (hl : win.length = exp.length)
    (hw : CellsAt s .work off win) (he : CellsAt s .ptab base exp) :
    matchFrom s off base exp.length = .ok (win == exp) := by
  induction exp generalizing off base win with
  | nil => cases win with
    | nil => rfl
    | cons => simp at hl
  | cons e et ih =>
    cases win with
    | nil => simp at hl
    | cons w wt =>
      have hw0 : byteAt s .work off = some w := by simpa using hw 0 (by simp)
      have he0 : byteAt s .ptab base = some e := by simpa using he 0 (by simp)
      have hwt : CellsAt s .work (off + 1) wt := fun j hj => by
        have := hw (j + 1) (by simpa using hj)
        simpa [show off + (j + 1) = off + 1 + j by omega] using this
      have het : CellsAt s .ptab (base + 1) et := fun j hj => by
        have := he (j + 1) (by simpa using hj)
        simpa [show base + (j + 1) = base + 1 + j by omega] using this
      simp only [List.length_cons, matchFrom, engineRead_cell hw0, engineRead_cell he0, check_bind_ok]
      by_cases hwe : w = e
      · rw [if_pos hwe, ih (by simpa using hl) hwt het]
        subst hwe
        simp
      · rw [if_neg hwe]
        simp [hwe]

/-- `match` (42_context_verifier.md R130) on the window of a valid patch. -/
theorem matchPatch_of_window {s : State} {i : Nat} {p : Patch} (h : PatchAt s i p) {win : List Byte}
    (hl : win.length = p.expected.length) (hb : p.expected = [] ∨ p.offset + p.expected.length ≤ s.params.imageLen)
    (hw : CellsAt s .work p.offset win) : matchPatch s i = .ok (win == p.expected) := by
  obtain ⟨hoff, hexp, -, hcells, -⟩ := h
  simp only [matchPatch, descOffset_of hoff, descExpLen_of hexp, check_bind_ok, matchWindow]
  by_cases h0 : p.expected.length = 0
  · rw [if_pos h0]
    have e1 : p.expected = [] := by simpa using h0
    have e2 : win = [] := by simpa [h0] using hl
    simp [e1, e2]
  · rw [if_neg h0, if_neg (by rcases hb with hb | hb <;> simp_all), matchFrom_eq hl hw (by simpa [expectedBase, Config.descSize] using hcells)]

/-- A window that leaves the image never matches (R130). -/
theorem matchPatch_outside {s : State} {i : Nat} {p : Patch} (h : PatchAt s i p) (h0 : p.expected ≠ [])
    (hb : s.params.imageLen < p.offset + p.expected.length) : matchPatch s i = .ok false := by
  obtain ⟨hoff, hexp, -, -, -⟩ := h
  simp only [matchPatch, descOffset_of hoff, descExpLen_of hexp, check_bind_ok, matchWindow]
  rw [if_neg (by simpa using h0), if_pos hb]

theorem length_regionBytes (code : List Byte) (n : Nat) (fill : Byte) : (regionBytes code n fill).length = n := by
  simp [regionBytes]; omega

theorem regionBytes_eq {code : List Byte} {n : Nat} {fill : Byte} (h : code.length ≤ n) :
    regionBytes code n fill = code ++ List.replicate (n - code.length) fill := by
  simp [regionBytes, List.take_of_length_le h]

/-- The single form on a patch of the table whose cell holds `cur` (43_patch_applier.md R140). -/
theorem applySinglePatch_eq {s : State} {i : Nat} {p : Patch} {new old cur : Byte} (h : PatchAt s i p)
    (hr : p.repl = .single new) (ho : p.expected[0]? = some old) (hc : byteAt s .work p.offset = some cur) :
    applySinglePatch i s
      = .ok (if cur = old then (true, writeByte .work p.offset new s) else (false, s)) := by
  obtain ⟨hoff, hexp, -, hcells, hrep⟩ := h
  rw [hr] at hrep
  have hpos : 0 < p.expected.length := by
    cases hp : p.expected with
    | nil => rw [hp] at ho; simp at ho
    | cons => simp
  have hold : byteAt s .ptab (expectedBase i) = some old := by
    have := hcells 0 hpos
    rw [ho] at this
    simpa [expectedBase, Config.descSize] using this
  simp only [applySinglePatch, descOffset_of hoff, check_bind_ok, descOldByte, engineRead_cell hold, descByte]
  have hb : engineRead (readCell s .ptab (Config.descSize * i + 7)) = .ok new :=
    engineRead_cell (by simpa [Config.descSize] using hrep.2)
  simp only [hb, check_bind_ok, applySingle, engineRead_cell hc]
  split <;> rfl

/-- The region form on a patch of the table (R142). -/
theorem applyRegionPatch_eq {s : State} {i : Nat} {p : Patch} {code : List Byte} {n : Nat} {fill : Byte}
    (h : PatchAt s i p) (hr : p.repl = .region code n fill) :
    applyRegionPatch i s = .ok (writeBytes .work p.offset (regionBytes code n fill) s) := by
  obtain ⟨hoff, hexp, -, -, hrep⟩ := h
  rw [hr] at hrep
  obtain ⟨-, hnl, hrl, hb, hcode⟩ := hrep
  have hb' : engineRead (readCell s .ptab (Config.descSize * i + 7)) = .ok fill :=
    engineRead_cell (by simpa [Config.descSize] using hb)
  have hc' : descNewCode s i code.length = .ok code := by
    simp [descNewCode, newCodeBase, Config.descSize, readCells_of_cellsAt hcode]
  simp only [applyRegionPatch, descOffset_of hoff, check_bind_ok, descNewLen_of hnl, hc', descRegionLen_of hrl, descByte,
    hb', applyRegion]
  rfl

end Sys2Proof.Machine
end

