-- ==== Sys2Proof/Laws/Checks.lean ====
section
/-! SUPPORT. What the checks of the commands can raise, when they cannot stop, and what state the parts of commands can
leave: one lemma per check and part, for the inversions of the meanings. -/

namespace Sys2Proof.Machine

/-- Every error the check raises satisfies `p`. -/
def RaisesOnly {α : Type} (p : CmdError → Prop) (c : Check α) : Prop := ∀ e, c = .error (.raised e) → p e

/-- The check does not stop. -/
def NoFault {α : Type} (c : Check α) : Prop := ∀ f, c ≠ .error (.faulted f)

section RaisesOnly

variable {α β : Type} {p : CmdError → Prop}

theorem RaisesOnly.ok (a : α) : RaisesOnly p (.ok a : Check α) := fun e h => by cases h

theorem RaisesOnly.bind {c : Check α} {f : α → Check β} (hc : RaisesOnly p c) (hf : ∀ a, RaisesOnly p (f a)) :
    RaisesOnly p (c >>= f) := by
  intro e h
  cases c with
  | ok a => exact hf a e h
  | error x => cases h; exact hc e rfl

theorem RaisesOnly.require {c : Prop} [Decidable c] {e : CmdError} (h : ¬ c → p e) :
    RaisesOnly p (require c e) := by
  intro e' h'
  by_cases hc : c
  · rw [require_of_true hc] at h'; cases h'
  · rw [require_of_false hc] at h'; cases h'; exact h hc

theorem RaisesOnly.engineRead (r : Except Fault α) : RaisesOnly p (engineRead r) := by
  intro e h
  cases r <;> cases h

theorem RaisesOnly.descField (s : State) (i b n : Nat) : RaisesOnly p (descField s i b n) := by
  intro e h
  unfold Machine.descField at h
  split at h <;> cases h

theorem RaisesOnly.ite {c : Prop} [Decidable c] {a b : Check α} (ha : RaisesOnly p a) (hb : RaisesOnly p b) :
    RaisesOnly p (if c then a else b) := by
  split
  · exact ha
  · exact hb

theorem RaisesOnly.mono {q : CmdError → Prop} {c : Check α} (h : RaisesOnly p c) (hpq : ∀ e, p e → q e) :
    RaisesOnly q c := fun e he => hpq e (h e he)

end RaisesOnly

/-- The errors of the descriptor check (44_orchestrator.md R161): CONFIG_ERROR on the index with reasons 1 to 7. -/
theorem checkDesc_raises (s : State) (i : Nat) :
    RaisesOnly (fun e => ∃ r, e = configError (BitVec.ofNat 16 i) r) (checkDesc s i) := by
  unfold checkDesc checkSingle checkRegion
  refine .bind (.descField _ _ _ _) fun _ => .bind (.require fun _ => ⟨_, rfl⟩) fun _ => .bind (.descField _ _ _ _) fun _ =>
    .bind (.require fun _ => ⟨_, rfl⟩) fun _ => .bind (.descField _ _ _ _) fun _ => .bind (.require fun _ => ⟨_, rfl⟩)
    fun _ => .ite ?_ ?_
  · exact .bind (.require fun _ => ⟨_, rfl⟩) fun _ => .bind (.descField _ _ _ _) fun _ => .require fun _ => ⟨_, rfl⟩
  · exact .bind (.descField _ _ _ _) fun _ => .bind (.require fun _ => ⟨_, rfl⟩) fun _ => .bind (.descField _ _ _ _) fun _ =>
      .bind (.require fun _ => ⟨_, rfl⟩) fun _ => .bind (.descField _ _ _ _) fun _ => .require fun _ => ⟨_, rfl⟩

/-- The errors of a patch command's first checks (R162, R161). -/
theorem checkPatch_raises (s : State) (i : Nat) :
    RaisesOnly (fun e => e = indexRange i 1 ∨ ∃ r, e = configError (BitVec.ofNat 16 i) r) (checkPatch s i) :=
  .bind (.require fun _ => .inl rfl) fun _ => (checkDesc_raises s i).mono fun _ h => .inr h

/-- The errors of `check_code` (40_codec.md R101). -/
theorem checkCode_raises (P : Params) (index : BitVec 16) {entry : Nat → Check Byte}
    (h : ∀ b p, RaisesOnly p (entry b)) :
    RaisesOnly (fun e => e = invalidCode index 1 0 ∨ ∃ k, k < 6 ∧ e = invalidCode index 2 (BitVec.ofNat 8 k))
      (checkCode P index entry) := by
  have sy : ∀ k, k < 6 → RaisesOnly
      (fun e => e = invalidCode index 1 0 ∨ ∃ k, k < 6 ∧ e = invalidCode index 2 (BitVec.ofNat 8 k))
      (checkSymbol P index entry k) := fun k hk => by
    refine .bind (h _ _) fun ch e he => ?_
    split at he
    · cases he
    · cases he; exact .inr ⟨k, hk, rfl⟩
  unfold checkCode
  exact .bind (h _ _) fun _ => .bind (.require fun _ => .inl rfl) fun _ => .bind (sy 0 (by omega)) fun _ =>
    .bind (sy 1 (by omega)) fun _ => .bind (sy 2 (by omega)) fun _ => .bind (sy 3 (by omega)) fun _ =>
    .bind (sy 4 (by omega)) fun _ => .bind (sy 5 (by omega)) fun _ => .ok _

theorem codeEntryByte_raises (s : State) (j b : Nat) (p : CmdError → Prop) : RaisesOnly p (codeEntryByte s j b) :=
  .engineRead _

theorem codeInByte_raises (s : State) (b : Nat) (p : CmdError → Prop) : RaisesOnly p (codeInByte s b) := .ok _

/-- The errors of the operands of a code write (44_orchestrator.md R167): only those of the code check. -/
theorem codeWriteOperands_raises (s : State) (j : Nat) :
    RaisesOnly (fun e => e = invalidCode (BitVec.ofNat 16 j) 1 0
      ∨ ∃ k, k < 6 ∧ e = invalidCode (BitVec.ofNat 16 j) 2 (BitVec.ofNat 8 k)) (codeWriteOperands s j) :=
  .bind (checkCode_raises _ _ fun b p => codeEntryByte_raises s j b p) fun n => by
    rw [codeTarget_eq]; exact .ok _

/-- The errors of `validate()` (41_image_validator.md R120). -/
theorem validate_raises (s : State) : RaisesOnly (fun e => ∃ r, e = formatError r) (validate s) := by
  have mg : ∀ (l : List Byte) k, RaisesOnly (fun e => ∃ r, e = formatError r) (checkMagic s k l) := by
    intro l
    induction l with
    | nil => exact fun k => .ok _
    | cons b t ih =>
      exact fun k => .bind (.engineRead _) fun _ => .bind (.require fun _ => ⟨_, rfl⟩) fun _ => ih _
  exact .bind (.require fun _ => ⟨_, rfl⟩) fun _ => .bind (mg _ _) fun _ => .bind (.engineRead _) fun _ =>
    .bind (.require fun _ => ⟨_, rfl⟩) fun _ => .bind (.engineRead _) fun _ => .require fun _ => ⟨_, rfl⟩

theorem matchFrom_raises (s : State) (off base n : Nat) (p : CmdError → Prop) :
    RaisesOnly p (matchFrom s off base n) := by
  induction n generalizing off base with
  | zero => exact .ok _
  | succ n ih => exact .bind (.engineRead _) fun _ => .bind (.engineRead _) fun _ => .ite (ih _ _) (.ok _)

/-- A window match raises nothing (42_context_verifier.md R130). -/
theorem matchPatch_raises (s : State) (i : Nat) (p : CmdError → Prop) : RaisesOnly p (matchPatch s i) :=
  .bind (.descField _ _ _ _) fun _ => .bind (.descField _ _ _ _) fun _ =>
    .ite (.ok _) (.ite (.ok _) (matchFrom_raises _ _ _ _ _))

/-- Applying a patch raises nothing (43_patch_applier.md R140, R142). -/
theorem applySinglePatch_raises (s : State) (i : Nat) (p : CmdError → Prop) : RaisesOnly p (applySinglePatch i s) :=
  .bind (.descField _ _ _ _) fun _ => .bind (.engineRead _) fun _ => .bind (.engineRead _) fun _ =>
    .bind (.engineRead _) fun _ => .ite (.ok _) (.ok _)

theorem applyRegionPatch_raises (s : State) (i : Nat) (p : CmdError → Prop) : RaisesOnly p (applyRegionPatch i s) :=
  .bind (.descField _ _ _ _) fun _ => .bind (.descField _ _ _ _) fun _ => .bind (.engineRead _) fun _ =>
    .bind (.descField _ _ _ _) fun _ => .bind (.engineRead _) fun _ => .ok _

theorem applyPatch_raises (s : State) (i : Nat) (p : CmdError → Prop) : RaisesOnly p (applyPatch i s) :=
  .bind (.descField _ _ _ _) fun _ => .ite (.bind (applySinglePatch_raises _ _ _) fun _ => .ok _) (applyRegionPatch_raises _ _ _)

/-- A patch step raises nothing (44_orchestrator.md R172 "never raises"). -/
theorem patchStep_raises (s : State) (i : Nat) (p : CmdError → Prop) : RaisesOnly p (patchStep i s) :=
  .bind (matchPatch_raises _ _ _) fun _ => .ite (.bind (applyPatch_raises _ _ _) fun _ => .ok _) (.ok _)

theorem checkKind_raises (s : State) (i kind : Nat) :
    RaisesOnly (fun e => ∃ k, e = wrongKind i k) (checkKind s i kind) :=
  .bind (.descField _ _ _ _) fun _ => .require fun _ => ⟨_, rfl⟩

/-! ### What the parts of commands leave -/

theorem writeBytes_single (b : Buf) (k : Nat) (v : Byte) (s : State) : writeBytes b k [v] s = writeByte b k v s := rfl

theorem require_eq_ok {c : Prop} [Decidable c] {e : CmdError} {u : Unit} (h : require c e = .ok u) : c := by
  by_cases hc : c
  · exact hc
  · rw [require_of_false hc] at h; cases h

/-- The bounds a descriptor that passed its check keeps (R161): a SINGLE offset lies in the image, a REGION's whole
region does. -/
theorem checkDesc_bounds {s : State} {i off : Nat} (h : checkDesc s i = .ok ()) (ho : descOffset s i = .ok off) :
    (∀ k, descKind s i = .ok k → k = 0 ∨ k = 1)
    ∧ (descKind s i = .ok 0 → off < s.params.imageLen)
    ∧ (∀ k rl, descKind s i = .ok k → k ≠ 0 → descRegionLen s i = .ok rl → off + rl ≤ s.params.imageLen) := by
  unfold checkDesc at h
  obtain ⟨kind, hk, h⟩ := check_bind_eq_ok.1 h
  obtain ⟨_, h1, h⟩ := check_bind_eq_ok.1 h
  obtain ⟨_, _, h⟩ := check_bind_eq_ok.1 h
  obtain ⟨_, _, h⟩ := check_bind_eq_ok.1 h
  obtain ⟨_, _, h⟩ := check_bind_eq_ok.1 h
  obtain ⟨_, _, h⟩ := check_bind_eq_ok.1 h
  have h1 := require_eq_ok h1
  refine ⟨fun k hk' => ?_, fun hk' => ?_, fun k rl hk' hne hrl => ?_⟩
  · rw [hk] at hk'; cases hk'; exact h1
  · rw [hk] at hk'; cases hk'
    rw [if_pos rfl] at h
    unfold checkSingle at h
    obtain ⟨_, _, h⟩ := check_bind_eq_ok.1 h
    obtain ⟨off', ho', h⟩ := check_bind_eq_ok.1 h
    rw [ho] at ho'; cases ho'
    exact require_eq_ok h
  · rw [hk] at hk'; cases hk'
    rw [if_neg hne] at h
    unfold checkRegion at h
    obtain ⟨_, _, h⟩ := check_bind_eq_ok.1 h
    obtain ⟨_, _, h⟩ := check_bind_eq_ok.1 h
    obtain ⟨rl', hrl', h⟩ := check_bind_eq_ok.1 h
    obtain ⟨_, _, h⟩ := check_bind_eq_ok.1 h
    obtain ⟨off', ho', h⟩ := check_bind_eq_ok.1 h
    rw [ho] at ho'; cases ho'
    rw [hrl] at hrl'; cases hrl'
    exact require_eq_ok h

/-- What the single form can leave: the state as it was, or one cell of WORK written at the descriptor's OFFSET. -/
theorem applySinglePatch_cases {s s' : State} {i : Nat} {m : Bool} (h : applySinglePatch i s = .ok (m, s')) :
    ∃ off v, descOffset s i = .ok off ∧ ((m = false ∧ s' = s) ∨ (m = true ∧ s' = writeByte .work off v s)) := by
  unfold applySinglePatch at h
  obtain ⟨off, ho, h⟩ := check_bind_eq_ok.1 h
  obtain ⟨old, _, h⟩ := check_bind_eq_ok.1 h
  obtain ⟨new, _, h⟩ := check_bind_eq_ok.1 h
  unfold applySingle at h
  obtain ⟨cur, _, h⟩ := check_bind_eq_ok.1 h
  split at h <;> cases h
  · exact ⟨off, new, ho, .inr ⟨rfl, rfl⟩⟩
  · exact ⟨off, 0, ho, .inl ⟨rfl, rfl⟩⟩

/-- What the region form leaves: the region of WORK at OFFSET written, as long as REGION_LEN. -/
theorem applyRegionPatch_cases {s s' : State} {i : Nat} (h : applyRegionPatch i s = .ok s') :
    ∃ off bs, descOffset s i = .ok off ∧ descRegionLen s i = .ok bs.length ∧ s' = writeBytes .work off bs s := by
  unfold applyRegionPatch at h
  obtain ⟨off, ho, h⟩ := check_bind_eq_ok.1 h
  obtain ⟨_, _, h⟩ := check_bind_eq_ok.1 h
  obtain ⟨code, _, h⟩ := check_bind_eq_ok.1 h
  obtain ⟨rl, hrl, h⟩ := check_bind_eq_ok.1 h
  obtain ⟨fill, _, h⟩ := check_bind_eq_ok.1 h
  cases h
  exact ⟨off, regionBytes code rl fill, ho, by rw [length_regionBytes]; exact hrl, rfl⟩

/-- What applying a patch whose descriptor passed its check can leave: cells of WORK inside the image written. -/
theorem applyPatch_cases {s s' : State} {i : Nat} (h : applyPatch i s = .ok s') (hc : checkDesc s i = .ok ()) :
    s' = s ∨ ∃ off bs, off + bs.length ≤ s.params.imageLen ∧ s' = writeBytes .work off bs s := by
  unfold applyPatch at h
  obtain ⟨kind, hk, h⟩ := check_bind_eq_ok.1 h
  split at h
  · rename_i h0
    subst h0
    obtain ⟨⟨m, s''⟩, ha, h⟩ := check_bind_eq_ok.1 h
    cases h
    obtain ⟨off, v, ho, ⟨-, rfl⟩ | ⟨-, rfl⟩⟩ := applySinglePatch_cases ha
    · exact .inl rfl
    · exact .inr ⟨off, [v], (checkDesc_bounds hc ho).2.1 hk, rfl⟩
  · rename_i h0
    obtain ⟨off, bs, ho, hl, rfl⟩ := applyRegionPatch_cases h
    exact .inr ⟨off, bs, (checkDesc_bounds hc ho).2.2 _ _ hk h0 hl, rfl⟩

/-- What a patch step whose descriptor passed its check can leave (44_orchestrator.md R165). -/
theorem patchStep_cases {s s' : State} {i : Nat} {m : Bool} (h : patchStep i s = .ok (m, s'))
    (hc : checkDesc s i = .ok ()) :
    (m = false ∧ s' = countFailed i s)
    ∨ (m = true ∧ ∃ u, s' = countApplied i u
        ∧ (u = s ∨ ∃ off bs, off + bs.length ≤ s.params.imageLen ∧ u = writeBytes .work off bs s)) := by
  unfold patchStep at h
  obtain ⟨m', _, h⟩ := check_bind_eq_ok.1 h
  split at h
  · obtain ⟨u, hu, h⟩ := check_bind_eq_ok.1 h
    cases h
    exact .inr ⟨rfl, u, rfl, applyPatch_cases hu hc⟩
  · cases h
    exact .inl ⟨rfl, rfl⟩

/-- The operands a code write finds (R167): those of some code. -/
theorem codeWriteOperands_cases {s : State} {j : Nat} {r : BitVec 16 × Byte × Nat}
    (h : codeWriteOperands s j = .ok r) :
    ∃ n, r = (decodeAddr n, decodeValue n, (decodeAddr n).toNat - 0x8000 + s.params.headerSize) := by
  unfold codeWriteOperands at h
  obtain ⟨n, _, h⟩ := check_bind_eq_ok.1 h
  rw [codeTarget_eq] at h
  cases h
  exact ⟨n, rfl⟩

/-- A code's cell lies behind the header and inside the image (40_codec.md R106). -/
theorem codeCell_bounds {P : Params} (hP : P.wf = true) (n : Nibbles) :
    P.headerSize ≤ (decodeAddr n).toNat - 0x8000 + P.headerSize
      ∧ (decodeAddr n).toNat - 0x8000 + P.headerSize < P.imageLen := by
  have := (decodeAddr n).isLt
  have := wf_bounds hP
  omega

end Sys2Proof.Machine
end

