-- ==== Sys2Proof/Laws/Inversion.lean ====
section
/-! SUPPORT. What each command can answer with a next state, once per meaning: a completion whose state is named, or a
raise of one of its own errors from a state that is named. -/

namespace Sys2Proof.Machine

/-- What every error a command raises keeps of ERR_INFO (10_state.md R25): a code, and POS only for INVALID_CODE. -/
def CmdError.Fits (e : CmdError) : Prop :=
  e.code ≠ .none ∧ e.info.pos.toNat ≤ 5 ∧ (e.code ≠ .invalidCode → e.info.pos = 0)

theorem fits_of_pos {e : CmdError} (h : e.code ≠ .none) (hp : e.info.pos = 0) : e.Fits :=
  ⟨h, by simp [hp], fun _ => hp⟩

theorem fits_invalidCode {i : BitVec 16} {r p : Byte} (h : p.toNat ≤ 5) : (invalidCode i r p).Fits :=
  ⟨by simp [invalidCode], h, fun hc => absurd rfl hc⟩

/-- The errors of the code check fit. -/
theorem fits_of_checkCode {i : BitVec 16} {e : CmdError}
    (h : e = invalidCode i 1 0 ∨ ∃ k, k < 6 ∧ e = invalidCode i 2 (BitVec.ofNat 8 k)) :
    e.code = .invalidCode ∧ e.Fits := by
  rcases h with rfl | ⟨k, hk, rfl⟩
  · exact ⟨rfl, fits_invalidCode (by decide)⟩
  · exact ⟨rfl, fits_invalidCode (by simp; omega)⟩

/-- The errors of a patch command's first checks fit. -/
theorem fits_of_checkPatch {i : Nat} {e : CmdError}
    (h : e = indexRange i 1 ∨ ∃ r, e = configError (BitVec.ofNat 16 i) r) :
    (e.code = .indexRange ∨ e.code = .configError) ∧ e.Fits := by
  rcases h with rfl | ⟨r, rfl⟩
  · exact ⟨.inl rfl, fits_of_pos (by simp [indexRange]) rfl⟩
  · exact ⟨.inr rfl, fits_of_pos (by simp [configError]) rfl⟩

theorem raised_of_bind {α β : Type} {c : Check α} {f : α → Check β} {e : CmdError}
    (h : (c >>= f) = .error (.raised e)) :
    c = .error (.raised e) ∨ ∃ a, c = .ok a ∧ f a = .error (.raised e) := by
  cases c with
  | ok a => exact .inr ⟨a, rfl, h⟩
  | error x => cases h; exact .inl rfl

theorem execDecode_next {s t : State} (h : execDecode s = .next t) :
    (∃ n, t = complete false { s with decAddr := decodeAddr n, decValue := decodeValue n })
    ∨ ∃ e, t = completeRaised e s ∧ e.code = .invalidCode ∧ e.Fits := by
  rcases runCheck_eq_next h with ⟨n, -, h⟩ | ⟨e, he, rfl⟩
  · cases h; exact .inl ⟨n, rfl⟩
  · exact .inr ⟨e, rfl, fits_of_checkCode (checkCode_raises _ _ (fun b p => codeInByte_raises s b p) e he)⟩

theorem execEncode_next {s t : State} (h : execEncode s = .next t) :
    (∃ a b, t = complete false { s with codeOut0 := a, codeOut1 := b })
    ∨ ∃ e, t = completeRaised e s ∧ e.code = .encodeRange ∧ e.Fits := by
  rcases runCheck_eq_next h with ⟨n, -, h⟩ | ⟨e, he, rfl⟩
  · cases h; exact .inl ⟨_, _, rfl⟩
  · refine .inr ⟨e, rfl, ?_⟩
    have : e = encodeRange := RaisesOnly.require (p := fun e => e = encodeRange) (fun _ => rfl) e he
    subst this
    exact ⟨rfl, fits_of_pos (by simp [encodeRange]) rfl⟩

theorem execToOffset_next {s t : State} (h : execToOffset s = .next t) :
    (∃ a, t = complete false { s with offsetOut := a })
    ∨ ∃ e, t = completeRaised e s ∧ e.code = .addrRange ∧ e.Fits := by
  unfold execToOffset at h
  split at h
  · cases h; exact .inr ⟨_, rfl, rfl, fits_of_pos (by simp [addrRange]) rfl⟩
  · cases h; exact .inl ⟨_, rfl⟩

theorem execValidate_next {s t : State} (h : execValidate s = .next t) :
    t = complete false s ∨ ∃ e, t = completeRaised e s ∧ e.code = .formatError ∧ e.Fits := by
  rcases runCheck_eq_next h with ⟨n, -, h⟩ | ⟨e, he, rfl⟩
  · cases h; exact .inl rfl
  · obtain ⟨r, rfl⟩ := validate_raises s e he
    exact .inr ⟨_, rfl, rfl, fits_of_pos (by simp [formatError]) rfl⟩

theorem execVerify_next {s t : State} {i : Nat} (h : execVerify i s = .next t) :
    (∃ m, t = complete m s)
    ∨ ∃ e, t = completeRaised e s ∧ (e.code = .indexRange ∨ e.code = .configError) ∧ e.Fits := by
  rcases runCheck_eq_next h with ⟨n, -, h⟩ | ⟨e, he, rfl⟩
  · cases h; exact .inl ⟨n, rfl⟩
  · exact .inr ⟨e, rfl, fits_of_checkPatch
      ((checkPatch_raises s i).bind (fun _ => matchPatch_raises s i _) e he)⟩

theorem fits_of_checkKind {i : Nat} {e : CmdError} (h : ∃ k, e = wrongKind i k) : e.code = .wrongKind ∧ e.Fits := by
  obtain ⟨k, rfl⟩ := h
  exact ⟨rfl, fits_of_pos (by simp [wrongKind]) rfl⟩

/-- APPLY_SINGLE writes at most one cell, inside the image. -/
theorem execApplySingle_next {s t : State} {i : Nat} (h : execApplySingle i s = .next t) :
    (∃ m u, t = complete m u ∧ (u = setOutputValid false s
        ∨ ∃ off v, off < s.params.imageLen ∧ u = writeByte .work off v (setOutputValid false s)))
    ∨ ∃ e, t = completeRaised e (setOutputValid false s)
        ∧ (e.code = .indexRange ∨ e.code = .configError ∨ e.code = .wrongKind) ∧ e.Fits := by
  rcases runCheck_eq_next h with ⟨⟨m, u⟩, hc, h⟩ | ⟨e, he, rfl⟩
  · cases h
    obtain ⟨_, hp, hc⟩ := check_bind_eq_ok.1 hc
    obtain ⟨_, hd, hp⟩ := check_bind_eq_ok.1 hp
    obtain ⟨_, hk, hc⟩ := check_bind_eq_ok.1 hc
    obtain ⟨k, hk, hr⟩ := check_bind_eq_ok.1 hk
    have h0 : k = 0 := require_eq_ok hr
    subst h0
    obtain ⟨off, v, ho, ⟨-, rfl⟩ | ⟨-, rfl⟩⟩ := applySinglePatch_cases hc
    · exact .inl ⟨m, _, rfl, .inl rfl⟩
    · exact .inl ⟨m, _, rfl, .inr ⟨off, v, (checkDesc_bounds hp ho).2.1 hk, rfl⟩⟩
  · refine .inr ⟨e, rfl, ?_⟩
    rcases raised_of_bind he with he | ⟨_, -, he⟩
    · obtain ⟨h1 | h1, h2⟩ := fits_of_checkPatch (checkPatch_raises _ i e he)
      · exact ⟨.inl h1, h2⟩
      · exact ⟨.inr (.inl h1), h2⟩
    · rcases raised_of_bind he with he | ⟨_, -, he⟩
      · obtain ⟨h1, h2⟩ := fits_of_checkKind (checkKind_raises _ i 0 e he)
        exact ⟨.inr (.inr h1), h2⟩
      · exact (applySinglePatch_raises _ i (fun _ => False) e he).elim

/-- APPLY_REGION writes one region, inside the image. -/
theorem execApplyRegion_next {s t : State} {i : Nat} (h : execApplyRegion i s = .next t) :
    (∃ off bs, off + bs.length ≤ s.params.imageLen
        ∧ t = complete false (writeBytes .work off bs (setOutputValid false s)))
    ∨ ∃ e, t = completeRaised e (setOutputValid false s)
        ∧ (e.code = .indexRange ∨ e.code = .configError ∨ e.code = .wrongKind) ∧ e.Fits := by
  rcases runCheck_eq_next h with ⟨u, hc, h⟩ | ⟨e, he, rfl⟩
  · cases h
    obtain ⟨_, hp, hc⟩ := check_bind_eq_ok.1 hc
    obtain ⟨_, hd, hp⟩ := check_bind_eq_ok.1 hp
    obtain ⟨_, hk, hc⟩ := check_bind_eq_ok.1 hc
    obtain ⟨k, hk, hr⟩ := check_bind_eq_ok.1 hk
    have h1 : k = 1 := require_eq_ok hr
    obtain ⟨off, bs, ho, hl, rfl⟩ := applyRegionPatch_cases hc
    exact .inl ⟨off, bs, (checkDesc_bounds hp ho).2.2 _ _ hk (by omega) hl, rfl⟩
  · refine .inr ⟨e, rfl, ?_⟩
    rcases raised_of_bind he with he | ⟨_, -, he⟩
    · obtain ⟨h1 | h1, h2⟩ := fits_of_checkPatch (checkPatch_raises _ i e he)
      · exact ⟨.inl h1, h2⟩
      · exact ⟨.inr (.inl h1), h2⟩
    · rcases raised_of_bind he with he | ⟨_, -, he⟩
      · obtain ⟨h1, h2⟩ := fits_of_checkKind (checkKind_raises _ i 1 e he)
        exact ⟨.inr (.inr h1), h2⟩
      · exact (applyRegionPatch_raises _ i (fun _ => False) e he).elim

/-- The states a patch step that has passed its checks can leave, from a state whose descriptor is in the table. -/
def StepsTo (i : Nat) (s u : State) : Prop :=
  u = countFailed i s
  ∨ ∃ w, u = countApplied i w ∧ (w = s ∨ ∃ off bs, off + bs.length ≤ s.params.imageLen ∧ w = writeBytes .work off bs s)

theorem execPatchStep_next {s t : State} {i : Nat} (h : execPatchStep i s = .next t) :
    (∃ m u, t = complete m u ∧ i < s.params.nPatchMax ∧ StepsTo i (setOutputValid false s) u)
    ∨ ∃ e, t = completeRaised e (setOutputValid false s)
        ∧ (e.code = .indexRange ∨ e.code = .configError) ∧ e.Fits := by
  rcases runCheck_eq_next h with ⟨⟨m, u⟩, hc, h⟩ | ⟨e, he, rfl⟩
  · cases h
    obtain ⟨_, hp, hc⟩ := check_bind_eq_ok.1 hc
    obtain ⟨_, hi, hp⟩ := check_bind_eq_ok.1 hp
    refine .inl ⟨m, u, rfl, (require_eq_ok hi).2, ?_⟩
    rcases patchStep_cases hc hp with ⟨-, rfl⟩ | ⟨-, w, rfl, hw⟩
    · exact .inl rfl
    · exact .inr ⟨w, rfl, hw⟩
  · exact .inr ⟨e, rfl, fits_of_checkPatch
      ((checkPatch_raises _ i).bind (fun _ => patchStep_raises _ i _) e he)⟩

theorem execCodeWrite_next {s t : State} {j : Nat} (h : execCodeWrite j s = .next t) :
    (∃ n, t = complete false { writeByte .work ((decodeAddr n).toNat - 0x8000 + s.params.headerSize) (decodeValue n)
          (setOutputValid false s) with
        decAddr := decodeAddr n, decValue := decodeValue n
        offsetOut := BitVec.ofNat 32 ((decodeAddr n).toNat - 0x8000 + s.params.headerSize) })
    ∨ ∃ e, t = completeRaised e (setOutputValid false s)
        ∧ (e.code = .indexRange ∨ e.code = .invalidCode) ∧ e.Fits := by
  rcases runCheck_eq_next h with ⟨r, hc, h⟩ | ⟨e, he, rfl⟩
  · cases h
    obtain ⟨_, -, hc⟩ := check_bind_eq_ok.1 hc
    obtain ⟨n, rfl⟩ := codeWriteOperands_cases hc
    exact .inl ⟨n, rfl⟩
  · refine .inr ⟨e, rfl, ?_⟩
    rcases raised_of_bind he with he | ⟨_, -, he⟩
    · have : e = indexRange j 2 := RaisesOnly.require (p := fun e => e = indexRange j 2) (fun _ => rfl) e he
      subst this
      exact ⟨.inl rfl, fits_of_pos (by simp [indexRange]) rfl⟩
    · obtain ⟨h1, h2⟩ := fits_of_checkCode (codeWriteOperands_raises _ j e he)
      exact ⟨.inr h1, h2⟩

/-! ### The configuration check and RUN -/


/-- What the configuration check raises, and where (44_orchestrator.md R164). -/
def ConfigRaise (inRun : Bool) (s : State) (e : CmdError) (t : State) : Prop :=
  (e.code = .configError ∨ e.code = .invalidCode) ∧ e.Fits
  ∧ ∃ i, t = moveSeqIf inRun .config i s

theorem moveSeqIf_moveSeqIf (b : Bool) (p p' : Phase) (i i' : BitVec 16) (s : State) :
    moveSeqIf b p' i' (moveSeqIf b p i s) = moveSeqIf b p' i' s := by cases b <;> rfl

/-- How a loop over checks that only move SEQ can end. -/
theorem forEach_moves {b : Bool} {p : Phase} {q : CmdError → Prop} {c : Nat → State → Check Unit}
    (hc : ∀ i s, RaisesOnly q (c i s)) {l : List Nat} {s s0 : State} (hs : ∃ i, s = moveSeqIf b p i s0) :
    (∀ t, forEach (fun i s => withCheck (moveSeqIf b p (BitVec.ofNat 16 i) s)
        (c i (moveSeqIf b p (BitVec.ofNat 16 i) s)) fun _ => .done (moveSeqIf b p (BitVec.ofNat 16 i) s)) l s = .done t →
      ∃ i, t = moveSeqIf b p i s0)
    ∧ (∀ e t, forEach (fun i s => withCheck (moveSeqIf b p (BitVec.ofNat 16 i) s)
        (c i (moveSeqIf b p (BitVec.ofNat 16 i) s)) fun _ => .done (moveSeqIf b p (BitVec.ofNat 16 i) s)) l s = .raised e t →
      q e ∧ ∃ i, t = moveSeqIf b p i s0) := by
  induction l generalizing s with
  | nil =>
    refine ⟨fun t h => ?_, fun e t h => ?_⟩
    · cases h; exact hs
    · cases h
  | cons j l ih =>
    obtain ⟨i, rfl⟩ := hs
    simp only [forEach_cons, moveSeqIf_moveSeqIf]
    refine ⟨fun t h => ?_, fun e t h => ?_⟩
    · obtain ⟨u, h1, h2⟩ := andThen_eq_done h
      obtain ⟨_, -, h1⟩ := withCheck_eq_done h1
      cases h1
      exact (ih ⟨_, rfl⟩).1 t h2
    · rcases andThen_eq_raised h with h1 | ⟨u, h1, h2⟩
      · rcases withCheck_eq_raised h1 with ⟨_, -, h2⟩ | ⟨h2, rfl⟩
        · cases h2
        · exact ⟨hc _ _ e h2, _, rfl⟩
      · obtain ⟨_, -, h1⟩ := withCheck_eq_done h1
        cases h1
        exact (ih ⟨_, rfl⟩).2 e t h2

/-- How the configuration check can end: nothing but SEQ is written. -/
theorem checkConfig_cases (b : Bool) (s : State) :
    (∀ t, checkConfig b s = .done t → (s.patchCount.toNat ≤ s.params.nPatchMax ∧ s.codeCount.toNat ≤ s.params.nCodeMax)
      ∧ ∃ i, t = moveSeqIf b .config i s)
    ∧ (∀ e t, checkConfig b s = .raised e t → ConfigRaise b s e t) := by
  have desc := fun l u => forEach_moves (b := b) (p := .config) (q := fun e => e.code = .configError ∧ e.Fits)
    (c := fun i s => checkDesc s i) (fun i s => (checkDesc_raises s i).mono fun e ⟨r, he⟩ => by
      subst he; exact ⟨rfl, fits_of_pos (by simp [configError]) rfl⟩) (l := l) (s := u) (s0 := s)
  have code := fun l u => forEach_moves (b := b) (p := .config) (q := fun e => e.code = .invalidCode ∧ e.Fits)
    (c := fun j s => checkCode s.params (BitVec.ofNat 16 j) (codeEntryByte s j) >>= fun _ => .ok ())
    (fun j s => ((checkCode_raises s.params (BitVec.ofNat 16 j) (codeEntryByte_raises s j)).mono
      fun e he => fits_of_checkCode he).bind fun _ => .ok _) (l := l) (s := u) (s0 := s)
  have e1 : configDesc b = fun i s => withCheck (moveSeqIf b .config (BitVec.ofNat 16 i) s)
      (checkDesc (moveSeqIf b .config (BitVec.ofNat 16 i) s) i) fun _ => .done (moveSeqIf b .config (BitVec.ofNat 16 i) s) :=
    rfl
  have e2 : configCode b = fun j s => withCheck (moveSeqIf b .config (BitVec.ofNat 16 j) s)
      (checkCode (moveSeqIf b .config (BitVec.ofNat 16 j) s).params (BitVec.ofNat 16 j)
          (codeEntryByte (moveSeqIf b .config (BitVec.ofNat 16 j) s) j) >>= fun _ => .ok ())
      fun _ => .done (moveSeqIf b .config (BitVec.ofNat 16 j) s) := by
    funext j s
    show withCheck _ (checkCode (moveSeqIf b .config (BitVec.ofNat 16 j) s).params (BitVec.ofNat 16 j)
      (codeEntryByte (moveSeqIf b .config (BitVec.ofNat 16 j) s) j)) _ = _
    generalize checkCode (moveSeqIf b .config (BitVec.ofNat 16 j) s).params (BitVec.ofNat 16 j)
      (codeEntryByte (moveSeqIf b .config (BitVec.ofNat 16 j) s) j) = c
    rcases c with (_ | _) | _ <;> rfl
  unfold checkConfig
  rw [e1, e2]
  have hp : ∀ i, (moveSeqIf b .config i s).params = s.params := fun i => by cases b <;> rfl
  have hn : ∀ i, (moveSeqIf b .config i s).patchCount = s.patchCount := fun i => by cases b <;> rfl
  have hm : ∀ i, (moveSeqIf b .config i s).codeCount = s.codeCount := fun i => by cases b <;> rfl
  refine ⟨fun t h => ?_, fun e t h => ?_⟩
  · obtain ⟨_, hc, h⟩ := withCheck_eq_done h
    obtain ⟨_, hc1, hc2⟩ := check_bind_eq_ok.1 hc
    obtain ⟨u, h1, h2⟩ := andThen_eq_done h
    have h1 := (desc _ _ ⟨_, rfl⟩).1 u h1
    refine ⟨⟨by simpa [hp, hn] using require_eq_ok hc1, by simpa [hp, hm] using require_eq_ok hc2⟩,
      (code _ u h1).1 t h2⟩
  · rcases withCheck_eq_raised h with ⟨_, hc, h⟩ | ⟨hc, rfl⟩
    · rcases andThen_eq_raised h with h1 | ⟨u, h1, h2⟩
      · obtain ⟨⟨q1, q2⟩, i, rfl⟩ := (desc _ _ ⟨_, rfl⟩).2 e t h1
        exact ⟨.inl q1, q2, i, rfl⟩
      · have h1 := (desc _ _ ⟨_, rfl⟩).1 u h1
        obtain ⟨⟨q1, q2⟩, i, rfl⟩ := (code _ u h1).2 e t h2
        exact ⟨.inr q1, q2, i, rfl⟩
    · have : e.code = .configError ∧ e.Fits :=
        RaisesOnly.bind (p := fun e => e.code = .configError ∧ e.Fits)
          (.require fun _ => ⟨rfl, fits_of_pos (by simp [configError]) rfl⟩)
          (fun _ => .require fun _ => ⟨rfl, fits_of_pos (by simp [configError]) rfl⟩) e hc
      exact ⟨.inl this.1, this.2, _, rfl⟩

end Sys2Proof.Machine
end

