-- ==== Sys2Proof/Laws/Run.lean ====
section
/-! SUPPORT. What RUN can answer (44_orchestrator.md R172): the checks of its CONFIG phase hold in every later phase, its
patch and code turns never raise, and a run ends in a named place. -/

namespace Sys2Proof.Machine

/-! ### What the table checks depend on -/

theorem readCells_congr {s u : State} {b : Buf} (h : ∀ k, byteAt s b k = byteAt u b k) (k n : Nat) :
    readCells s b k n = readCells u b k n := by
  induction n generalizing k with
  | zero => rfl
  | succ n ih => simp only [readCells, readCell, h, ih]

theorem descField_congr {s u : State} (h : s.ptab = u.ptab) (i b n : Nat) : descField s i b n = descField u i b n := by
  have : ∀ k, byteAt s .ptab k = byteAt u .ptab k := fun k => by simp [byteAt, h]
  simp only [descField, readCells_congr this]

/-- The descriptor check reads PTAB and the parameters only. -/
theorem checkDesc_congr {s u : State} (h : s.ptab = u.ptab) (hp : s.params = u.params) (i : Nat) :
    checkDesc s i = checkDesc u i := by
  have f := descField_congr h
  simp only [checkDesc, checkSingle, checkRegion, descKind, descRsv, descExpLen, descOffset, descNewLen, descRegionLen, f, hp]

theorem codeEntryByte_congr {s u : State} (h : s.ctab = u.ctab) (j : Nat) : codeEntryByte s j = codeEntryByte u j := by
  funext b
  simp [codeEntryByte, readCell, byteAt, h]

/-- The operands of a code write come from CTAB and the parameters only. -/
theorem codeWriteOperands_congr {s u : State} (h : s.ctab = u.ctab) (hp : s.params = u.params) (j : Nat) :
    codeWriteOperands s j = codeWriteOperands u j := by
  simp only [codeWriteOperands, hp, codeEntryByte_congr h]

/-- `validate` reads SRC, SRC_LEN and the parameters only. -/
theorem validate_congr {s u : State} (h : s.src = u.src) (hl : s.srcLen = u.srcLen) (hp : s.params = u.params) :
    validate s = validate u := by
  have c : ∀ k, readCell s .src k = readCell u .src k := fun k => by simp [readCell, byteAt, h]
  have m : ∀ l k, checkMagic s k l = checkMagic u k l := by
    intro l
    induction l with
    | nil => exact fun k => rfl
    | cons b t ih => exact fun k => by simp only [checkMagic, c, ih]
  simp only [validate, hl, hp, c, m]

/-! ### What the configuration check proves -/

@[simp] theorem moveSeqIf_ptab (b : Bool) (p : Phase) (i : BitVec 16) (s : State) : (moveSeqIf b p i s).ptab = s.ptab := by
  cases b <;> rfl
@[simp] theorem moveSeqIf_ctab (b : Bool) (p : Phase) (i : BitVec 16) (s : State) : (moveSeqIf b p i s).ctab = s.ctab := by
  cases b <;> rfl
@[simp] theorem moveSeqIf_params (b : Bool) (p : Phase) (i : BitVec 16) (s : State) :
    (moveSeqIf b p i s).params = s.params := by cases b <;> rfl
@[simp] theorem moveSeqIf_patchCount (b : Bool) (p : Phase) (i : BitVec 16) (s : State) :
    (moveSeqIf b p i s).patchCount = s.patchCount := by cases b <;> rfl
@[simp] theorem moveSeqIf_codeCount (b : Bool) (p : Phase) (i : BitVec 16) (s : State) :
    (moveSeqIf b p i s).codeCount = s.codeCount := by cases b <;> rfl

/-- A loop of checks that ended well has passed each of them, in the state it started from. -/
theorem forEach_checks {b : Bool} {p : Phase} {α : Type} {c : Nat → State → Check α}
    (hc : ∀ i q x s, c i (moveSeqIf b q x s) = c i s) {l : List Nat} {s t : State}
    (h : forEach (fun i s => withCheck (moveSeqIf b p (BitVec.ofNat 16 i) s)
        (c i (moveSeqIf b p (BitVec.ofNat 16 i) s)) fun _ => .done (moveSeqIf b p (BitVec.ofNat 16 i) s)) l s = .done t) :
    ∀ i ∈ l, ∃ a, c i s = .ok a := by
  induction l generalizing s with
  | nil => simp
  | cons j l ih =>
    obtain ⟨u, h1, h2⟩ := andThen_eq_done h
    obtain ⟨a, ha, h1⟩ := withCheck_eq_done h1
    cases h1
    intro i hi
    rcases List.mem_cons.1 hi with rfl | hi
    · exact ⟨a, by rw [hc] at ha; exact ha⟩
    · obtain ⟨a, ha⟩ := ih h2 i hi
      exact ⟨a, by rw [hc] at ha; exact ha⟩

/-- A configuration check that ended well has passed every descriptor and every code. -/
theorem checkConfig_done {b : Bool} {s t : State} (h : checkConfig b s = .done t) :
    (∀ i, i < s.patchCount.toNat → checkDesc s i = .ok ())
    ∧ ∀ j, j < s.codeCount.toNat → ∃ r, codeWriteOperands s j = .ok r := by
  unfold checkConfig at h
  obtain ⟨_, -, h⟩ := withCheck_eq_done h
  obtain ⟨u, h1, h2⟩ := andThen_eq_done h
  have d1 := forEach_checks (p := .config) (c := fun i s => checkDesc s i)
    (fun i q x s => checkDesc_congr (by simp) (by simp) i) h1
  have d2 := forEach_checks (p := .config) (c := fun j s => checkCode s.params (BitVec.ofNat 16 j) (codeEntryByte s j))
    (fun i q x s => by simp only [moveSeqIf_params, codeEntryByte_congr (moveSeqIf_ctab b q x s)]) h2
  have hu : ∃ i, u = moveSeqIf b .config i s := by
    refine (forEach_moves (b := b) (p := .config) (q := fun _ => True) (c := fun i s => checkDesc s i)
      (fun _ _ _ _ => trivial) (s0 := s) ⟨_, rfl⟩).1 u h1
  obtain ⟨x, rfl⟩ := hu
  refine ⟨fun i hi => ?_, fun j hj => ?_⟩
  · obtain ⟨a, ha⟩ := d1 i (by simpa using hi)
    rw [← checkDesc_congr (s := moveSeqIf b .config Config.noEntry s) (u := s) (by simp) (by simp) i]
    exact ha
  · obtain ⟨n, hn⟩ := d2 j (by simpa using hj)
    refine ⟨(decodeAddr n, decodeValue n, (decodeAddr n).toNat - 0x8000 + s.params.headerSize), ?_⟩
    rw [moveSeqIf_params, codeEntryByte_congr (moveSeqIf_ctab b .config x s)] at hn
    rw [codeWriteOperands, hn, check_bind_ok, codeTarget_eq]

/-! ### The turns of a run -/

/-- Nothing but WORK, the counters, OUTCOME and SEQ differs. -/
def RunFrame (s u : State) : Prop :=
  { u with work := s.work, outcome := s.outcome, appliedCnt := s.appliedCnt, failedCnt := s.failedCnt, seq := s.seq } = s

theorem RunFrame.refl (s : State) : RunFrame s s := rfl

theorem RunFrame.trans {s u w : State} (h1 : RunFrame s u) (h2 : RunFrame u w) : RunFrame s w := by
  unfold RunFrame at *
  rw [← h1]
  rw [← h2]

theorem RunFrame.fields {s u : State} (h : RunFrame s u) :
    u.cmd = s.cmd ∧ u.status = s.status ∧ u.errInfo = s.errInfo ∧ u.srcLen = s.srcLen ∧ u.patchCount = s.patchCount
      ∧ u.codeCount = s.codeCount ∧ u.seqPos = s.seqPos ∧ u.src = s.src ∧ u.ptab = s.ptab ∧ u.ctab = s.ctab
      ∧ u.params = s.params ∧ u.inputs = s.inputs := by
  rw [← h]
  exact ⟨rfl, rfl, rfl, rfl, rfl, rfl, rfl, rfl, rfl, rfl, rfl, rfl⟩

theorem StepsTo.frame {i : Nat} {s u : State} (h : StepsTo i s u) : RunFrame s u := by
  rcases h with rfl | ⟨w, rfl, rfl | ⟨off, bs, -, rfl⟩⟩ <;> rfl

/-- A patch turn (R172): it never raises, and leaves what a patch step leaves. -/
theorem runPatch_done {i : Nat} {s t : State} (h : runPatch i s = .done t) (hc : checkDesc s i = .ok ()) :
    StepsTo i (moveSeq .patch (BitVec.ofNat 16 i) s) t := by
  obtain ⟨⟨m, u⟩, hp, h⟩ := withCheck_eq_done h
  cases h
  have hc' : checkDesc (moveSeq .patch (BitVec.ofNat 16 i) s) i = .ok () :=
    (checkDesc_congr (u := s) rfl rfl i).trans hc
  rcases patchStep_cases hp hc' with ⟨-, h⟩ | ⟨-, w, h, hw⟩
  · exact .inl h
  · exact .inr ⟨w, h, hw⟩

theorem runPatch_ne_raised {i : Nat} {s t : State} {e : CmdError} : runPatch i s ≠ .raised e t := by
  intro h
  rcases withCheck_eq_raised h with ⟨_, -, h⟩ | ⟨h, -⟩
  · cases h
  · exact patchStep_raises _ i (fun _ => False) e h

/-- A code turn (R172): one cell of WORK behind the header. -/
theorem runCode_done {j : Nat} {s t : State} (h : runCode j s = .done t) :
    ∃ n, t = writeByte .work ((decodeAddr n).toNat - 0x8000 + s.params.headerSize) (decodeValue n)
      (moveSeq .code (BitVec.ofNat 16 j) s) := by
  obtain ⟨r, hp, h⟩ := withCheck_eq_done h
  cases h
  obtain ⟨n, rfl⟩ := codeWriteOperands_cases hp
  exact ⟨n, rfl⟩

/-- The patch phase, and what it keeps: every property that patch turns keep. -/
theorem runPatches_done {s0 s t : State} {p : State → Prop} {l : List Nat}
    (hd : ∀ i ∈ l, checkDesc s0 i = .ok ())
    (hp : ∀ i ∈ l, ∀ s u, RunFrame s0 s → p s → StepsTo i (moveSeq .patch (BitVec.ofNat 16 i) s) u → p u)
    (hf : RunFrame s0 s) (hs : p s) (h : forEach runPatch l s = .done t) : p t ∧ RunFrame s0 t := by
  induction l generalizing s with
  | nil => cases h; exact ⟨hs, hf⟩
  | cons i l ih =>
    obtain ⟨u, h1, h2⟩ := andThen_eq_done h
    have hsf := hf.fields
    have hst := runPatch_done h1 (by
      rw [checkDesc_congr (u := s0) hsf.2.2.2.2.2.2.2.2.1 hsf.2.2.2.2.2.2.2.2.2.2.1]
      exact hd i (by simp))
    exact ih (fun j hj => hd j (by simp [hj])) (fun j hj => hp j (by simp [hj]))
      ((hf.trans (u := s) (w := moveSeq .patch (BitVec.ofNat 16 i) s) rfl).trans hst.frame)
      (hp i (by simp) s u hf hs hst) h2

/-- The code phase, likewise. -/
theorem runCodes_done {s0 s t : State} {p : State → Prop} {l : List Nat}
    (hp : ∀ j ∈ l, ∀ s n, RunFrame s0 s → p s →
      p (writeByte .work ((decodeAddr n).toNat - 0x8000 + s0.params.headerSize) (decodeValue n)
        (moveSeq .code (BitVec.ofNat 16 j) s)))
    (hf : RunFrame s0 s) (hs : p s) (h : forEach runCode l s = .done t) : p t ∧ RunFrame s0 t := by
  induction l generalizing s with
  | nil => cases h; exact ⟨hs, hf⟩
  | cons j l ih =>
    obtain ⟨u, h1, h2⟩ := andThen_eq_done h
    obtain ⟨n, rfl⟩ := runCode_done h1
    rw [hf.fields.2.2.2.2.2.2.2.2.2.2.1] at h2
    exact ih (fun j hj => hp j (by simp [hj])) (hf.trans (w := writeByte .work _ _ (moveSeq .code (BitVec.ofNat 16 j) s)) rfl)
      (hp j (by simp) s n hf hs) h2

theorem forEach_runPatch_ne_raised {l : List Nat} {s t : State} {e : CmdError} : forEach runPatch l s ≠ .raised e t := by
  intro h
  induction l generalizing s with
  | nil => cases h
  | cons i l ih =>
    rcases andThen_eq_raised h with h | ⟨u, -, h⟩
    · exact runPatch_ne_raised h
    · exact ih h

/-- No code turn raises after a configuration check that passed (R170, R167). -/
theorem forEach_runCode_ne_raised {s0 : State} {l : List Nat} {s t : State} {e : CmdError} (hf : RunFrame s0 s)
    (hc : ∀ j ∈ l, ∃ r, codeWriteOperands s0 j = .ok r) : forEach runCode l s ≠ .raised e t := by
  intro h
  induction l generalizing s with
  | nil => cases h
  | cons j l ih =>
    rcases andThen_eq_raised h with h | ⟨u, h1, h2⟩
    · rcases withCheck_eq_raised h with ⟨_, -, h⟩ | ⟨h, -⟩
      · cases h
      · obtain ⟨r, hr⟩ := hc j (by simp)
        have hsf := hf.fields
        rw [codeWriteOperands_congr (s := moveSeq .code (BitVec.ofNat 16 j) s) (u := s0) hsf.2.2.2.2.2.2.2.2.2.1
          hsf.2.2.2.2.2.2.2.2.2.2.1, hr] at h
        cases h
    · obtain ⟨n, rfl⟩ := runCode_done h1
      exact ih (hf.trans (w := writeByte .work _ _ (moveSeq .code (BitVec.ofNat 16 j) s)) rfl)
        (fun j hj => hc j (by simp [hj])) h2

/-- The state in which the patch phase starts. -/
def runStart (s : State) : State := copyImage (moveSeq .format Config.noEntry (clearCounts (setOutputValid false s)))

/-- `u` is what the patch phase and the code phase of RUN leave. -/
def RunFolds (s u : State) : Prop :=
  (∀ i, i < s.patchCount.toNat → checkDesc s i = .ok ())
  ∧ (∀ j, j < s.codeCount.toNat → ∃ r, codeWriteOperands s j = .ok r)
  ∧ s.patchCount.toNat ≤ s.params.nPatchMax ∧ s.codeCount.toNat ≤ s.params.nCodeMax
  ∧ ∃ w, forEach runPatch (List.range s.patchCount.toNat) (runStart s) = .done w
      ∧ forEach runCode (List.range s.codeCount.toNat) w = .done u

/-- Every property the turns of a run keep holds of the state they leave, and nothing but WORK, the counters, OUTCOME and
SEQ differs from where the patch phase started. -/
theorem RunFolds.induct {s u : State} {p : State → Prop} (h : RunFolds s u) (h0 : p (runStart s))
    (hp : ∀ i, i < s.patchCount.toNat → ∀ v w, RunFrame (runStart s) v → p v →
      StepsTo i (moveSeq .patch (BitVec.ofNat 16 i) v) w → p w)
    (hc : ∀ j, j < s.codeCount.toNat → ∀ v n, RunFrame (runStart s) v → p v →
      p (writeByte .work ((decodeAddr n).toNat - 0x8000 + s.params.headerSize) (decodeValue n)
        (moveSeq .code (BitVec.ofNat 16 j) v))) :
    p u ∧ RunFrame (runStart s) u := by
  obtain ⟨hd, -, -, -, w, h1, h2⟩ := h
  obtain ⟨hw, hf⟩ := runPatches_done (s0 := runStart s) (fun i hi =>
    (checkDesc_congr (u := s) rfl rfl i).trans (hd i (by simpa using hi)))
    (fun i hi => hp i (by simpa using hi)) (.refl _) h0 h1
  exact runCodes_done (s0 := runStart s) (fun j hj => hc j (by simpa using hj)) hf hw h2

/-- A run of RUN's body that ends in its DONE phase, or before it. -/
theorem execRun_next {s t : State} (h : execRun s = .next t) :
    (∃ e p i, ((p = .config ∧ (e.code = .configError ∨ e.code = .invalidCode))
          ∨ (p = .format ∧ i = Config.noEntry ∧ e.code = .formatError)) ∧ e.Fits
        ∧ t = completeRaised e (latchSeq (moveSeq p i (clearCounts (setOutputValid false s)))))
    ∨ ∃ u, RunFolds s u ∧ ((u.appliedCnt = 0 ∧ t = completeRaised noneApplied (latchSeq (moveSeq .done 0 u)))
        ∨ (u.appliedCnt ≠ 0 ∧ t = complete false (latchSeq (setOutputValid true (moveSeq .done 0 u))))) := by
  have key : ∀ {v}, checkConfig true (clearCounts (setOutputValid false s)) = .done v →
      (∃ i, v = moveSeq .config i (clearCounts (setOutputValid false s)))
      ∧ (∀ i, i < s.patchCount.toNat → checkDesc s i = .ok ())
      ∧ (∀ j, j < s.codeCount.toNat → ∃ r, codeWriteOperands s j = .ok r)
      ∧ s.patchCount.toNat ≤ s.params.nPatchMax ∧ s.codeCount.toNat ≤ s.params.nCodeMax := by
    intro v hv
    have h1 := (checkConfig_cases true _).1 v hv
    have h2 := checkConfig_done hv
    exact ⟨h1.2, fun i hi => (checkDesc_congr (u := s) rfl rfl i).symm.trans (h2.1 i hi),
      fun j hj => by
        obtain ⟨r, hr⟩ := h2.2 j hj
        exact ⟨r, (codeWriteOperands_congr (u := s) rfl rfl j).symm.trans hr⟩,
      h1.1.1, h1.1.2⟩
  unfold execRun at h
  split at h
  · rename_i v hb
    cases h
    obtain ⟨c, hc, h1⟩ := andThen_eq_done hb
    obtain ⟨f, hf, h2⟩ := andThen_eq_done h1
    obtain ⟨w, hw, h3⟩ := andThen_eq_done h2
    obtain ⟨u, hu, h4⟩ := andThen_eq_done h3
    obtain ⟨⟨x, rfl⟩, k⟩ := key hc
    obtain ⟨_, -, hf⟩ := withCheck_eq_done hf
    cases hf
    have hwf : RunFrame (runStart s) w := (runPatches_done (s0 := runStart s) (p := fun _ => True) (fun i hi =>
      (checkDesc_congr (u := s) rfl rfl i).trans (k.1 i (by simpa using hi))) (fun _ _ _ _ _ _ _ => trivial) (.refl _)
      trivial hw).2
    rw [hwf.fields.2.2.2.2.2.1] at hu
    refine .inr ⟨u, ⟨k.1, k.2.1, k.2.2.1, k.2.2.2, w, hw, hu⟩, .inr ?_⟩
    simp only [runDone] at h4
    split at h4
    · cases h4
    · rename_i h0
      cases h4
      exact ⟨h0, rfl⟩
  · rename_i e v hb
    cases h
    rcases andThen_eq_raised hb with hc | ⟨c, hc, h1⟩
    · obtain ⟨g1, g2, i, rfl⟩ := (checkConfig_cases true _).2 e v hc
      exact .inl ⟨e, .config, i, .inl ⟨rfl, g1⟩, g2, rfl⟩
    · obtain ⟨⟨x, rfl⟩, k⟩ := key hc
      rcases andThen_eq_raised h1 with hf | ⟨f, hf, h2⟩
      · rcases withCheck_eq_raised hf with ⟨_, -, hv⟩ | ⟨hv, rfl⟩
        · cases hv
        · obtain ⟨r, rfl⟩ := validate_raises _ e hv
          exact .inl ⟨_, .format, Config.noEntry, .inr ⟨rfl, rfl, rfl⟩, fits_of_pos (by simp [formatError]) rfl, rfl⟩
      · obtain ⟨_, -, hf⟩ := withCheck_eq_done hf
        cases hf
        rcases andThen_eq_raised h2 with hw | ⟨w, hw, h3⟩
        · exact absurd hw forEach_runPatch_ne_raised
        · have hwf : RunFrame (runStart s) w := (runPatches_done (s0 := runStart s) (p := fun _ => True) (fun i hi =>
            (checkDesc_congr (u := s) rfl rfl i).trans (k.1 i (by simpa using hi))) (fun _ _ _ _ _ _ _ => trivial)
            (.refl _) trivial hw).2
          rw [hwf.fields.2.2.2.2.2.1] at h3
          rcases andThen_eq_raised h3 with hu | ⟨u, hu, h4⟩
          · exact absurd hu (forEach_runCode_ne_raised (s0 := runStart s) hwf fun j hj => by
              rw [codeWriteOperands_congr (s := runStart s) (u := s) rfl rfl]; exact k.2.1 j (List.mem_range.1 hj))
          · refine .inr ⟨u, ⟨k.1, k.2.1, k.2.2.1, k.2.2.2, w, hw, hu⟩, .inl ?_⟩
            simp only [runDone] at h4
            split at h4
            · rename_i h0
              cases h4
              exact ⟨h0, rfl⟩
            · cases h4
  · cases h

end Sys2Proof.Machine
end

