-- ==== Sys2Proof/Laws/Complete.lean ====
section
/-! SUPPORT. When commands cannot stop: on written memories no check meets the UNWRITTEN fault (10_state.md R44, U1), by one
lemma per check and per part of RUN. -/

namespace Sys2Proof.Machine

/-! ### Checks -/

theorem NoFault.ok {α} (a : α) : NoFault (.ok a : Check α) := fun f h => by cases h

theorem NoFault.raise {α} (e) : NoFault (.error (.raised e) : Check α) := fun f h => by cases h

theorem NoFault.bind {α β} {c : Check α} {k : α → Check β} (h : NoFault c) (hk : ∀ a, c = .ok a → NoFault (k a)) :
    NoFault (c >>= k) := by
  cases c with
  | ok a => exact hk a rfl
  | error x => cases x with
    | raised e => exact NoFault.raise e
    | faulted f => exact absurd rfl (h f)

theorem NoFault.require {c : Prop} [Decidable c] {e} : NoFault (require c e) := by
  unfold Machine.require Machine.raise; split
  · exact NoFault.ok _
  · exact NoFault.raise _

theorem NoFault.cell {s : State} {b k} (h : Written s b) (hk : k < bufSize s.params b) :
    NoFault (engineRead (readCell s b k)) := by
  obtain ⟨v, hv⟩ := h k hk
  rw [engineRead_cell hv]; exact NoFault.ok _

theorem NoFault.cells {s : State} {b k n} (h : Written s b) (hk : k + n ≤ bufSize s.params b) :
    NoFault (engineRead (readCells s b k n)) := by
  obtain ⟨v, hv⟩ := readCells_of_written (s := s) (b := b) (k := k) (n := n) (fun j h1 h2 => h j (by omega))
  rw [hv]; exact NoFault.ok _

theorem NoFault.field {s : State} {i b n} (h : Written s .ptab) (hi : i < s.params.nPatchMax) (hb : b + n ≤ 256) :
    NoFault (descField s i b n) := by
  obtain ⟨v, hv⟩ := readCells_of_written (s := s) (b := .ptab) (k := 256 * i + b) (n := n)
      (fun j h1 h2 => h j (by simp only [bufSize, Config.descSize]; omega))
  simp only [descField, Config.descSize, hv]; exact NoFault.ok _

theorem NoFault.ite {α} {c : Prop} [Decidable c] {a b : Check α} (ha : c → NoFault a) (hb : ¬c → NoFault b) :
    NoFault (if c then a else b) := by
  split
  · exact ha ‹_›
  · exact hb ‹_›

/-- The descriptor check reads the header of its slot only (44_orchestrator.md R161). -/
theorem noFault_checkDesc {s i} (h : Written s .ptab) (hi : i < s.params.nPatchMax) : NoFault (checkDesc s i) := by
  unfold checkDesc checkSingle checkRegion
  refine NoFault.bind (NoFault.field h hi (by omega)) fun _ _ => NoFault.bind NoFault.require fun _ _ =>
      NoFault.bind (NoFault.field h hi (by omega)) fun _ _ => NoFault.bind NoFault.require fun _ _ => NoFault.bind
      (NoFault.field h hi (by omega)) fun _ _ => NoFault.bind NoFault.require fun _ _ => NoFault.ite (fun _ => ?_)
      (fun _ => ?_)
  · exact NoFault.bind NoFault.require fun _ _ => NoFault.bind (NoFault.field h hi (by omega)) fun _ _ =>
      NoFault.require
  · exact NoFault.bind (NoFault.field h hi (by omega)) fun _ _ => NoFault.bind NoFault.require fun _ _ =>
      NoFault.bind (NoFault.field h hi (by omega)) fun _ _ => NoFault.bind NoFault.require fun _ _ =>  NoFault.bind
      (NoFault.field h hi (by omega)) fun _ _ => NoFault.require

/-- An index outside the table is refused before anything is read (R162). -/
theorem noFault_checkPatch {s i} (h : Written s .ptab) : NoFault (checkPatch s i) := by
  refine NoFault.bind NoFault.require fun _ h1 => noFault_checkDesc h (require_eq_ok h1).2

/-- EXP_LEN of a descriptor that passed its check (R161). -/
theorem expLen_le_of_checkDesc {s i n} (h : checkDesc s i = .ok ()) (hn : descExpLen s i = .ok n) : n ≤ 120 := by
  unfold checkDesc at h
  obtain ⟨_, _, h⟩ := check_bind_eq_ok.1 h
  obtain ⟨_, _, h⟩ := check_bind_eq_ok.1 h
  obtain ⟨_, _, h⟩ := check_bind_eq_ok.1 h
  obtain ⟨_, _, h⟩ := check_bind_eq_ok.1 h
  obtain ⟨m, hm, h⟩ := check_bind_eq_ok.1 h
  obtain ⟨_, hr, h⟩ := check_bind_eq_ok.1 h
  rw [hn] at hm; cases hm
  exact require_eq_ok hr

/-- NEW_LEN of a REGION descriptor that passed its check (R161). -/
theorem newLen_le_of_checkDesc {s i n k} (h : checkDesc s i = .ok ()) (hk : descKind s i = .ok k) (h0 : k ≠ 0)
    (hn : descNewLen s i = .ok n) : n ≤ 120 := by
  unfold checkDesc at h
  obtain ⟨k', hk', h⟩ := check_bind_eq_ok.1 h
  rw [hk] at hk'; cases hk'
  obtain ⟨_, _, h⟩ := check_bind_eq_ok.1 h
  obtain ⟨_, _, h⟩ := check_bind_eq_ok.1 h
  obtain ⟨_, _, h⟩ := check_bind_eq_ok.1 h
  obtain ⟨m, hm, h⟩ := check_bind_eq_ok.1 h
  obtain ⟨_, hr, h⟩ := check_bind_eq_ok.1 h
  rw [if_neg h0] at h
  unfold checkRegion at h
  obtain ⟨m, hm, h⟩ := check_bind_eq_ok.1 h
  obtain ⟨_, hr, h⟩ := check_bind_eq_ok.1 h
  rw [hn] at hm; cases hm
  exact require_eq_ok hr

/-- A window inside the image (42_context_verifier.md R130). -/
theorem noFault_matchFrom {s : State} (hw : Written s .work) (hp : Written s .ptab) :
    ∀ n off base, off + n ≤ s.params.imageLen → base + n ≤ 256 * s.params.nPatchMax → NoFault
    (matchFrom s off base n) := by
  intro n
  induction n with
  | zero => intros; exact NoFault.ok _
  | succ n ih =>
    intro off base h1 h2
    exact NoFault.bind (NoFault.cell hw (by simp only [bufSize]; omega)) fun _ _ => NoFault.bind
        (NoFault.cell hp (by simp only [bufSize, Config.descSize]; omega)) fun _ _ => NoFault.ite
        (fun _ => ih _ _ (by omega) (by omega)) (fun _ => NoFault.ok _)

theorem noFault_matchPatch {s i} (hw : Written s .work) (hp : Written s .ptab) (hi : i < s.params.nPatchMax)
    (hd : checkDesc s i = .ok ()) : NoFault (matchPatch s i) := by
  refine NoFault.bind (NoFault.field hp hi (by omega)) fun off _ => NoFault.bind (NoFault.field hp hi (by omega))
      fun n hn => ?_
  have := expLen_le_of_checkDesc hd hn
  exact NoFault.ite (fun _ => NoFault.ok _) fun _ => NoFault.ite (fun _ => NoFault.ok _) fun _ =>
      noFault_matchFrom hw hp _ _ _ (by omega) (by simp only [expectedBase, Config.descSize]; omega)

/-- The single form of a checked descriptor (43_patch_applier.md R140). -/
theorem noFault_applySinglePatch {s i} (hw : Written s .work) (hp : Written s .ptab) (hi : i < s.params.nPatchMax)
    (hd : checkDesc s i = .ok ()) (hk : descKind s i = .ok 0) : NoFault (applySinglePatch i s) := by
  refine NoFault.bind (NoFault.field hp hi (by omega)) fun off ho => NoFault.bind
      (NoFault.cell hp (by simp only [bufSize, expectedBase, Config.descSize]; omega)) fun _ _ => NoFault.bind
      (NoFault.cell hp (by simp only [bufSize, Config.descSize]; omega)) fun _ _ => NoFault.bind
      (NoFault.cell hw ((checkDesc_bounds hd ho).2.1 hk)) fun _ _ => NoFault.ite (fun _ => NoFault.ok _)
      (fun _ => NoFault.ok _)

/-- The region form of a checked descriptor (R142). -/
theorem noFault_applyRegionPatch {s i k} (hp : Written s .ptab) (hi : i < s.params.nPatchMax)
    (hd : checkDesc s i = .ok ()) (hk : descKind s i = .ok k) (h0 : k ≠ 0) : NoFault (applyRegionPatch i s) := by
  refine NoFault.bind (NoFault.field hp hi (by omega)) fun off ho => NoFault.bind (NoFault.field hp hi (by omega))
      fun n hn => NoFault.bind
      (NoFault.cells hp (by have := newLen_le_of_checkDesc hd hk h0 hn; simp only [bufSize, newCodeBase, Config.descSize]; omega)) fun _ _ => NoFault.bind (NoFault.field hp hi (by omega)) fun _ _ => NoFault.bind (NoFault.cell hp (by simp only [bufSize, Config.descSize]; omega)) fun _ _ => NoFault.ok _

/-- A patch step on a checked descriptor (44_orchestrator.md R165). -/
theorem noFault_patchStep {s i} (hw : Written s .work) (hp : Written s .ptab) (hi : i < s.params.nPatchMax)
    (hd : checkDesc s i = .ok ()) : NoFault (patchStep i s) := by
  refine NoFault.bind (noFault_matchPatch hw hp hi hd) fun m _ => NoFault.ite
      (fun _ => NoFault.bind ?_ fun _ _ => NoFault.ok _) (fun _ => NoFault.ok _)
  refine NoFault.bind (NoFault.field hp hi (by omega)) fun k hk => NoFault.ite
      (fun h => NoFault.bind (noFault_applySinglePatch hw hp hi hd (by rw [← h]; exact hk)) fun _ _ => NoFault.ok _) (fun h => noFault_applyRegionPatch hp hi hd hk h)

/-- The code check, on an entry whose bytes are written (40_codec.md R101). -/
theorem noFault_checkCode {P index} {entry : Nat → Check Byte} (h : ∀ b, b < 8 → NoFault (entry b)) :
    NoFault (checkCode P index entry) := by
  have sy : ∀ k, k < 6 → NoFault (checkSymbol P index entry k) := by
    intro k hk
    refine NoFault.bind (h _ (by omega)) fun ch _ => ?_
    cases sym P ch with
    | none => exact NoFault.raise _
    | some n => exact NoFault.ok _
  unfold checkCode
  exact NoFault.bind (h _ (by omega)) fun _ _ => NoFault.bind NoFault.require fun _ _ => NoFault.bind
      (sy 0 (by omega)) fun _ _ => NoFault.bind (sy 1 (by omega)) fun _ _ => NoFault.bind (sy 2 (by omega))
      fun _ _ => NoFault.bind (sy 3 (by omega)) fun _ _ => NoFault.bind (sy 4 (by omega)) fun _ _ => NoFault.bind
      (sy 5 (by omega)) fun _ _ => NoFault.ok _

theorem noFault_codeEntryByte {s : State} {j} (h : Written s .ctab) (hj : j < s.params.nCodeMax) : ∀ b, b < 8 →
    NoFault (codeEntryByte s j b) := fun b hb => NoFault.cell h
    (by simp only [bufSize, Config.codeEntrySize]; omega)

/-- The operands of a code write (R167). -/
theorem noFault_codeWriteOperands {s : State} {j} (h : Written s .ctab) (hj : j < s.params.nCodeMax) :
    NoFault (codeWriteOperands s j) := by
  refine NoFault.bind (noFault_checkCode (noFault_codeEntryByte h hj)) fun n _ => ?_
  rw [codeTarget_eq]; exact NoFault.ok _

/-- The validation function (41_image_validator.md R120). -/
theorem noFault_validate {s : State} (hP : s.params.wf = true) (h : Written s .src) : NoFault (validate s) := by
  have hb := wf_bounds hP
  have mg : ∀ (l : List Byte) k, k + l.length ≤ s.params.imageLen → NoFault (checkMagic s k l) := by
    intro l
    induction l with
    | nil => intros; exact NoFault.ok _
    | cons b t ih =>
      intro k hk
      simp at hk
      exact NoFault.bind (NoFault.cell h (by simp only [bufSize]; omega))
        fun _ _ => NoFault.bind NoFault.require fun _ _ => ih _ (by omega)
  exact NoFault.bind NoFault.require fun _ _ => NoFault.bind (mg _ _ (by omega)) fun _ _ => NoFault.bind
      (NoFault.cell h (by simp only [bufSize]; omega)) fun _ _ => NoFault.bind NoFault.require fun _ _ =>
      NoFault.bind (NoFault.cell h (by simp only [bufSize]; omega)) fun _ _ => NoFault.require

/-- A command whose checks cannot stop answers a next state. -/
theorem runCheck_next_of_noFault {α} {s : State} {c : Check α} {k : α → Host.Outcome State Fault Refusal}
    (h : NoFault c) (hk : ∀ a, ∃ t, k a = .next t) : ∃ t, runCheck s c k = .next t := by
  cases c with
  | ok a => exact hk a
  | error x => cases x with
    | raised e => exact ⟨_, rfl⟩
    | faulted f => exact absurd rfl (h f)

/-! ### Parts of commands that write -/

/-- The part ends or raises; it does not stop. -/
def RunResult.Completes (r : RunResult) : Prop := ∀ f, r ≠ .faulted f
theorem completes_withCheck {α} {s : State} {c : Check α} {k : α → RunResult} (h : NoFault c)
    (hk : ∀ a, c = .ok a → RunResult.Completes (k a)) : RunResult.Completes (withCheck s c k) := by
  cases c with
  | ok a => exact hk a rfl
  | error x => cases x with
    | raised e => intro f h; cases h
    | faulted f => exact absurd rfl (h f)
theorem completes_andThen {r : RunResult} {k} (h : RunResult.Completes r)
    (hk : ∀ s, r = .done s → RunResult.Completes (k s)) : RunResult.Completes (andThen r k) := by
  cases r with
  | done s => exact hk s rfl
  | raised e s => intro f h; cases h
  | faulted f => exact absurd rfl (h f)
theorem completes_done (s) : RunResult.Completes (.done s) := fun f h => by cases h

/-! ### Written memories -/

theorem written_same {s u : State} {b} (h : Written s b) (hp : u.params = s.params)
    (hm : getMem u b = getMem s b) : Written u b := by
  intro k hk
  rw [hp] at hk
  obtain ⟨v, hv⟩ := h k hk
  exact ⟨v, by simpa [byteAt, hm] using hv⟩

theorem written_writeBytes {s : State} {o bs} (h : Written s .work) : Written (writeBytes .work o bs s) .work := by
  intro k hk
  by_cases hin : o ≤ k ∧ k < o + bs.length
  · obtain ⟨m, rfl⟩ : ∃ m, k = o + m := ⟨k - o, by omega⟩
    rw [byteAt_writeBytes_inside rfl (by omega)]
    exact ⟨_, List.getElem?_eq_getElem (by omega)⟩
  · rw [byteAt_writeBytes_outside (by right; omega)]
    exact h k (by simpa using hk)

theorem written_steps {i s u} (h : Written s .work) (hs : StepsTo i s u) : Written u .work := by
  rcases hs with rfl | ⟨w, rfl, rfl | ⟨off, bs, -, rfl⟩⟩
  · exact written_same h rfl rfl
  · exact written_same h rfl rfl
  · exact written_same (written_writeBytes (o := off) (bs := bs) h) rfl rfl

/-- The configuration check (R164): the counts bound every index it reads. -/
theorem completes_checkConfig {b : Bool} {s : State} (hl : Loaded s) : RunResult.Completes (checkConfig b s) := by
  unfold checkConfig
  have hcc : NoFault (checkCounts (moveSeqIf b .config Config.noEntry s)) := NoFault.bind NoFault.require
      fun _ _ => NoFault.require
  refine completes_withCheck hcc fun _ hc => ?_
  obtain ⟨_, h1, h2⟩ := check_bind_eq_ok.1 hc
  have h1 := require_eq_ok h1
  have h2 := require_eq_ok h2
  have lw : ∀ x b', Written (moveSeqIf b .config x s) b' := fun x b' => written_same (hl b') (by simp)
      (by cases b <;> cases b' <;> rfl)
  have d : ∀ (l : List Nat) (x : BitVec 16), (∀ i ∈ l, i < s.params.nPatchMax) → RunResult.Completes
      (forEach (configDesc b) l (moveSeqIf b .config x s)) := by
    intro l
    induction l with
    | nil => intros; exact completes_done _
    | cons i l ih =>
      intro x hx
      refine completes_andThen
          (completes_withCheck (noFault_checkDesc (s := moveSeqIf b .config (BitVec.ofNat 16 i) (moveSeqIf b .config x s)) ?_ ?_) fun _ _ => completes_done _) fun t ht => ?_
      · rw [moveSeqIf_moveSeqIf]; exact lw _ _
      · simpa using hx i (by simp)
      · obtain ⟨_, -, ht⟩ := withCheck_eq_done ht
        cases ht
        simp only [moveSeqIf_moveSeqIf]
        exact ih _ (fun j hj => hx j (by simp [hj]))
  have c : ∀ (l : List Nat) (x : BitVec 16), (∀ i ∈ l, i < s.params.nCodeMax) → RunResult.Completes
      (forEach (configCode b) l (moveSeqIf b .config x s)) := by
    intro l
    induction l with
    | nil => intros; exact completes_done _
    | cons i l ih =>
      intro x hx
      refine completes_andThen
          (completes_withCheck (noFault_checkCode (noFault_codeEntryByte (s := moveSeqIf b .config (BitVec.ofNat 16 i) (moveSeqIf b .config x s)) ?_ ?_)) fun _ _ => completes_done _) fun t ht => ?_
      · rw [moveSeqIf_moveSeqIf]; exact lw _ _
      · simpa using hx i (by simp)
      · obtain ⟨_, -, ht⟩ := withCheck_eq_done ht
        cases ht
        simp only [moveSeqIf_moveSeqIf]
        exact ih _ (fun j hj => hx j (by simp [hj]))
  refine completes_andThen (d _ _ (fun i hi => by simp at hi h1; omega)) fun t ht => ?_
  obtain ⟨x, rfl⟩ := (forEach_moves (b := b) (p := .config) (q := fun _ => True) (c := fun i s => checkDesc s i)
      (fun _ _ _ _ => trivial) (s0 := s) ⟨_, rfl⟩).1 t ht
  exact c _ _ (fun i hi => by simp at hi h2; omega)

/-- Written memories stay written under changes of registers. -/
theorem loaded_same {s u : State} (hl : Loaded s) (hp : u.params = s.params) (h1 : u.src = s.src)
    (h2 : u.ptab = s.ptab) (h3 : u.ctab = s.ctab) (h4 : u.work = s.work) : Loaded u := by
  intro b
  cases b
  case outcome =>
    intro k hk
    have : ∀ m : Memory, ∃ v, memRead (some 0) m k = some v := by
      intro m
      induction m with
      | nil => exact ⟨0, rfl⟩
      | cons c t ih => obtain ⟨a, b⟩ := c; simp only [memRead]; exact (by
        split
        · exact ⟨_, rfl⟩
        · exact ih)
    exact this _
  all_goals exact written_same (hl _) hp (by simp only [getMem]; assumption)

/-- RUN (R172) on a wholly written block. -/
theorem completes_runBody {s : State} (hP : s.params.wf = true) (hl : Loaded s) : RunResult.Completes
    (runBody s) := by
  have hl2 : Loaded (clearCounts (setOutputValid false s)) := loaded_same hl rfl rfl rfl rfl rfl
  refine completes_andThen (completes_checkConfig hl2) fun t ht => ?_
  obtain ⟨⟨hc1, hc2⟩, x, rfl⟩ := (checkConfig_cases true _).1 t ht
  have hdn := checkConfig_done ht
  refine completes_andThen
      (completes_withCheck (noFault_validate (s := moveSeq .format Config.noEntry (moveSeq .config x (clearCounts (setOutputValid false s)))) hP (loaded_same hl rfl rfl rfl rfl rfl .src)) fun _ _ => completes_done _) fun t ht => ?_
  obtain ⟨_, -, ht⟩ := withCheck_eq_done ht
  cases ht
  have hst : Loaded (runStart s) := by
    intro b
    cases b
    case work =>
      intro k hk
      obtain ⟨v, hv⟩ := hl .src k hk
      exact ⟨v, (memRead_filter hk).trans hv⟩
    case outcome => intro k hk; exact ⟨0, rfl⟩
    all_goals exact written_same (hl _) rfl rfl
  have hd : ∀ i, i < s.patchCount.toNat → checkDesc (runStart s) i = .ok () := fun i hi =>
      (checkDesc_congr rfl rfl i).trans (hdn.1 i hi)
  have pl : ∀ (l : List Nat) (v : State), (∀ i ∈ l, i < s.patchCount.toNat) → RunFrame (runStart s) v →
      Written v .work → RunResult.Completes (forEach runPatch l v) ∧ ∀ w, forEach runPatch l v = .done w → RunFrame
      (runStart s) w ∧ Written w .work := by
    intro l
    induction l with
    | nil => intro v _ hf hw; exact ⟨completes_done _, fun w h => by cases h; exact ⟨hf, hw⟩⟩
    | cons i l ih =>
      intro v hx hf hw
      have ff := hf.fields
      have hi := hx i (by simp)
      have hdv : checkDesc v i = .ok () :=
          by rw [checkDesc_congr (u := runStart s) ff.2.2.2.2.2.2.2.2.1 ff.2.2.2.2.2.2.2.2.2.2.1]; exact hd i hi
      have hpt : Written v .ptab := written_same (hst .ptab) ff.2.2.2.2.2.2.2.2.2.2.1 ff.2.2.2.2.2.2.2.2.1
      have hnf : RunResult.Completes (runPatch i v) := completes_withCheck
          (noFault_patchStep (s := moveSeq .patch (BitVec.ofNat 16 i) v) (written_same hw rfl rfl) (written_same hpt rfl rfl) (by
        have : (moveSeq .patch (BitVec.ofNat 16 i) v).params = s.params := ff.2.2.2.2.2.2.2.2.2.2.1
        rw [this]; exact Nat.lt_of_lt_of_le hi hc1) ((checkDesc_congr rfl rfl i).trans
            hdv)) fun _ _ => completes_done _
      have nxt : ∀ u, runPatch i v = .done u → RunFrame (runStart s) u ∧ Written u .work := fun u hu => by
        have hs := runPatch_done hu hdv
        exact ⟨(hf.trans (w := moveSeq .patch (BitVec.ofNat 16 i) v) rfl).trans hs.frame, written_steps (written_same (u := moveSeq .patch (BitVec.ofNat 16 i) v) hw rfl rfl) hs⟩
      refine ⟨completes_andThen hnf fun u hu => (ih u (fun j hj => hx j (by simp [hj])) (nxt u hu).1 (nxt u hu).2).1, fun w h => ?_⟩
      obtain ⟨u, hu, h⟩ := andThen_eq_done h
      exact (ih u (fun j hj => hx j (by simp [hj])) (nxt u hu).1 (nxt u hu).2).2 w h
  have cl : ∀ (l : List Nat) (v : State), (∀ i ∈ l, i < s.codeCount.toNat) → RunFrame (runStart s) v →
      RunResult.Completes (forEach runCode l v) := by
    intro l
    induction l with
    | nil => intro v _ hf; exact completes_done _
    | cons i l ih =>
      intro v hx hf
      have ff := hf.fields
      have hi := hx i (by simp)
      have hct : Written v .ctab := written_same (hst .ctab) ff.2.2.2.2.2.2.2.2.2.2.1 ff.2.2.2.2.2.2.2.2.2.1
      have hnf : RunResult.Completes (runCode i v) := completes_withCheck
          (noFault_codeWriteOperands (s := moveSeq .code (BitVec.ofNat 16 i) v) (written_same hct rfl rfl) (by
        have : (moveSeq .code (BitVec.ofNat 16 i) v).params = s.params := ff.2.2.2.2.2.2.2.2.2.2.1
        rw [this]; exact Nat.lt_of_lt_of_le hi hc2)) fun _ _ => completes_done _
      refine completes_andThen hnf fun u hu => ih u (fun j hj => hx j (by simp [hj])) ?_
      obtain ⟨n, rfl⟩ := runCode_done hu
      exact hf.trans (w := writeByte .work _ _ (moveSeq .code (BitVec.ofNat 16 i) v)) rfl
  obtain ⟨q1, q2⟩ := pl (List.range s.patchCount.toNat) (runStart s) (fun i hi => by simpa using hi) (.refl _)
      (hst .work)
  refine completes_andThen q1 fun w hw => ?_
  obtain ⟨fw, -⟩ := q2 w hw
  refine completes_andThen (cl _ _ (fun i hi => by rw [fw.fields.2.2.2.2.2.1] at hi; exact List.mem_range.1 hi) fw)
      fun u hu => ?_
  unfold runDone
  simp only
  split
  · intro f h; cases h
  · exact completes_done _

end Sys2Proof.Machine
end

