-- ==== Sys2Proof/Laws/ConfigCheck.lean ====
section
/-! SUPPORT. What the configuration check answers (44_orchestrator.md R164), forwards: all checks pass, or the first failing
one is raised. -/

namespace Sys2Proof.Machine

/-- A loop of checks that all pass ends well, SEQ on the last. -/
theorem forEach_checks_pass {b : Bool} {p : Phase} {α : Type} {c : Nat → State → Check α}
    (hc : ∀ i q x s, c i (moveSeqIf b q x s) = c i s) {l : List Nat} {s : State} {x0 : BitVec 16}
    (h : ∀ i ∈ l, ∃ a, c i s = .ok a) :
    ∃ x, forEach (fun i s => withCheck (moveSeqIf b p (BitVec.ofNat 16 i) s)
        (c i (moveSeqIf b p (BitVec.ofNat 16 i) s)) fun _ => .done
            (moveSeqIf b p (BitVec.ofNat 16 i) s)) l (moveSeqIf b p x0 s) = .done (moveSeqIf b p x s) := by
  induction l generalizing x0 with
  | nil => exact ⟨x0, rfl⟩
  | cons j l ih =>
    obtain ⟨a, ha⟩ := h j (by simp)
    simp only [forEach_cons, moveSeqIf_moveSeqIf, hc, ha, withCheck_ok, andThen_done]
    have := ih (x0 := BitVec.ofNat 16 j) (fun i hi => h i (by simp [hi]))
    simpa only [moveSeqIf_moveSeqIf, hc] using this

/-- A loop of checks ends at the first that raises, SEQ on it. -/
theorem forEach_checks_first {b : Bool} {p : Phase} {α : Type} {c : Nat → State → Check α}
    (hc : ∀ i q x s, c i (moveSeqIf b q x s) = c i s) {l l' : List Nat} {s : State} {x0 : BitVec 16} {i : Nat}
        {e : CmdError}
    (h : ∀ i ∈ l, ∃ a, c i s = .ok a) (he : c i s = .error (.raised e)) :
    forEach (fun i s => withCheck (moveSeqIf b p (BitVec.ofNat 16 i) s)
        (c i (moveSeqIf b p (BitVec.ofNat 16 i) s)) fun _ => .done
            (moveSeqIf b p (BitVec.ofNat 16 i) s)) (l ++ i :: l') (moveSeqIf b p x0 s) = .raised e (moveSeqIf b p
            (BitVec.ofNat 16 i) s) := by
  obtain ⟨x, hx⟩ := forEach_checks_pass (p := p) (x0 := x0) hc h
  rw [forEach_append, hx, andThen_done, forEach_cons]
  simp only [moveSeqIf_moveSeqIf, hc, he, withCheck_raised, andThen_raised]

/-- The indices before `i`, `i`, and those after it. -/
theorem range_split {i n : Nat} (h : i < n) : List.range n = List.range i ++ i ::
    (List.range' (i+1) (n - i - 1)) := by
  apply List.ext_getElem?
  intro k
  rw [List.getElem?_append]
  by_cases h1 : k < i
  · simp [h1]; rw [List.getElem?_range (by omega)]
  · simp [h1]
    by_cases h2 : k = i
    · subst h2; simp [h]
    · obtain ⟨m, rfl⟩ : ∃ m, k = i + 1 + m := ⟨k - i - 1, by omega⟩
      rw [show i + 1 + m - i = m + 1 by omega]
      simp only [List.getElem?_cons_succ]
      by_cases h3 : i + 1 + m < n
      · rw [List.getElem?_range h3, List.getElem?_range' (by omega)]; simp
      · rw [List.getElem?_eq_none (by simp; omega), List.getElem?_eq_none (by simp; omega)]

theorem configDesc_eq (b : Bool) : configDesc b = fun i s => withCheck (moveSeqIf b .config (BitVec.ofNat 16 i) s)
      (checkDesc (moveSeqIf b .config (BitVec.ofNat 16 i) s) i) fun _ => .done
          (moveSeqIf b .config (BitVec.ofNat 16 i) s) := rfl

theorem configCode_eq (b : Bool) : configCode b = fun j s => withCheck (moveSeqIf b .config (BitVec.ofNat 16 j) s)
      ((fun j s => checkCode s.params (BitVec.ofNat 16 j) (codeEntryByte s j)) j (moveSeqIf b .config (BitVec.ofNat 16 j) s)) fun _ => .done (moveSeqIf b .config (BitVec.ofNat 16 j) s) := rfl

theorem checkDesc_moveSeqIf (b : Bool) : ∀ i q x s, checkDesc (moveSeqIf b q x s) i = checkDesc s i :=
    fun i q x s => checkDesc_congr (by simp) (by simp) i

theorem checkCode_moveSeqIf (b : Bool) : ∀ j q x s,
    (fun j s => checkCode s.params (BitVec.ofNat 16 j) (codeEntryByte s j)) j (moveSeqIf b q x s) =
    (fun j (s : State) => checkCode s.params (BitVec.ofNat 16 j) (codeEntryByte s j)) j s := 
  fun i q x s => by simp only [moveSeqIf_params, codeEntryByte_congr (moveSeqIf_ctab b q x s)]

/-- The two counts fit their tables (44_orchestrator.md R164). -/
theorem checkCounts_ok {s : State} (h1 : s.patchCount.toNat ≤ s.params.nPatchMax)
    (h2 : s.codeCount.toNat ≤ s.params.nCodeMax) : checkCounts s = .ok () := by
  unfold checkCounts; rw [require_of_true h1, check_bind_ok, require_of_true h2]

/-- A configuration without a failing check passes (R164). -/
theorem checkConfig_pass {b : Bool} {s : State} (h1 : s.patchCount.toNat ≤ s.params.nPatchMax)
    (h2 : s.codeCount.toNat ≤ s.params.nCodeMax)
   (hd : ∀ i, i < s.patchCount.toNat → checkDesc s i = .ok ())
       (hc : ∀ j, j < s.codeCount.toNat → ∃ n, checkCode s.params (BitVec.ofNat 16 j) (codeEntryByte s j) = .ok n) :
   ∃ x, checkConfig b s = .done (moveSeqIf b .config x s) := by
  unfold checkConfig
  rw [configDesc_eq, configCode_eq]
  simp only
  rw [checkCounts_ok (by simpa using h1) (by simpa using h2), withCheck_ok]
  obtain ⟨x, hx⟩ := forEach_checks_pass (b := b) (p := .config) (c := fun i s => checkDesc s i)
      (checkDesc_moveSeqIf b) (l := List.range (moveSeqIf b .config Config.noEntry s).patchCount.toNat) (s := s)
      (x0 := Config.noEntry) (fun i hi => ⟨(), hd i (by simpa using hi)⟩)
  rw [hx, andThen_done]
  exact forEach_checks_pass (b := b) (p := .config)
      (c := fun j s => checkCode s.params (BitVec.ofNat 16 j) (codeEntryByte s j)) (checkCode_moveSeqIf b)
      (l := List.range (moveSeqIf b .config x s).codeCount.toNat) (fun i hi => hc i (by simpa using hi))

/-- The first descriptor that raises ends the configuration check (R164). -/
theorem checkConfig_desc {b : Bool} {s : State} (h1 : s.patchCount.toNat ≤ s.params.nPatchMax)
    (h2 : s.codeCount.toNat ≤ s.params.nCodeMax) {i e}
   (hi : i < s.patchCount.toNat) (hd : ∀ j, j < i → checkDesc s j = .ok ())
       (he : checkDesc s i = .error (.raised e)) :
   checkConfig b s = .raised e (moveSeqIf b .config (BitVec.ofNat 16 i) s) := by
  unfold checkConfig
  rw [configDesc_eq, configCode_eq]
  simp only
  rw [checkCounts_ok (by simpa using h1) (by simpa using h2), withCheck_ok]
  rw [range_split (i := i) (by simpa using hi)]
  have := forEach_checks_first (b := b) (p := .config) (c := fun i s => checkDesc s i) (checkDesc_moveSeqIf b)
      (l := List.range i) (l' := (List.range' (i+1) ((moveSeqIf b .config Config.noEntry s).patchCount.toNat - i - 1))) (s := s) (x0 := Config.noEntry) (e := e) (i := i) (fun j hj => ⟨(), hd j (by simpa using hj)⟩) he
  rw [this, andThen_raised]

/-- With every descriptor valid, the first code that raises ends it (R164). -/
theorem checkConfig_code {b : Bool} {s : State} (h1 : s.patchCount.toNat ≤ s.params.nPatchMax)
    (h2 : s.codeCount.toNat ≤ s.params.nCodeMax) {j e}
   (hd : ∀ i, i < s.patchCount.toNat → checkDesc s i = .ok ())
   (hj : j < s.codeCount.toNat)
       (hc : ∀ i, i < j → ∃ n, checkCode s.params (BitVec.ofNat 16 i) (codeEntryByte s i) = .ok n)
       (he : checkCode s.params (BitVec.ofNat 16 j) (codeEntryByte s j) = .error (.raised e)) :
   checkConfig b s = .raised e (moveSeqIf b .config (BitVec.ofNat 16 j) s) := by
  unfold checkConfig
  rw [configDesc_eq, configCode_eq]
  simp only
  rw [checkCounts_ok (by simpa using h1) (by simpa using h2), withCheck_ok]
  obtain ⟨x, hx⟩ := forEach_checks_pass (b := b) (p := .config) (c := fun i s => checkDesc s i)
      (checkDesc_moveSeqIf b) (l := List.range (moveSeqIf b .config Config.noEntry s).patchCount.toNat) (s := s)
      (x0 := Config.noEntry) (fun i hi => ⟨(), hd i (by simpa using hi)⟩)
  rw [hx, andThen_done]
  rw [range_split (i := j) (by simpa using hj)]
  exact forEach_checks_first (b := b) (p := .config)
      (c := fun j s => checkCode s.params (BitVec.ofNat 16 j) (codeEntryByte s j)) (checkCode_moveSeqIf b)
      (l := List.range j) (fun i hi => hc i (by simpa using hi)) he

end Sys2Proof.Machine
end

