-- ==== Sys2Proof/Laws/Image.lean ====
section
/-! SUPPORT. The engine's operations on a buffer that holds a whole image, in the source's terms (Reference.lean). -/

namespace Sys2Proof.Machine

/-- A window of an image is where its cells are. -/
theorem cellsAt_window {s : State} {im : List Byte} (h : CellsAt s .work 0 im) (o n : Nat) : CellsAt s .work o
    ((im.drop o).take n) := by
  intro j hj
  simp at hj
  have := h (o + j) (by omega)
  simp at this
  rw [this]; simp [hj]

/-- On a whole image the window match is the source's `verify` (42_context_verifier.md R130). -/
theorem matchPatch_of_image {s : State} {i : Nat} {p : Patch} {im : List Byte} (h : PatchAt s i p)
    (hi : ImageAt s .work im) : matchPatch s i = .ok (verifyWindow im p.offset p.expected) := by
  obtain ⟨hl, hc⟩ := hi
  by_cases h0 : p.expected = []
  · have := matchPatch_of_window h (win := []) (by simp [h0]) (.inl h0) (by intro j hj; simp at hj)
    rw [this]; simp [verifyWindow, h0]
  · by_cases hb : p.offset + p.expected.length ≤ s.params.imageLen
    · exact matchPatch_of_window h (win := (im.drop p.offset).take p.expected.length) (by simp; omega) (.inr hb)
        (cellsAt_window hc _ _)
    · rw [matchPatch_outside h h0 (by omega)]
      congr 1
      symm
      simp only [verifyWindow, beq_eq_false_iff_ne, ne_eq]
      intro e
      have := congrArg List.length e
      rw [List.length_take, List.length_drop] at this
      have h0' : p.expected.length ≠ 0 := by simpa using h0
      omega

/-- One cell written, on a whole image. -/
theorem imageAt_writeByte {s : State} {im : List Byte} {o : Nat} {v : Byte} (h : ImageAt s .work im) : ImageAt
    (writeByte .work o v s) .work (im.set o v) := by
  obtain ⟨hl, hc⟩ := h
  refine ⟨by simpa using hl, fun j hj => ?_⟩
  simp at hj
  have := hc j hj
  by_cases e : j = o
  · subst e; simp only [Nat.zero_add]; rw [byteAt_writeByte_same rfl]; simp [hj]
  · rw [byteAt_writeByte_ne (.inr (by omega)), this, List.getElem?_set_ne (by omega)]

/-- A region written, on a whole image. -/
theorem imageAt_writeBytes {s : State} {im bs : List Byte} {o : Nat} (h : ImageAt s .work im)
    (hb : o + bs.length ≤ im.length) : ImageAt (writeBytes .work o bs s) .work
    (im.take o ++ bs ++ im.drop (o + bs.length)) := by
  obtain ⟨hl, hc⟩ := h
  refine ⟨by simp; omega, fun j hj => ?_⟩
  have hj' : j < im.length := by simp at hj; omega
  have := hc j hj'
  simp only [Nat.zero_add] at this ⊢
  by_cases h1 : j < o
  · rw [byteAt_writeBytes_outside (.inr (.inl h1)), this, List.append_assoc, List.getElem?_append_left (by simp; omega)]
    simp [h1]
  · by_cases h2 : j < o + bs.length
    · obtain ⟨m, rfl⟩ : ∃ m, j = o + m := ⟨j - o, by omega⟩
      rw [byteAt_writeBytes_inside rfl (by omega), List.getElem?_append_left (by simp; omega),
        List.getElem?_append_right (by rw [List.length_take]; omega)]
      congr 1; simp; omega
    · rw [byteAt_writeBytes_outside (.inr (.inr (by omega))), this, List.getElem?_append_right (by simp; omega)]
      simp
      congr 1; omega

/-- Patches keep the image length (43_patch_applier.md R144). -/
theorem length_replaceAt {P : Params} {im : List Byte} {p : Patch} (hp : p.Ok P) (hl : im.length = P.imageLen) :
    (replaceAt im p.offset p.repl).length = P.imageLen := by
  obtain ⟨o, ex, r⟩ := p
  cases r with
  | single b => simp [replaceAt, hl]
  | region c n f =>
    obtain ⟨-, h1, h2, h3⟩ := hp
    simp at h1 h2 h3
    simp [replaceAt]; omega

end Sys2Proof.Machine
end

