-- ==== Sys2Proof/Laws/PerInstr.lean ====
section
/-! SUPPORT. One lemma per command about its assembled word (30_encoding.md R70, R71, R72, R87). -/

namespace Sys2Proof.Laws.EncodedWord

/-- In the assembled word of a well-formed command each field of R70 holds what R71 and R72 say: OPC the opcode, IDX the
index or 0, RSV 0. -/
def Statement (i : Instr) : Prop :=
  i.wf = true → opcField (Sys2Proof.encode i) = i.opc ∧ idxField (Sys2Proof.encode i) = i.index?.getD 0
    ∧ rsvField (Sys2Proof.encode i) = 0

/-- The fields of a word below 2^24, by arithmetic. -/
theorem fields_of_small (idx opc : Nat) (hi : idx < 0x10000) (ho : opc < 0x100) :
    opcField (BitVec.ofNat 32 (idx * 0x100 + opc)) = opc ∧ idxField (BitVec.ofNat 32 (idx * 0x100 + opc)) = idx
      ∧ rsvField (BitVec.ofNat 32 (idx * 0x100 + opc)) = 0 := by
  simp only [opcField, idxField, rsvField, BitVec.toNat_ofNat]
  omega

theorem decode : Statement .decode := fun _ => fields_of_small 0 0x01 (by omega) (by omega)
theorem encode : Statement .encode := fun _ => fields_of_small 0 0x02 (by omega) (by omega)
theorem toOffset : Statement .toOffset := fun _ => fields_of_small 0 0x03 (by omega) (by omega)
theorem validate : Statement .validate := fun _ => fields_of_small 0 0x04 (by omega) (by omega)
theorem verify (i : Nat) : Statement (.verify i) := fun h => fields_of_small i 0x05 (of_decide_eq_true h) (by omega)
theorem applySingle (i : Nat) : Statement (.applySingle i) :=
  fun h => fields_of_small i 0x06 (of_decide_eq_true h) (by omega)
theorem applyRegion (i : Nat) : Statement (.applyRegion i) :=
  fun h => fields_of_small i 0x07 (of_decide_eq_true h) (by omega)
theorem copy : Statement .copy := fun _ => fields_of_small 0 0x08 (by omega) (by omega)
theorem checkConfig : Statement .checkConfig := fun _ => fields_of_small 0 0x09 (by omega) (by omega)
theorem patchStep (i : Nat) : Statement (.patchStep i) :=
  fun h => fields_of_small i 0x0A (of_decide_eq_true h) (by omega)
theorem codeWrite (j : Nat) : Statement (.codeWrite j) :=
  fun h => fields_of_small j 0x0B (of_decide_eq_true h) (by omega)
theorem run : Statement .run := fun _ => fields_of_small 0 0x0C (by omega) (by omega)
theorem clearCounts : Statement .clearCounts := fun _ => fields_of_small 0 0x0D (by omega) (by omega)

end Sys2Proof.Laws.EncodedWord
end

