-- ==== Sys2Proof/Machine/HostProgram.lean ====
section
/-! DEFINITION. The host program syntax of 30_encoding.md R87 and R88: each statement and pseudo-instruction as the inputs
it stands for. -/

namespace Sys2Proof.Machine

/-- A port address given as a number. -/
def portAddr (a : Nat) : PortAddr := BitVec.ofNat 19 a

/-- `WR32 a, v` (R88). -/
def wr32 (a : Nat) (v : Word) : Input := .write .word (portAddr a) v

/-- `WR8 a, v` (R88). -/
def wr8 (a : Nat) (v : Byte) : Input := .write .byte (portAddr a) (v.setWidth 32)

/-- `RD32 a` (R88). -/
def rd32 (a : Nat) : Input := .read .word (portAddr a)

/-- `RD8 a` (R88). -/
def rd8 (a : Nat) : Input := .read .byte (portAddr a)

/-- `CMD m [i]` (R88): the assembled word of R87 written to CMD. -/
def cmdStatement (i : Instr) : List Input := [wr32 0x00000 (encode i)]

/-- `WAIT` (R88), "repeat `RD32 0x00004` until bit 0 is 0": the engine completes, and the read that ends the loop is
made. The reads before it return BUSY = 1 and change nothing. DESIGN CHOICE (notes/assumptions/12). -/
def waitStatement : List Input := [.engine, rd32 0x00004]

/-- `WRS a, b0 b1 ... bn` (R88): byte writes at consecutive addresses. -/
def wrsStatement (a : Nat) : List Byte → List Input
  | []     => []
  | b :: t => wr8 a b :: wrsStatement (a + 1) t

/-- `CODE a, "c0c1c2c3c4c5"` (R88), the characters as bytes. -/
def codeStatement (a : Nat) (chars : List Byte) : List Input := wrsStatement a (6 :: chars ++ [0])

/-- `DESC i, off, kind, explen, newlen, byte, rlen` (R88): the 16 header bytes of 30_encoding.md R80, RSV = 0. -/
def descStatement (i off kind expLen newLen : Nat) (byte : Byte) (regionLen : Nat) : List Input :=
  wrsStatement (0x30000 + 256 * i)
    (leBytes 4 off ++ leBytes 1 kind ++ leBytes 1 expLen ++ leBytes 1 newLen ++ [byte] ++ leBytes 2 regionLen
      ++ List.replicate 6 0)

end Sys2Proof.Machine
end

