-- ==== Sys2Proof/Tests/Slice0.lean ====
section
/-! SUPPORT. Tests: words written out from 30_encoding.md, vectors of 95_test_vectors.md (computed there from the rules, not
by this model), the WellFormed smoke test, and for every statement with hypotheses a state and operands that meet them. -/

namespace Sys2Proof.Tests

open Sys2Proof.Machine Sys2Proof.Claims

/-! ### Small states -/

/-- The outcome is a next state of which `p` holds. -/
def after (o : Host.Outcome State Fault Refusal) (p : State → Bool) : Bool :=
  match o with
  | .next s    => p s
  | .fault _   => false
  | .refused _ => false

theorem exists_of_after {o : Host.Outcome State Fault Refusal} {p : State → Bool} (h : after o p = true) :
    ∃ t, o = .next t ∧ p t = true := by
  cases o with
  | next s    => exact ⟨s, rfl, h⟩
  | fault _   => cases h
  | refused _ => cases h

/-- The check raises the error. -/
def raises {α : Type} (c : Check α) (e : CmdError) : Bool :=
  match c with
  | .error (.raised e') => e' == e
  | .error (.faulted _) => false
  | .ok _               => false

theorem eq_of_raises {α : Type} {c : Check α} {e : CmdError} (h : raises c e = true) : c = .error (.raised e) := by
  match c, h with
  | .error (.raised e'), h => rw [show e' = e from eq_of_beq h]

/-- Bytes written to a memory, one run of cells after another. -/
def put (b : Buf) (k : Nat) (bs : List Byte) (s : State) : State := writeBytes b k bs s

/-- Descriptor slot `i` (30_encoding.md R80): header, EXPECTED, NEWCODE. -/
def desc (i off kind expLen newLen : Nat) (byte : Byte) (regionLen : Nat) (exp code : List Byte) (s : State) : State :=
  put .ptab (256 * i + 136) code (put .ptab (256 * i + 16) exp (put .ptab (256 * i)
    (leBytes 4 off ++ leBytes 1 kind ++ leBytes 1 expLen ++ leBytes 1 newLen ++ [byte] ++ leBytes 2 regionLen
      ++ List.replicate 6 0) s))

/-- Code slot `j` (R85). -/
def code (j : Nat) (chars : List Byte) (s : State) : State := put .ctab (8 * j) (6 :: chars ++ [0]) s

/-- "SXIOPO", which decodes to (0x91D9, 0xAD) (95_test_vectors.md T-CODEC-1). -/
def sxiopo : List Byte := [0x53, 0x58, 0x49, 0x4F, 0x50, 0x4F]

/-- "SXIOPQ": 'Q' is not in ALPHABET. -/
def sxiopq : List Byte := [0x53, 0x58, 0x49, 0x4F, 0x50, 0x51]

/-- The nibbles of "SXIOPO". -/
def sxiopoNibbles : Nibbles := ⟨13, 10, 5, 9, 1, 9⟩

/-- The header of a valid image in SRC and its length. -/
def imaged (s : State) : State := put .src 0 [0x4E, 0x45, 0x53, 0x1A, 2, 1] { s with srcLen := 40976 }

/-- T-APP-1's descriptor, a SINGLE patch at 0x2000 from A9 to AD, with PATCH_COUNT 1 and WORK[0x2000] = `v`. -/
def single (v : Byte) : State :=
  put .work 0x2000 [v] (desc 0 0x2000 0 1 0 0xAD 0 [0xA9] [] { State.reset with patchCount := 1 })

/-- T-APP-5's descriptor, a REGION patch at 0x3000, with the cells around it. -/
def region : State :=
  put .work 0x2FFF [0x11, 0x22, 0x33, 0x44, 0x55, 0x66, 0x77]
    (desc 0 0x3000 1 0 2 0xEA 5 [] [0xA9, 0x01] { State.reset with patchCount := 1 })

/-- T-VER-1's state, `w` being the window at 0x1000. -/
def windowed (w : List Byte) : State :=
  put .work 0x1000 w (desc 0 0x1000 0 8 0 0 0 [0xA5, 0xB5, 0xC9, 0x02, 0x30, 0x3B, 0xA2, 0x01] []
    { State.reset with patchCount := 1 })

/-- CODE_IN holding a length and six characters. -/
def codeIn (l : Byte) (c : List Byte) (pad : Byte) : State :=
  { State.reset with
    codeIn0 := BitVec.ofNat 32 (leValue (l :: c.take 3))
    codeIn1 := BitVec.ofNat 32 (leValue (c.drop 3 ++ [pad])) }

/-- PR2's state before RUN, WORK unwritten. -/
def pr2 : State :=
  code 0 sxiopo (desc 1 0x2000 0 1 0 0xAD 0 [0xA9] []
    (desc 0 0x1000 1 8 3 0xEA 8 [0xA5, 0xB5, 0xC9, 0x02, 0x30, 0x3B, 0xA2, 0x01] [0xA9, 0x00, 0x60]
      (put .src 0x2000 [0xA9] (put .src 0x1000 [0xA5, 0xB5, 0xC9, 0x02, 0x30, 0x3B, 0xA2, 0x01]
        (imaged { State.reset with patchCount := 2, codeCount := 1 })))))

/-- A command in progress. -/
def busy (s : State) : State := { s with status := { s.status with busy := true, done := false } }

/-! ### WellFormed -/

theorem test_wf_verify : (Instr.verify 0x10000).wf = false := by decide
theorem test_wf_applySingle : (Instr.applySingle 0x10000).wf = false := by decide
theorem test_wf_applyRegion : (Instr.applyRegion 0x10000).wf = false := by decide
theorem test_wf_patchStep : (Instr.patchStep 0x10000).wf = false := by decide
theorem test_wf_codeWrite : (Instr.codeWrite 0x10000).wf = false := by decide

theorem test_wf_default : Params.default.wf = true := by decide

/-- One set of parameters against each constraint of 00_scope.md R11. -/
theorem test_wf_params :
    ([{ Params.default with alphabet := Params.default.alphabet.take 15 },
      { Params.default with alphabet := 0x50 :: Params.default.alphabet.drop 1 },
      { Params.default with magic := [0x4E, 0x45, 0x53] },
      { Params.default with headerSize := 3, bank0Off := 1, bank1Off := 2 },
      { Params.default with bank0Off := 16 },
      { Params.default with bank1Off := 16 },
      { Params.default with bank1Off := 4 },
      { Params.default with imageLen := 0x800F },
      { Params.default with imageLen := 0x10001 },
      { Params.default with nPatchMax := 0 },
      { Params.default with nPatchMax := 257 },
      { Params.default with nCodeMax := 0 },
      { Params.default with nCodeMax := 8193 }] : List Params).all (fun P => !P.wf) = true := by decide

/-- The least parameters R11 admits. -/
def tinyParams : Params :=
  { Params.default with
    headerSize := 4
    bank0Off := 0
    bank1Off := 3
    imageLen := 0x8004
    nPatchMax := 1
    nCodeMax := 1 }

/-- The extreme parameter sets R11 admits. -/
theorem test_wf_params_extreme :
    tinyParams.wf = true
    ∧ ({ Params.default with imageLen := 0x10000, nPatchMax := 256, nCodeMax := 8192 } : Params).wf = true := by decide

/-! ### Words written out from R70 to R72: RSV, IDX, OPC -/

theorem test_word_decode : decode 0b00000000000000000000000000000001 = .ok .decode := by rfl
theorem test_word_encode : decode 0b00000000000000000000000000000010 = .ok .encode := by rfl
theorem test_word_toOffset : decode 0b00000000000000000000000000000011 = .ok .toOffset := by rfl
theorem test_word_validate : decode 0b00000000000000000000000000000100 = .ok .validate := by rfl
theorem test_word_verify : decode 0b00000000000000000000000100000101 = .ok (.verify 1) := by rfl
theorem test_word_applySingle : decode 0b00000000100000000000000000000110 = .ok (.applySingle 0x8000) := by rfl
theorem test_word_applyRegion : decode 0b00000000111111111111111100000111 = .ok (.applyRegion 0xFFFF) := by rfl
theorem test_word_copy : decode 0b00000000000000000000000000001000 = .ok .copy := by rfl
theorem test_word_checkConfig : decode 0b00000000000000000000000000001001 = .ok .checkConfig := by rfl
theorem test_word_patchStep : decode 0b00000000000000000000001000001010 = .ok (.patchStep 2) := by rfl
theorem test_word_codeWrite : decode 0b00000000000000000001001000001011 = .ok (.codeWrite 0x12) := by rfl
theorem test_word_run : decode 0b00000000000000000000000000001100 = .ok .run := by rfl
theorem test_word_clearCounts : decode 0b00000000000000000000000000001101 = .ok .clearCounts := by rfl

/-- T-CMD: each illegal word completes with its reason. -/
theorem test_illegal_words :
    ([(0x00000000, 0x0001FFFF), (0x0000000E, 0x0001FFFF), (0x000000FF, 0x0001FFFF), (0x0100000C, 0x0002FFFF),
      (0x01000005, 0x0002FFFF), (0x0000010C, 0x0003FFFF), (0x0000FF01, 0x0003FFFF)] : List (Nat × Word)).all
      (fun x => after (step (State.reset.withFetchWord 32 x.1)) fun t =>
        statusWord t.status == 0x00000102 && errInfoWord t.errInfo == x.2 && t.cmd.toNat == x.1) = true := by decide

/-- The table's numbering: 32 bits in one word, nothing longer. -/
theorem test_table_word : decodeTableWord 32 0x0000020A = some (.patchStep 2) ∧ decodeTableWord 32 0 = none
    ∧ decodeTableWord 40 1 = none := by decide

/-! ### Instructions, by the vectors of 95_test_vectors.md -/

/-- T-CODEC-1: SXIOPO, PAD ignored. -/
theorem test_decode_sxiopo : after (exec .decode (codeIn 6 sxiopo 0xFF)) (fun t =>
    t.decAddr == 0x91D9 && t.decValue == 0xAD && statusWord t.status == 0x00000002) = true := by decide

/-- T-CODEC-2: the first character outside ALPHABET, at position 5. -/
theorem test_decode_symbol : after (exec .decode (codeIn 6 sxiopq 0)) (fun t =>
    errInfoWord t.errInfo == 0x0502FFFF && statusWord t.status == 0x00000402 && t.decAddr == 0) = true := by decide

/-- T-CODEC-3: NNYNNN, the bit `n2[3]` written 0. -/
theorem test_encode_high : after (exec .encode { State.reset with encAddr := 0xFFFF, encValue := 0xFF }) (fun t =>
    t.codeOut0 == 0x594E4E06 && t.codeOut1 == 0x004E4E4E && statusWord t.status == 0x00000002) = true := by decide

/-- T-CODEC-3: every bit of ENC_ADDR is checked. -/
theorem test_encode_range : after (exec .encode { State.reset with encAddr := 0x10000 }) (fun t =>
    statusWord t.status == 0x00000702 && errInfoWord t.errInfo == 0x0000FFFF && t.codeOut0 == 0) = true := by decide

/-- T-CODEC-4. -/
theorem test_toOffset_high : after (exec .toOffset { State.reset with addrIn := 0xFFFF }) (fun t =>
    t.offsetOut == 32783 && statusWord t.status == 0x00000002) = true := by decide

/-- T-CODEC-4: the upper bits are checked. -/
theorem test_toOffset_range : after (exec .toOffset { State.reset with addrIn := 0x00018000 }) (fun t =>
    statusWord t.status == 0x00000602 && errInfoWord t.errInfo == 0x0000FFFF && t.offsetOut == 0) = true := by decide

/-- T-VAL: a valid header, every other cell of SRC unwritten. -/
theorem test_validate_ok : after (exec .validate (imaged State.reset)) (fun t =>
    statusWord t.status == 0x00000002 && t.errInfo == ⟨0, 0, 0⟩) = true := by decide

/-- T-VAL: MAGIC wins over BANK0. -/
theorem test_validate_magic : after (exec .validate (put .src 4 [8] (put .src 0 [0x4D] (imaged State.reset)))) (fun t =>
    statusWord t.status == 0x00000502 && errInfoWord t.errInfo == 0x0002FFFF) = true := by decide

/-- T-VER-1. -/
theorem test_verify_match : after (exec (.verify 0) (windowed [0xA5, 0xB5, 0xC9, 0x02, 0x30, 0x3B, 0xA2, 0x01]))
    (fun t => statusWord t.status == 0x0000000A) = true := by decide

/-- T-VER-7: the sum of OFFSET and length does not wrap. -/
theorem test_verify_bounds : after (exec (.verify 0)
    (desc 0 0xFFFFFFFF 0 1 0 0 0 [0] [] { State.reset with patchCount := 1 }))
    (fun t => statusWord t.status == 0x00000302 && errInfoWord t.errInfo == 0x00070000) = true := by decide

/-- T-APP-1. -/
theorem test_applySingle : after (exec (.applySingle 0) (single 0xA9)) (fun t =>
    statusWord t.status == 0x0000000A && t.work == [(0x2000, 0xAD)]) = true := by decide

/-- T-APP-4: only `EXPECTED[0]` is compared. -/
theorem test_applySingle_first_byte : after (exec (.applySingle 0) (put .work 0x200 [0x42, 0x00]
    (desc 0 0x200 0 2 0 0x43 0 [0x42, 0x99] [] { State.reset with patchCount := 1 }))) (fun t =>
    statusWord t.status == 0x0000000A && t.work == [(0x200, 0x43), (0x201, 0x00)]) = true := by decide

/-- T-APP-5. -/
theorem test_applyRegion : after (exec (.applyRegion 0) region) (fun t =>
    statusWord t.status == 0x00000002 && (readCells t .work 0x2FFF 7).toOption == some [0x11, 0xA9, 0x01, 0xEA, 0xEA, 0xEA, 0x77])
    = true := by decide

/-- T-APP-11: BOUNDS, one byte past the image. -/
theorem test_applyRegion_bounds : after (exec (.applyRegion 0)
    (desc 0 40970 1 0 0 0xEA 7 [] [] { State.reset with patchCount := 1 })) (fun t =>
    statusWord t.status == 0x00000302 && errInfoWord t.errInfo == 0x00070000 && t.work == []) = true := by decide

/-- R160: COPY takes what SRC holds, over what WORK held. -/
theorem test_copy : after (exec .copy (put .work 1 [0x77] (put .src 2 [0x53] State.reset))) (fun t =>
    t.work == [(2, 0x53)] && statusWord t.status == 0x00000002) = true := by decide

/-- T-ORCH-0 and R164: PR2's configuration is valid. -/
theorem test_checkConfig_ok : after (exec .checkConfig pr2) (fun t =>
    statusWord t.status == 0x00000002 && t.seq == ⟨.idle, 0⟩) = true := by decide

/-- R164: a full code table beyond N_CODE_MAX. -/
theorem test_checkConfig_count : after (exec .checkConfig { State.reset with codeCount := 257 }) (fun t =>
    statusWord t.status == 0x00000302 && errInfoWord t.errInfo == 0x0009FFFF) = true := by decide

/-- T-ORCH-12, first step. -/
theorem test_patchStep_applies : after (exec (.patchStep 0) (single 0xA9)) (fun t =>
    statusWord t.status == 0x0000000A && t.appliedCnt == 1 && t.outcome == [(0, 1)] && t.work == [(0x2000, 0xAD)])
    = true := by decide

/-- T-ORCH-12, second step. -/
theorem test_patchStep_skips : after (exec (.patchStep 0) (single 0xAD)) (fun t =>
    statusWord t.status == 0x00000002 && t.failedCnt == 1 && t.outcome == [(0, 2)] && t.work == [(0x2000, 0xAD)])
    = true := by decide

/-- T-ORCH-11. -/
theorem test_codeWrite : after (exec (.codeWrite 0) (code 0 sxiopo { State.reset with codeCount := 1 })) (fun t =>
    statusWord t.status == 0x00000002 && t.work == [(4585, 0xAD)] && t.decAddr == 0x91D9 && t.decValue == 0xAD
      && t.offsetOut == 4585) = true := by decide

/-- T-ORCH-11: CODE_COUNT = 0. -/
theorem test_codeWrite_range : after (exec (.codeWrite 0) (code 0 sxiopo State.reset)) (fun t =>
    statusWord t.status == 0x00000202 && errInfoWord t.errInfo == 0x00020000) = true := by decide

/-- PR2: the end of the run. -/
theorem test_run_pr2 : after (exec .run pr2) (fun t =>
    statusWord t.status == 0x00000006 && t.appliedCnt == 2 && t.failedCnt == 0 && seqPosWord t.seqPos == 0x00050000
      && t.outcome == [(0, 1), (1, 1)]
      && (readCells t .work 0x1000 8).toOption == some [0xA9, 0x00, 0x60, 0xEA, 0xEA, 0xEA, 0xEA, 0xEA]
      && byteAt t .work 0x2000 == some 0xAD && byteAt t .work 0x11E9 == some 0xAD && t.src == pr2.src) = true := by decide

/-- PR5 and T-ORCH-10: an invalid code ends the run in its CONFIG phase. -/
theorem test_run_invalid_code : after (exec .run (code 1 sxiopq { pr2 with codeCount := 2 })) (fun t =>
    statusWord t.status == 0x00000402 && errInfoWord t.errInfo == 0x05020001 && seqPosWord t.seqPos == 0x00010001
      && t.work == []) = true := by decide

/-- R175. -/
theorem test_clearCounts : after (exec .clearCounts { State.reset with appliedCnt := 3, failedCnt := 1, outcome := [(0, 1)] })
    (fun t => t.appliedCnt == 0 && t.failedCnt == 0 && t.outcome == [] && statusWord t.status == 0x00000002) = true := by
  decide

/-! ### The port and the step -/

/-- T-PORT: read-only, wrong width, unmapped and misaligned accesses. -/
theorem test_port_not_admitted :
    portTarget Params.default .half (portAddr 0x21001) = none ∧ writeAdmitted Params.default .byte (portAddr 0x20000) = none
    ∧ portTarget Params.default .byte (portAddr 0x00004) = none ∧ portTarget Params.default .word (portAddr 0x0004C) = none
    ∧ portTarget Params.default .byte (portAddr 0x1A010) = none
    ∧ portTarget Params.default .byte (portAddr 0x1A00F) = some (.cells .src 0xA00F)
    ∧ writeAdmitted Params.default .word (portAddr 0x00028) = none := by decide

/-- T-PORT: `WR16 0x30008, 0x0105` stores 05 01; `RD32 0x21000` after PR2. -/
theorem test_port_little_endian :
    (hostWrite .half (portAddr 0x30008) 0x0105 State.reset).ptab = [(8, 0x05), (9, 0x01)]
    ∧ after (hostRead .word (portAddr 0x21000) (put .work 0x1000 [0xA9, 0x00, 0x60, 0xEA] State.reset))
        (fun t => t.rdata == 0xEA6000A9) = true := by decide

/-- T-PORT: a write while a RUN is in progress is dropped, with HAZARD, and the RUN is unaffected. -/
theorem test_port_hazard : after (Sys2Proof.core.run 3
    { pr2 with inputs := [wr32 0 0x0000000C, wr8 0x10000 0x00, .engine] }) (fun t =>
    statusWord t.status == 0x00000016 && t.appliedCnt == 2 && byteAt t .src 0 == some 0x4E) = true := by decide

/-- PR1's first statements, from reset: the host writes CODE_IN, DECODE, and reads STATUS. -/
theorem test_program_pr1 : after (Sys2Proof.core.run 5
    { State.reset with
      inputs := [wr32 0x00020 0x49585306, wr32 0x00024 0x004F504F] ++ cmdStatement .decode ++ waitStatement }) (fun t =>
    t.rdata == 0x00000002 && t.decAddr == 0x91D9 && t.decValue == 0xAD) = true := by decide

/-- T-ORCH-8: RUN straight after reset, as the first command. -/
theorem test_first_command_run : after (step (State.reset.withFetchWord 32 0x0000000C)) (fun t =>
    statusWord t.status == 0x00000502 && errInfoWord t.errInfo == 0x0001FFFF && seqPosWord t.seqPos == 0x0002FFFF)
    = true := by decide

/-! ### Witnesses: states and operands that meet the hypotheses of the statements, clause by clause -/

section Witnesses

/-- T-VER-1's window. -/
def goodWindow : List Byte := [0xA5, 0xB5, 0xC9, 0x02, 0x30, 0x3B, 0xA2, 0x01]

/-- The patches the states above hold. -/
def singlePatch : Patch := ⟨0x2000, [0xA9], .single 0xAD⟩
def regionPatch : Patch := ⟨0x3000, [], .region [0xA9, 0x01] 5 0xEA⟩
def windowPatch : Patch := ⟨0x1000, goodWindow, .single 0⟩

/-- T-VER-4: the window runs past the end, the region ends at the last cell. -/
def edgePatch : Patch := ⟨40972, [0, 0, 0, 0, 0, 0, 0, 0], .region [] 4 0⟩
def edge : State := desc 0 40972 1 8 0 0 4 (List.replicate 8 0) [] { State.reset with patchCount := 1 }

/-- A second descriptor whose KIND is 2 beside a valid one; and two codes, the second invalid. -/
def badKind : State := desc 1 0 2 1 0 0 0 [0] [] { single 0xA9 with patchCount := 2 }
def badCode : State := code 1 sxiopq (code 0 sxiopo { single 0xA9 with codeCount := 2 })
def shortCode : State := put .ctab 0 [5] (code 0 sxiopo { single 0xA9 with codeCount := 1 })

theorem witness_wf_index : (Instr.verify 0xFFFF).wf = true ∧ Instr.run.wf = true := by decide

theorem witness_decoded_word : decode 0x00FFFF05 = .ok (.verify 0xFFFF) := by rfl

theorem witness_illegal : badOpc 0x0E ∧ badOpc 0 ∧ (¬ badOpc 0x0100000C ∧ badRsv 0x0100000C)
    ∧ (¬ badOpc 0x0000010C ∧ ¬ badRsv 0x0000010C ∧ badIdx 0x0000010C) := by
  unfold badOpc badRsv badIdx; decide

/-- DecodesExactlyLegalWords: both sides arise. -/
theorem witness_legal : ¬ (badOpc 0x00FFFF05 ∨ badRsv 0x00FFFF05 ∨ badIdx 0x00FFFF05)
    ∧ (badOpc 0x000000FF ∨ badRsv 0x000000FF ∨ badIdx 0x000000FF) := by
  unfold badOpc badRsv badIdx; decide

theorem witness_address : 0x8000 ≤ (0x8000 : BitVec 16).toNat ∧ 0x8000 ≤ (0xFFFF : BitVec 16).toNat := by decide

/-- DecodedAddressBase: both sides arise, `n2[3]` set in the first. -/
theorem witness_base : decodeAddr ⟨15, 7, 8, 0, 0, 0⟩ = 0x8000 ∧ decodeAddr ⟨0, 8, 0, 0, 0, 0⟩ = 0x8080 := by decide

theorem witness_decode_holds : (codeIn 6 sxiopo 0).params.wf = true ∧ CodeInHolds (codeIn 6 sxiopo 0) sxiopoNibbles := by
  unfold CodeInHolds; decide

theorem witness_decode_length : wordByte (codeIn 8 sxiopo 0).codeIn0 0 ≠ 6 := by decide

theorem witness_decode_symbol_first : wordByte (codeIn 6 (0x73 :: sxiopo.drop 1) 0).codeIn0 0 = 6
    ∧ codeInChar (codeIn 6 (0x73 :: sxiopo.drop 1) 0) 0 ∉ (codeIn 6 sxiopo 0).params.alphabet := by decide

theorem witness_decode_symbol_last : wordByte (codeIn 6 sxiopq 0).codeIn0 0 = 6
    ∧ (∀ p, p < 5 → codeInChar (codeIn 6 sxiopq 0) p ∈ (codeIn 6 sxiopq 0).params.alphabet)
    ∧ codeInChar (codeIn 6 sxiopq 0) 5 ∉ (codeIn 6 sxiopq 0).params.alphabet := by decide

/-- EncodeCommand and ToOffsetCommand: the four boundary addresses. -/
theorem witness_bounds : (0x8000 ≤ (0x8000 : Word).toNat ∧ (0x8000 : Word).toNat ≤ 0xFFFF)
    ∧ (0x8000 ≤ (0xFFFF : Word).toNat ∧ (0xFFFF : Word).toNat ≤ 0xFFFF)
    ∧ (0x7FFF : Word).toNat < 0x8000 ∧ 0xFFFF < (0x10000 : Word).toNat := by decide

theorem witness_encodeThenDecode :
    ∃ t, exec .encode { State.reset with encAddr := 0xFFFF, encValue := 0xFF } = .next t ∧ t.status.err = .none :=
  let ⟨t, h, e⟩ := exists_of_after (p := fun t => t.status.err == .none)
    (o := exec .encode { State.reset with encAddr := 0xFFFF, encValue := 0xFF }) (by decide)
  ⟨t, h, eq_of_beq e⟩

theorem witness_validate_length : State.reset.params.wf = true ∧ State.reset.srcLen.toNat ≠ State.reset.params.imageLen := by
  decide

/-- The last magic byte wrong. -/
theorem witness_validate_magic :
    let s := put .src 3 [0x1B] (imaged State.reset)
    s.srcLen.toNat = s.params.imageLen ∧ CellsAt s .src 0 (s.params.magic.take 3) ∧ byteAt s .src 3 = some 0x1B
      ∧ s.params.magic[3]? ≠ some 0x1B := by
  unfold CellsAt; decide

theorem witness_validate_banks :
    let s := imaged State.reset
    CellsAt s .src 0 s.params.magic ∧ byteAt (put .src 4 [8] s) .src s.params.bank0Off = some 8
      ∧ (8 : Byte) ≠ s.params.bank0Val ∧ byteAt s .src s.params.bank0Off = some s.params.bank0Val
      ∧ byteAt (put .src 5 [0] s) .src s.params.bank1Off = some 0 ∧ (0 : Byte) ≠ s.params.bank1Val
      ∧ byteAt s .src s.params.bank1Off = some s.params.bank1Val := by
  unfold CellsAt; decide

/-- IndexRangeChecked: at the list's end, and beyond the table with a longer list (T-CMD). -/
theorem witness_index_range : (single 0xA9).patchCount.toNat ≤ 1
    ∧ { State.reset with patchCount := 300 }.params.nPatchMax ≤ 256
    ∧ ¬ { State.reset with patchCount := 300 }.patchCount.toNat ≤ 256 ∧ State.reset.codeCount.toNat ≤ 0 := by decide

/-- DescriptorCheckOrder: a descriptor that passes, and one that fails by a single byte. -/
theorem witness_fields :
    let s := desc 0 40970 1 120 0 0xEA 7 [] [] State.reset
    (FieldAt s 0 4 1 1 ∧ FieldAt s 0 10 6 0 ∧ FieldAt s 0 5 1 120 ∧ FieldAt s 0 0 4 40970 ∧ FieldAt s 0 6 1 0
      ∧ FieldAt s 0 8 2 7)
    ∧ descReason s.params.imageLen 1 0 120 40970 0 7 = 7 ∧ descReason s.params.imageLen 1 0 120 40970 0 6 = 0 := by
  unfold FieldAt; decide

/-- DescriptorCheckOrder: every reason arises. -/
theorem witness_reasons : [descReason 40976 2 1 200 0 0 0, descReason 40976 1 1 200 0 0 0, descReason 40976 0 0 121 0 0 0,
    descReason 40976 0 0 0 0 0 0, descReason 40976 1 0 0 0 121 0, descReason 40976 1 0 0 0 1 0, descReason 40976 0 0 1 40976 0 0]
    = [1, 2, 3, 4, 5, 6, 7] := by decide

theorem patchAt_single (v : Byte) : PatchAt (single v) 0 singlePatch ∧ singlePatch.Ok (single v).params := by
  have h : single v = put .work 0x2000 [v] (desc 0 0x2000 0 1 0 0xAD 0 [0xA9] [] { State.reset with patchCount := 1 }) := rfl
  have h0 : PatchAt (single 0) 0 singlePatch ∧ singlePatch.Ok (single 0).params := by
    unfold PatchAt Patch.Ok FieldAt CellsAt singlePatch; decide
  exact h0

theorem patchAt_region : PatchAt region 0 regionPatch ∧ regionPatch.Ok region.params := by
  unfold PatchAt Patch.Ok FieldAt CellsAt regionPatch; decide

theorem patchAt_window (w : List Byte) : PatchAt (windowed w) 0 windowPatch ∧ windowPatch.Ok (windowed w).params := by
  have h0 : PatchAt (windowed []) 0 windowPatch ∧ windowPatch.Ok (windowed []).params := by
    unfold PatchAt Patch.Ok FieldAt CellsAt windowPatch goodWindow; decide
  exact h0

theorem patchAt_edge : PatchAt edge 0 edgePatch ∧ edgePatch.Ok edge.params := by
  unfold PatchAt Patch.Ok FieldAt CellsAt edgePatch; decide

theorem index_ok : patchIndexOk (single 0xA9) 0 ∧ patchIndexOk region 0 ∧ patchIndexOk (windowed goodWindow) 0
    ∧ patchIndexOk edge 0 := by
  unfold patchIndexOk; decide

/-- DescriptorErrorReported and FirstConfigFailureReported: descriptor 1 fails behind a valid one. -/
theorem witness_descriptor_error : patchIndexOk badKind 1 ∧ checkDesc badKind 1 = .error (.raised (configError 1 1))
    ∧ (∀ j, j < 1 → ∃ p, PatchAt badKind j p ∧ p.Ok badKind.params) := by
  refine ⟨by unfold patchIndexOk; decide, by rfl, fun j hj => ?_⟩
  obtain rfl : j = 0 := by omega
  refine ⟨singlePatch, ?_⟩
  unfold PatchAt Patch.Ok FieldAt CellsAt singlePatch; decide

/-- WrongKindReported, both kinds. -/
theorem witness_wrong_kind : (patchIndexOk region 0 ∧ PatchAt region 0 regionPatch ∧ regionPatch.Ok region.params)
    ∧ (patchIndexOk (single 0xA9) 0 ∧ PatchAt (single 0xA9) 0 singlePatch ∧ singlePatch.Ok (single 0xA9).params) :=
  ⟨⟨index_ok.2.1, patchAt_region⟩, index_ok.1, patchAt_single _⟩

/-- VerifyCommand: the empty window, the window past the end, and two windows inside (PatchStepSkips: the last two). -/
theorem witness_verify :
    regionPatch.expected = []
    ∧ (edgePatch.expected ≠ [] ∧ edge.params.imageLen < edgePatch.offset + edgePatch.expected.length)
    ∧ (windowPatch.offset + windowPatch.expected.length ≤ (windowed goodWindow).params.imageLen
        ∧ CellsAt (windowed goodWindow) .work windowPatch.offset goodWindow)
    ∧ CellsAt (windowed (goodWindow.set 3 3)) .work windowPatch.offset (goodWindow.set 3 3)
    ∧ (goodWindow.set 3 3).length = windowPatch.expected.length ∧ goodWindow.set 3 3 ≠ windowPatch.expected := by
  unfold CellsAt; decide

/-- ChangedByteBreaksMatch: the last byte changed. -/
theorem witness_changed_byte : 7 < windowPatch.expected.length ∧ windowPatch.expected[7]? ≠ some 0x02 := by decide

/-- ApplySingleCommand: the cell holds the old byte, and another one. -/
theorem witness_apply_single : singlePatch.expected[0]? = some 0xA9 ∧ byteAt (single 0xA9) .work 0x2000 = some 0xA9
    ∧ byteAt (single 0xFF) .work 0x2000 = some 0xFF := by decide

def emptyRegion : State := desc 0 40976 1 0 0 0xEA 0 [] [] { State.reset with patchCount := 1 }
def lastRegion : State := desc 0 40970 1 0 0 0xEA 6 [] [] { State.reset with patchCount := 1 }

/-- ApplyRegionCommand: T-APP-8's empty region, and T-APP-10's, which ends at the last cell. -/
theorem witness_apply_region_empty :
    PatchAt emptyRegion 0 ⟨40976, [], .region [] 0 0xEA⟩ ∧ Patch.Ok emptyRegion.params ⟨40976, [], .region [] 0 0xEA⟩ := by
  unfold PatchAt Patch.Ok FieldAt CellsAt; dsimp only; decide

theorem witness_apply_region_last :
    PatchAt lastRegion 0 ⟨40970, [], .region [] 6 0xEA⟩ ∧ Patch.Ok lastRegion.params ⟨40970, [], .region [] 6 0xEA⟩ := by
  unfold PatchAt Patch.Ok FieldAt CellsAt; dsimp only; decide

/-- CopyCommand: the last cell of the image; ClearCountsCommand: the last OUTCOME byte. -/
theorem witness_last_cells : 40975 < State.reset.params.imageLen ∧ 255 < State.reset.params.nPatchMax := by decide

/-- PatchStepApplies: a single patch and a region patch with an empty window. -/
theorem witness_patch_step : CellsAt (single 0xA9) .work singlePatch.offset singlePatch.expected
    ∧ singlePatch.offset + singlePatch.expected.length ≤ (single 0xA9).params.imageLen
    ∧ CellsAt region .work regionPatch.offset regionPatch.expected := by
  unfold CellsAt; decide

theorem codeAt_pr2 : codeIndexOk pr2 0 ∧ CodeAt pr2 0 sxiopoNibbles := by
  unfold codeIndexOk CodeAt CellsAt; decide

/-- CodeWriteRejectsInvalidCode and FirstConfigFailureReported: a wrong length, and a wrong last character. -/
theorem witness_invalid_code : codeIndexOk shortCode 0 ∧ byteAt shortCode .ctab 0 = some 5
    ∧ codeIndexOk badCode 1 ∧ firstBadChar badCode 1 5 ∧ CodeAt badCode 0 sxiopoNibbles := by
  refine ⟨by unfold codeIndexOk; decide, by decide, by unfold codeIndexOk; decide, ?_, by unfold CodeAt CellsAt; decide⟩
  refine ⟨by decide, by decide, fun p hp => ?_, 0x51, by decide, by decide⟩
  have h : ∀ p, p < 5 → ((byteAt badCode .ctab (8 * 1 + 1 + p)).elim false fun c => c ∈ badCode.params.alphabet) = true := by
    decide
  have h := h p hp
  cases hc : byteAt badCode .ctab (8 * 1 + 1 + p) with
  | none => rw [hc] at h; cases h
  | some c => rw [hc] at h; exact ⟨c, rfl, by simpa using h⟩

/-- FirstConfigFailureReported: the descriptors before the failing codes are valid, and the counts fit. -/
theorem witness_codes_after_descriptors :
    (∀ j, j < badCode.patchCount.toNat → ∃ p, PatchAt badCode j p ∧ p.Ok badCode.params)
    ∧ (∀ j, j < shortCode.patchCount.toNat → ∃ p, PatchAt shortCode j p ∧ p.Ok shortCode.params)
    ∧ badCode.codeCount.toNat = 2 ∧ shortCode.codeCount.toNat = 1
    ∧ badCode.patchCount.toNat ≤ badCode.params.nPatchMax ∧ badCode.codeCount.toNat ≤ badCode.params.nCodeMax := by
  refine ⟨fun j hj => ?_, fun j hj => ?_, by decide, by decide, by decide, by decide⟩
  · obtain rfl : j = 0 := Nat.lt_one_iff.1 hj
    exact ⟨singlePatch, patchAt_single 0xA9⟩
  · obtain rfl : j = 0 := Nat.lt_one_iff.1 hj
    exact ⟨singlePatch, patchAt_single 0xA9⟩

/-- DescriptorCheckOrder: every field of a descriptor that passes, its region ending at the last cell. -/
theorem witness_fields_pass : FieldAt lastRegion 0 4 1 1 ∧ FieldAt lastRegion 0 10 6 0 ∧ FieldAt lastRegion 0 5 1 0
    ∧ FieldAt lastRegion 0 0 4 40970 ∧ FieldAt lastRegion 0 6 1 0 ∧ FieldAt lastRegion 0 8 2 6
    ∧ descReason lastRegion.params.imageLen 1 0 0 40970 0 6 = 0 := by
  unfold FieldAt; decide

/-- FirstConfigFailureReported: the counts. -/
theorem witness_counts : { State.reset with patchCount := 257 }.params.nPatchMax
      < { State.reset with patchCount := 257 }.patchCount.toNat
    ∧ { State.reset with codeCount := 257 }.params.nCodeMax < { State.reset with codeCount := 257 }.codeCount.toNat := by
  decide

/-- The configuration of PR2. -/
def pr2Patches : List Patch :=
  [⟨0x1000, goodWindow, .region [0xA9, 0x00, 0x60] 8 0xEA⟩, ⟨0x2000, [0xA9], .single 0xAD⟩]

/-- CheckConfigPasses, and with `codes` one of the hypotheses of RunRefinesSource and RunFormatError. -/
theorem witness_config : ConfigHolds pr2 pr2Patches [sxiopoNibbles] := by
  refine ⟨by decide, by decide, by decide, by decide, fun i p h => ?_, fun j n h => ?_⟩
  · match i, h with
    | 0, h => cases h; unfold PatchAt Patch.Ok FieldAt CellsAt goodWindow; decide
    | 1, h => cases h; unfold PatchAt Patch.Ok FieldAt CellsAt; decide
    | i + 2, h => simp [pr2Patches] at h
  · match j, h with
    | 0, h => cases h; exact codeAt_pr2.2
    | j + 1, h => simp at h

/-- The configuration does not lie in SRC. -/
def withSrc (m : Memory) (s : State) : State := { s with src := m }

theorem configHolds_withSrc {m : Memory} {s : State} {ps : List Patch} {cs : List Nibbles} (h : ConfigHolds s ps cs) :
    ConfigHolds (withSrc m s) ps cs := h

/-- Cells `k .. k + n` holding `f`. -/
def filled (f : Nat → Byte) (k : Nat) : Nat → Memory
  | 0     => []
  | n + 1 => (k, f k) :: filled f (k + 1) n

theorem memRead_filled {d : Option Byte} {f : Nat → Byte} {k n j : Nat} (h1 : k ≤ j) (h2 : j < k + n) :
    memRead d (filled f k n) j = some (f j) := by
  induction n generalizing k with
  | zero => omega
  | succ n ih =>
    by_cases h : j = k
    · subst h; simp [filled, memRead]
    · simp only [filled, memRead, h, if_false]
      exact ih (by omega) (by omega)

theorem byteAt_filled {s : State} {b : Buf} {f : Nat → Byte} {n j : Nat} (h : getMem s b = filled f 0 n) (hj : j < n) :
    byteAt s b j = some (f j) := by
  rw [byteAt, h]
  exact memRead_filled (Nat.zero_le _) (by omega)

/-- PR2's whole image. -/
def pr2Byte (k : Nat) : Byte :=
  if 0x1000 ≤ k ∧ k < 0x1008 then goodWindow.getD (k - 0x1000) 0
  else if k = 0x2000 then 0xA9
  else [0x4E, 0x45, 0x53, 0x1A, 2, 1].getD k 0

def pr2Image : List Byte := (List.range 40976).map pr2Byte

/-- PR2's state before RUN, the whole image written. -/
def pr2Whole : State := withSrc (filled pr2Byte 0 40976) pr2

theorem getElem?_map_range {f : Nat → Byte} {n j : Nat} (h : j < n) : ((List.range n).map f)[j]? = some (f j) := by
  simp [h]

theorem length_map_range {f : Nat → Byte} {n : Nat} : ((List.range n).map f).length = n := by simp

theorem take_map_range {f : Nat → Byte} {n : Nat} (h : 4 ≤ n) : ((List.range n).map f).take 4 = [f 0, f 1, f 2, f 3] := by
  rw [← List.map_take, List.take_range, Nat.min_eq_left h]; rfl

theorem getElem?_pr2Image {j : Nat} (h : j < 40976) : pr2Image[j]? = some (pr2Byte j) := by
  exact getElem?_map_range h

/-- RunRefinesSource: every hypothesis, on PR2. -/
theorem witness_run : pr2Whole.params.wf = true ∧ pr2Whole.srcLen.toNat = pr2Whole.params.imageLen
    ∧ ImageAt pr2Whole .src pr2Image ∧ headerOk pr2Whole.params pr2Image
    ∧ ConfigHolds pr2Whole pr2Patches [sxiopoNibbles] := by
  have hl : pr2Image.length = 40976 := length_map_range
  refine ⟨by decide, by decide, ⟨hl, fun j hj => ?_⟩, ⟨?_, ?_, ?_⟩,
    configHolds_withSrc witness_config⟩
  · rw [hl] at hj
    rw [getElem?_pr2Image hj, Nat.zero_add]
    exact byteAt_filled rfl hj
  · exact (take_map_range (by decide)).trans (by decide)
  · rw [show pr2Whole.params.bank0Off = 4 from rfl, getElem?_pr2Image (by decide)]; decide
  · rw [show pr2Whole.params.bank1Off = 5 from rfl, getElem?_pr2Image (by decide)]; decide

/-- RunRefinesSource, its other end (T-ORCH-6): the empty lists on the same image, nothing applied. -/
theorem witness_run_none : ConfigHolds (withSrc (filled pr2Byte 0 40976) (imaged State.reset)) [] []
    ∧ ((foldPatches [] pr2Image).2.filter (· = true)).length = 0 :=
  ⟨configHolds_withSrc ⟨by decide, by decide, by decide, by decide, fun i p h => by simp at h, fun j n h => by simp at h⟩,
    rfl⟩

/-- RunFormatError: T-ORCH-7's image in PR2. -/
theorem witness_run_format : ConfigHolds (put .src 4 [3] pr2) pr2Patches [sxiopoNibbles]
    ∧ validate (put .src 4 [3] pr2) = .error (.raised (formatError 3)) :=
  ⟨configHolds_withSrc witness_config, eq_of_raises (by decide)⟩

/-- RunErrorBeforeWork: the three errors. -/
theorem witness_run_errors : (∃ t, exec .run badKind = .next t ∧ t.status.err = .configError)
    ∧ (∃ t, exec .run badCode = .next t ∧ t.status.err = .invalidCode)
    ∧ ∃ t, exec .run State.reset = .next t ∧ t.status.err = .formatError := by
  refine ⟨?_, ?_, ?_⟩
  · obtain ⟨t, h, e⟩ := exists_of_after (p := fun t => t.status.err == .configError) (o := exec .run badKind) (by decide)
    exact ⟨t, h, eq_of_beq e⟩
  · obtain ⟨t, h, e⟩ := exists_of_after (p := fun t => t.status.err == .invalidCode) (o := exec .run badCode) (by decide)
    exact ⟨t, h, eq_of_beq e⟩
  · obtain ⟨t, h, e⟩ := exists_of_after (p := fun t => t.status.err == .formatError) (o := exec .run State.reset) (by decide)
    exact ⟨t, h, eq_of_beq e⟩

/-- RunCountsEveryPatch and RunEqualsHandDrivenFold: PR2's run, and T-ORCH-6's, which applies nothing. -/
theorem witness_run_done : (∃ t, exec .run pr2 = .next t ∧ (t.seqPos.phase = .done ∧ t.appliedCnt ≠ 0))
    ∧ ∃ t, exec .run (imaged State.reset) = .next t ∧ (t.seqPos.phase = .done ∧ t.appliedCnt = 0) := by
  refine ⟨?_, ?_⟩
  · obtain ⟨t, h, e⟩ := exists_of_after (p := fun t => decide (t.seqPos.phase = .done ∧ t.appliedCnt ≠ 0))
      (o := exec .run pr2) (by decide)
    exact ⟨t, h, of_decide_eq_true e⟩
  · obtain ⟨t, h, e⟩ := exists_of_after (p := fun t => decide (t.seqPos.phase = .done ∧ t.appliedCnt = 0))
      (o := exec .run (imaged State.reset)) (by decide)
    exact ⟨t, h, of_decide_eq_true e⟩

/-- CommandsKeepProgram, CommandsWriteOnlyTheirOwn, FlagsAtCompletion, ErrorsComeBeforeWrites, ErrorsPerCommand: commands
that answer a next state, with a match, without, and with an error found before any write. -/
theorem witness_next : (∃ t, exec (.patchStep 0) (single 0xA9) = .next t ∧ (t.status.matched = true ∧ t.status.err = .none))
    ∧ ∃ t, exec .decode State.reset = .next t ∧ (t.status.err ≠ .none ∧ t.status.err ≠ .noneApplied) := by
  refine ⟨?_, ?_⟩
  · obtain ⟨t, h, e⟩ := exists_of_after (p := fun t => decide (t.status.matched = true ∧ t.status.err = .none))
      (o := exec (.patchStep 0) (single 0xA9)) (by decide)
    exact ⟨t, h, of_decide_eq_true e⟩
  · obtain ⟨t, h, e⟩ := exists_of_after (p := fun t => decide (t.status.err ≠ .none ∧ t.status.err ≠ .noneApplied))
      (o := exec .decode State.reset) (by decide)
    exact ⟨t, h, of_decide_eq_true e⟩

/-- A wholly written block. -/
def loaded : State :=
  { State.reset with
    src := filled (fun _ => 0) 0 40976
    work := filled (fun _ => 0) 0 40976
    ptab := filled (fun _ => 0) 0 65536
    ctab := filled (fun _ => 0) 0 2048 }

theorem witness_loaded : loaded.params.wf = true ∧ Loaded loaded := by
  refine ⟨by decide, fun b k hk => ?_⟩
  cases b
  case outcome => exact ⟨0, rfl⟩
  all_goals exact ⟨0, byteAt_filled (f := fun _ => 0) rfl hk⟩

/-- PendingCommandCompletes: a RUN in progress on it, with a dropped write and two reads pending. -/
theorem witness_pending :
    let s := { busy loaded with cmd := 0x0000000C, inputs := [wr8 0x10000 0, rd32 0x00004, rd32 0x0000C] }
    s.params.wf = true ∧ s.status.busy = true ∧ Loaded s ∧ (∀ i ∈ s.inputs, isAccess i = true)
      ∧ (Input.write .byte (portAddr 0x10000) 0 ∈ s.inputs)
      ∧ (Input.read .word (portAddr 0x0000C) ∈ s.inputs
          ∧ portTarget s.params .word (portAddr 0x0000C) ≠ some (.reg .status)) :=
  ⟨by decide, rfl, witness_loaded.2, by decide, by decide, by decide⟩

/-- PortMapReaches: the edges of each clause; the last register, the last cells of a window, the last port address. -/
theorem witness_port_map :
    (portAddr 0x10002).toNat % widthBytes .word ≠ 0
    ∧ ((portAddr 0xFFFF).toNat < 0x10000 ∧ Width.byte ≠ .word)
    ∧ (portAddr 0x48).toNat = 4 * 18
    ∧ (0x4C ≤ (portAddr 0x4C).toNat ∧ (portAddr 0xFFFC).toNat < 0x10000)
    ∧ ((portAddr 0x1A00C).toNat = 0x10000 + 0xA00C ∧ 0xA00C + widthBytes .word ≤ Params.default.imageLen)
    ∧ ((portAddr 0x5FFFF).toNat = 0x50000 + 0xFFFF ∧ Params.default.nPatchMax < 0xFFFF + widthBytes .byte)
    ∧ 0x60000 ≤ (portAddr 0x60000).toNat ∧ 0x60000 ≤ (portAddr 0x7FFFF).toNat := by decide

/-- AccessNotAdmitted: each way not to be admitted. -/
theorem witness_not_admitted : portTarget Params.default .half (portAddr 0x21001) = none
    ∧ portTarget Params.default .byte (portAddr 0x20000) = some (.cells .work 0)
    ∧ portTarget Params.default .byte (portAddr 0x500FF) = some (.cells .outcome 255)
    ∧ portTarget Params.default .word (portAddr 0x00028) = some (.reg .decAddr) := by decide

/-- BusyRule, and the busy clauses of StatusWriteClearsSticky and CommandAccepted. -/
theorem witness_busy : (busy State.reset).status.busy = true
    ∧ portTarget (busy State.reset).params .word (portAddr 0x00000) = some (.reg .cmd)
    ∧ writeAdmitted (busy State.reset).params .word (portAddr 0x00000) ≠ none
    ∧ portTarget (busy State.reset).params .word (portAddr 0x00004) = some (.reg .status) := by decide

/-- IdleReadHasNoSideEffect, RegisterWriteThenRead, WindowWriteIsLittleEndian, and the idle clauses of the two above. -/
theorem witness_idle :
    let s := put .ptab 0xFFFC [1, 2, 3, 4] State.reset
    s.status.busy = false ∧ portTarget s.params .word (portAddr 0x3FFFC) = some (.cells .ptab 0xFFFC)
      ∧ CellsAt s .ptab 0xFFFC [1, 2, 3, 4] ∧ portTarget s.params .word (portAddr 0x0003C) = some (.reg .encValue)
      ∧ (portAddr 0x00000).toNat = 0 ∧ (portAddr 0x00004).toNat = 0x004 := by
  unfold CellsAt; decide

/-- RegisterWriteThenRead: a register of each of its three widths. -/
theorem witness_register_widths : portTarget Params.default .word (portAddr 0x00018) = some (.reg .patchCount)
    ∧ portTarget Params.default .word (portAddr 0x00014) = some (.reg .srcLen)
    ∧ portTarget Params.default .word (portAddr 0x0003C) = some (.reg .encValue) := by decide

/-- CommandAccepted: a word that writes WORK, and one that does not. -/
theorem witness_writes_work : writesWork 0x0000000C ∧ ¬ writesWork 0x0000000D := by
  unfold writesWork badRsv badIdx; decide

/-- ResetInputAbandonsCommand: reset while a command is in progress. -/
theorem witness_reset_input : { busy pr2 with inputs := [.reset] }.params.wf = true
    ∧ { busy pr2 with inputs := [.reset] }.inputs = [.reset] := ⟨by decide, rfl⟩

/-- StepPerformsDecodedCommand, both clauses; StepPerformsInputs's idle clauses hold of the reset state. -/
theorem witness_step_command : (busy { State.reset with cmd := 0x0D }).status.busy = true
    ∧ decode (busy { State.reset with cmd := 0x0D }).cmd = .ok .clearCounts
    ∧ (busy { State.reset with cmd := 0x0D }).inputs = [] ∧ (State.reset.withFetchWord 32 0x0D).inputs = [.engine]
    ∧ (State.reset.withFetchWord 32 0x0D).status.busy = true := ⟨rfl, rfl, rfl, rfl, rfl⟩

theorem witness_step_inputs : { State.reset with params := { Params.default with nPatchMax := 0 } }.params.wf = false
    ∧ State.reset.params.wf = true ∧ State.reset.status.busy = false ∧ State.reset.inputs = []
    ∧ { State.reset with inputs := [.engine] }.inputs = [.engine] := ⟨by decide, by decide, rfl, rfl, rfl⟩

/-- WrittenCommandIsPerformed: COPY written to CMD of an idle block. -/
theorem witness_written_command : { State.reset with inputs := [wr32 0 8] }.inputs = [.write .word (portAddr 0) 8]
    ∧ (portAddr 0).toNat = 0 ∧ decode 8 = .ok .copy := ⟨rfl, rfl, rfl⟩

/-- StepKeepsInvariant: a CLEAR_COUNTS in progress, WORK written and OUTCOME marked. -/
def marked : State := busy { single 0xA9 with cmd := 0x0D, outcome := [(0, 2)], failedCnt := 1 }

theorem witness_invariant : marked.Inv ∧ ∃ t, step marked = .next t := by
  refine ⟨⟨by decide, fun b => by cases b <;> decide, fun k v h => ?_, by decide, by decide, by decide, by decide, rfl,
    .inl rfl, by decide, fun i _ hd hc => ?_⟩, ?_⟩
  · simp only [byteAt, getMem, marked, busy, memRead, unlisted] at h
    split at h <;> cases h <;> decide
  · cases hd; cases hc
  · obtain ⟨t, h, -⟩ := exists_of_after (p := fun _ => true) (o := step marked) (by decide)
    exact ⟨t, h⟩

end Witnesses

end Sys2Proof.Tests
end

/-! ## Proofs of the family `10_state.md`

### What a command answers

One inversion of `exec` over all commands, assembled from the inversions of the meanings (Laws/Inversion.lean,
Laws/Run.lean): the state a command leaves before its completion, and the completion. -/

namespace Sys2Proof.Machine

/-- CHECK_CONFIG writes nothing before its completion (44_orchestrator.md R163). -/
theorem execCheckConfig_next {s t : State} (h : execCheckConfig s = .next t) :
    t = complete false s ∨ ∃ e, t = completeRaised e s ∧ e.Fits := by
  obtain ⟨hdone, hraised⟩ := checkConfig_cases false s
  unfold execCheckConfig runOutcome at h
  split at h
  · rename_i u hu
    obtain ⟨-, i, rfl⟩ := hdone u hu
    cases h
    exact .inl rfl
  · rename_i e u hu
    obtain ⟨-, hfits, i, rfl⟩ := hraised e u hu
    cases h
    exact .inr ⟨e, rfl, hfits⟩
  · cases h

/-- The state command `i` leaves in place of `s` just before its completion, OUTPUT_VALID written, `Leaves s i u`. -/
inductive Leaves (s : State) : Instr → State → Prop
  /-- Nothing written, by a command that keeps OUTPUT_VALID. -/
  | kept {i : Instr} (h : clearsOutputValid i = false) : Leaves s i s
  /-- Nothing written but OUTPUT_VALID, by a command other than RUN that clears it. -/
  | cleared {i : Instr} (h : clearsOutputValid i = true) (hrun : i ≠ .run) : Leaves s i (setOutputValid false s)
  /-- DECODE's result (40_codec.md R103). -/
  | decoded (a : BitVec 16) (v : Byte) : Leaves s .decode { s with decAddr := a, decValue := v }
  /-- ENCODE's result (R104). -/
  | encoded (a b : Word) : Leaves s .encode { s with codeOut0 := a, codeOut1 := b }
  /-- TO_OFFSET's result (R105). -/
  | offset (a : Word) : Leaves s .toOffset { s with offsetOut := a }
  /-- Cells of WORK inside the image written by an apply command (43_patch_applier.md R141, R143). -/
  | applied {i : Instr} {off : Nat} {bs : List Byte} (hi : ∃ k, i = .applySingle k ∨ i = .applyRegion k)
      (hb : off + bs.length ≤ s.params.imageLen) : Leaves s i (writeBytes .work off bs (setOutputValid false s))
  /-- COPY (44_orchestrator.md R160). -/
  | copied : Leaves s .copy (copyImage (setOutputValid false s))
  /-- PATCH_STEP, its checks passed (R166). -/
  | stepped {k : Nat} {u : State} (hk : k < s.params.nPatchMax) (hu : StepsTo k (setOutputValid false s) u) :
      Leaves s (.patchStep k) u
  /-- CODE_WRITE, its checks passed (R168). -/
  | codeWritten {j : Nat} (n : Nibbles) (a : BitVec 16) (v : Byte) (o : Word) :
      Leaves s (.codeWrite j) { writeByte .work ((decodeAddr n).toNat - 0x8000 + s.params.headerSize) (decodeValue n)
          (setOutputValid false s) with decAddr := a, decValue := v, offsetOut := o }
  /-- A run that an error ended before it wrote WORK (R172). -/
  | ranEarly {p : Phase} {k : BitVec 16} (h : p = .config ∨ (p = .format ∧ k = Config.noEntry)) :
      Leaves s .run (latchSeq (moveSeq p k (clearCounts (setOutputValid false s))))
  /-- A run that reached its DONE phase (R172, R171); `b` says whether some patch applied. -/
  | ran {u : State} (b : Bool) (hu : RunFolds s u) : Leaves s .run (latchSeq (setOutputValid b (moveSeq .done 0 u)))
  /-- CLEAR_COUNTS (R175). -/
  | countsCleared : Leaves s .clearCounts (clearCounts s)

/-- The commands that may end with MATCH 1 (10_state.md R36). -/
def MayMatch (i : Instr) : Prop := ∃ j, i = .verify j ∨ i = .applySingle j ∨ i = .patchStep j

/-- How command `i` can complete from the state `u` it left (60_exceptions.md R203). -/
inductive CompletesAs (i : Instr) (u : State) : State → Prop
  /-- Without error. -/
  | ok (m : Bool) (hm : m = true → MayMatch i) (hrun : i = .run → u.status.outputValid = true) :
      CompletesAs i u (complete m u)
  /-- By a raise. -/
  | raised (e : CmdError) (he : e.Fits) (hrun : i = .run → u.status.outputValid = false) :
      CompletesAs i u (completeRaised e u)

/-- A command other than RUN that completes without MATCH. -/
theorem CompletesAs.unmatched {i : Instr} {u : State} (hi : i ≠ .run) : CompletesAs i u (complete false u) :=
  .ok false (fun h => by cases h) fun h => absurd h hi

/-- A command other than RUN that raises. -/
theorem CompletesAs.error {i : Instr} {u : State} {e : CmdError} (hi : i ≠ .run) (he : e.Fits) :
    CompletesAs i u (completeRaised e u) :=
  .raised e he fun h => absurd h hi

/-- A run's patch and code phases change nothing but WORK, the counters, OUTCOME and SEQ. -/
theorem RunFolds.frame {s u : State} (h : RunFolds s u) : RunFrame (runStart s) u :=
  (h.induct (p := fun _ => True) trivial (fun _ _ _ _ _ _ _ => trivial) fun _ _ _ _ _ _ => trivial).2

/-- STATUS after them is the one RUN started with, OUTPUT_VALID cleared. -/
theorem RunFolds.status {s u : State} (h : RunFolds s u) : u.status = { s.status with outputValid := false } := by
  obtain ⟨-, hstatus, -⟩ := h.frame.fields
  exact hstatus

theorem setOutputValid_of_eq {b : Bool} {s : State} (h : s.status.outputValid = b) : setOutputValid b s = s := by
  subst h; rfl

/-- RUN, in the terms of `Leaves`. -/
theorem execRun_leaves {s t : State} (h : execRun s = .next t) : ∃ u, Leaves s .run u ∧ CompletesAs .run u t := by
  rcases execRun_next h with ⟨e, p, k, hp, he, rfl⟩ | ⟨u, hu, ⟨-, rfl⟩ | ⟨-, rfl⟩⟩
  · exact ⟨_, .ranEarly (hp.imp (·.1) fun h => ⟨h.1, h.2.1⟩), .raised e he fun _ => rfl⟩
  · have hv : (moveSeq .done 0 u).status.outputValid = false := by simp [hu.status]
    refine ⟨_, .ran false hu, ?_⟩
    rw [setOutputValid_of_eq hv]
    exact .raised noneApplied (fits_of_pos (by simp [noneApplied]) rfl) fun _ => hv
  · exact ⟨_, .ran true hu, .ok false (fun h => by cases h) fun _ => rfl⟩

/-- All that a command can answer with a next state. -/
theorem exec_leaves {i : Instr} {s t : State} (h : exec i s = .next t) : ∃ u, Leaves s i u ∧ CompletesAs i u t := by
  cases i with
  | decode =>
    rcases execDecode_next h with ⟨n, rfl⟩ | ⟨e, rfl, -, he⟩
    · exact ⟨_, .decoded _ _, .unmatched nofun⟩
    · exact ⟨_, .kept rfl, .error nofun he⟩
  | encode =>
    rcases execEncode_next h with ⟨a, b, rfl⟩ | ⟨e, rfl, -, he⟩
    · exact ⟨_, .encoded a b, .unmatched nofun⟩
    · exact ⟨_, .kept rfl, .error nofun he⟩
  | toOffset =>
    rcases execToOffset_next h with ⟨a, rfl⟩ | ⟨e, rfl, -, he⟩
    · exact ⟨_, .offset a, .unmatched nofun⟩
    · exact ⟨_, .kept rfl, .error nofun he⟩
  | validate =>
    rcases execValidate_next h with rfl | ⟨e, rfl, -, he⟩
    · exact ⟨_, .kept rfl, .unmatched nofun⟩
    · exact ⟨_, .kept rfl, .error nofun he⟩
  | verify k =>
    rcases execVerify_next h with ⟨m, rfl⟩ | ⟨e, rfl, -, he⟩
    · exact ⟨_, .kept rfl, .ok m (fun _ => ⟨k, .inl rfl⟩) nofun⟩
    · exact ⟨_, .kept rfl, .error nofun he⟩
  | applySingle k =>
    rcases execApplySingle_next h with ⟨m, u, rfl, rfl | ⟨off, v, hoff, rfl⟩⟩ | ⟨e, rfl, -, he⟩
    · exact ⟨_, .cleared rfl nofun, .ok m (fun _ => ⟨k, .inr (.inl rfl)⟩) nofun⟩
    · exact ⟨_, .applied (bs := [v]) ⟨k, .inl rfl⟩ hoff, .ok m (fun _ => ⟨k, .inr (.inl rfl)⟩) nofun⟩
    · exact ⟨_, .cleared rfl nofun, .error nofun he⟩
  | applyRegion k =>
    rcases execApplyRegion_next h with ⟨off, bs, hb, rfl⟩ | ⟨e, rfl, -, he⟩
    · exact ⟨_, .applied ⟨k, .inr rfl⟩ hb, .unmatched nofun⟩
    · exact ⟨_, .cleared rfl nofun, .error nofun he⟩
  | copy =>
    cases h
    exact ⟨_, .copied, .unmatched nofun⟩
  | checkConfig =>
    rcases execCheckConfig_next h with rfl | ⟨e, rfl, he⟩
    · exact ⟨_, .kept rfl, .unmatched nofun⟩
    · exact ⟨_, .kept rfl, .error nofun he⟩
  | patchStep k =>
    rcases execPatchStep_next h with ⟨m, u, rfl, hk, hu⟩ | ⟨e, rfl, -, he⟩
    · exact ⟨_, .stepped hk hu, .ok m (fun _ => ⟨k, .inr (.inr rfl)⟩) nofun⟩
    · exact ⟨_, .cleared rfl nofun, .error nofun he⟩
  | codeWrite j =>
    rcases execCodeWrite_next h with ⟨n, rfl⟩ | ⟨e, rfl, -, he⟩
    · exact ⟨_, .codeWritten n _ _ _, .unmatched nofun⟩
    · exact ⟨_, .cleared rfl nofun, .error nofun he⟩
  | run => exact execRun_leaves h
  | clearCounts =>
    cases h
    exact ⟨_, .countsCleared, .unmatched nofun⟩

/-! ### Completion -/

theorem next_ne_refused {t : State} {r : Refusal} :
    (.next t : Host.Outcome State Fault Refusal) ≠ .refused r := nofun

/-- A part of a command, once it has ended, is no refusal. -/
theorem runOutcome_ne_refused (p : RunResult) (r : Refusal) : runOutcome p ≠ .refused r := by
  cases p <;> exact nofun

theorem execRun_ne_refused (s : State) (r : Refusal) : execRun s ≠ .refused r := by
  unfold execRun
  cases runBody s <;> exact nofun

theorem execToOffset_ne_refused (s : State) (r : Refusal) : execToOffset s ≠ .refused r := by
  unfold execToOffset
  split <;> exact next_ne_refused

/-- No meaning refuses (the one refusal of the model is the step's). -/
theorem exec_ne_refused (i : Instr) (s : State) (r : Refusal) : exec i s ≠ .refused r := by
  cases i with
  | decode => exact runCheck_ne_refused fun _ => next_ne_refused
  | encode => exact runCheck_ne_refused fun _ => next_ne_refused
  | toOffset => exact execToOffset_ne_refused s r
  | validate => exact runCheck_ne_refused fun _ => next_ne_refused
  | verify k => exact runCheck_ne_refused fun _ => next_ne_refused
  | applySingle k => exact runCheck_ne_refused fun _ => next_ne_refused
  | applyRegion k => exact runCheck_ne_refused fun _ => next_ne_refused
  | copy => exact next_ne_refused
  | checkConfig => exact runOutcome_ne_refused _ r
  | patchStep k => exact runCheck_ne_refused fun _ => next_ne_refused
  | codeWrite j => exact runCheck_ne_refused fun _ => next_ne_refused
  | run => exact execRun_ne_refused s r
  | clearCounts => exact next_ne_refused

/-- A part of a command that completes lets the command answer a next state. -/
theorem runOutcome_next_of_completes {r : RunResult} (h : r.Completes) : ∃ t, runOutcome r = .next t := by
  cases r with
  | done u => exact ⟨_, rfl⟩
  | raised e u => exact ⟨_, rfl⟩
  | faulted f => exact absurd rfl (h f)

/-- TO_OFFSET reads no memory (40_codec.md R105). -/
theorem execToOffset_next_exists (s : State) : ∃ t, execToOffset s = .next t := by
  unfold execToOffset
  split <;> exact ⟨_, rfl⟩

theorem execRun_next_of_completes {s : State} (h : (runBody s).Completes) : ∃ t, execRun s = .next t := by
  unfold execRun
  cases hb : runBody s with
  | done u => exact ⟨_, rfl⟩
  | raised e u => exact ⟨_, rfl⟩
  | faulted f => exact absurd hb (h f)

/-- KIND is read from a written table without a stop (43_patch_applier.md R141, R143). -/
theorem noFault_checkKind {s : State} {i kind : Nat} (h : Written s .ptab) (hi : i < s.params.nPatchMax) :
    NoFault (checkKind s i kind) :=
  .bind (.field h hi (by omega)) fun _ _ => .require

/-- A patch command's checks, and what comes after them for a descriptor in the table that passed. -/
theorem noFault_checkPatch_bind {α : Type} {s : State} {i : Nat} {f : Unit → Check α} (h : Written s .ptab)
    (hf : ∀ u, i < s.params.nPatchMax → checkDesc s i = .ok () → NoFault (f u)) :
    NoFault (checkPatch s i >>= f) := by
  refine .bind (noFault_checkPatch h) fun u hu => ?_
  obtain ⟨_, hindex, hdesc⟩ := check_bind_eq_ok.1 hu
  exact hf u (require_eq_ok hindex).2 hdesc

/-- What follows the kind check, for a descriptor of that kind. -/
theorem noFault_checkKind_bind {α : Type} {s : State} {i kind : Nat} {f : Unit → Check α} (h : Written s .ptab)
    (hi : i < s.params.nPatchMax) (hf : ∀ u, descKind s i = .ok kind → NoFault (f u)) :
    NoFault (checkKind s i kind >>= f) := by
  refine .bind (noFault_checkKind h hi) fun u hu => ?_
  obtain ⟨k, hk, hreq⟩ := check_bind_eq_ok.1 hu
  have : k = kind := require_eq_ok hreq
  exact hf u (this ▸ hk)

/-- On a wholly written block every command answers a next state (70_reset_and_hazards.md R238). -/
theorem exec_next_of_loaded {s : State} (hP : s.params.wf = true) (hl : Loaded s) (i : Instr) :
    ∃ t, exec i s = .next t := by
  have hl' : Loaded (setOutputValid false s) := loaded_same hl rfl rfl rfl rfl rfl
  cases i with
  | decode => exact runCheck_next_of_noFault (noFault_checkCode fun _ _ => .ok _) fun _ => ⟨_, rfl⟩
  | encode => exact runCheck_next_of_noFault .require fun _ => ⟨_, rfl⟩
  | toOffset => exact execToOffset_next_exists s
  | validate => exact runCheck_next_of_noFault (noFault_validate hP (hl .src)) fun _ => ⟨_, rfl⟩
  | verify k =>
    exact runCheck_next_of_noFault (noFault_checkPatch_bind (hl .ptab) fun _ hk hd =>
      noFault_matchPatch (hl .work) (hl .ptab) hk hd) fun _ => ⟨_, rfl⟩
  | applySingle k =>
    exact runCheck_next_of_noFault (noFault_checkPatch_bind (hl' .ptab) fun _ hk hd =>
      noFault_checkKind_bind (hl' .ptab) hk fun _ hkind =>
        noFault_applySinglePatch (hl' .work) (hl' .ptab) hk hd hkind) fun _ => ⟨_, rfl⟩
  | applyRegion k =>
    exact runCheck_next_of_noFault (noFault_checkPatch_bind (hl' .ptab) fun _ hk hd =>
      noFault_checkKind_bind (hl' .ptab) hk fun _ hkind =>
        noFault_applyRegionPatch (hl' .ptab) hk hd hkind (by decide)) fun _ => ⟨_, rfl⟩
  | copy => exact ⟨_, rfl⟩
  | checkConfig => exact runOutcome_next_of_completes (completes_checkConfig hl)
  | patchStep k =>
    exact runCheck_next_of_noFault (noFault_checkPatch_bind (hl' .ptab) fun _ hk hd =>
      noFault_patchStep (hl' .work) (hl' .ptab) hk hd) fun _ => ⟨_, rfl⟩
  | codeWrite j =>
    exact runCheck_next_of_noFault (.bind .require fun _ hj =>
      noFault_codeWriteOperands (hl' .ctab) (require_eq_ok hj).2) fun _ => ⟨_, rfl⟩
  | run => exact execRun_next_of_completes (completes_runBody hP hl)
  | clearCounts => exact ⟨_, rfl⟩

/-- Settles O42: no meaning refuses, and on written memories no check stops. -/
theorem commandsCompleteOnWrittenBlock : Obligations.CommandsCompleteOnWrittenBlock :=
  ⟨exec_ne_refused, fun i _ hP hl => exec_next_of_loaded hP hl i⟩

end Sys2Proof.Machine

/-! ### The invariant of the block

`State.Inv` in three layers: the memories, which every part of a command keeps; the sequencer and OUTPUT_VALID, which are
in order whenever a command is about to complete; the flags a completion writes. -/

namespace Sys2Proof.Machine

open Sys2Proof.Claims

/-- The part of the invariant about parameters and memories. -/
structure MemInv (s : State) : Prop where
  params : s.params.wf = true
  mems : ∀ b, bufWf s b = true
  outcomes : ∀ k v, byteAt s .outcome k = some v → outcomeByte v = true

/-- The part of the invariant that holds already before a command's completion. -/
structure Settled (s : State) : Prop where
  mem : MemInv s
  seqPos : s.seqPos = s.seq
  seqLegal : s.seq = ⟨.idle, 0⟩ ∨ s.seq.phase = .config ∨ s.seq = ⟨.format, 0xFFFF⟩ ∨ s.seq = ⟨.done, 0⟩
  validDone : s.status.outputValid = true → s.seq = ⟨.done, 0⟩

theorem State.Inv.settled {s : State} (h : s.Inv) : Settled s :=
  ⟨⟨h.params, h.mems, h.outcomes⟩, h.seqPos, h.seqLegal, h.validDone⟩

/-! #### The memories -/

theorem MemInv.of_same {s u : State} (h : MemInv s) (hp : u.params = s.params) (hm : ∀ b, getMem u b = getMem s b) :
    MemInv u where
  params := hp ▸ h.params
  mems b := by simpa only [bufWf, hp, hm] using h.mems b
  outcomes k v hv := h.outcomes k v (by simpa only [byteAt, hm] using hv)

/-- Canonical memories stay so when one of them is replaced by a canonical one. -/
theorem bufWf_setMem {s : State} {b : Buf} {m : Memory} (h : ∀ b', bufWf s b' = true)
    (hm : memWf (unlisted b) (bufSize s.params b) m = true) (b' : Buf) : bufWf (setMem s b m) b' = true := by
  unfold bufWf
  rw [getMem_setMem, setMem_params]
  split
  · next hb => subst hb; exact hm
  · exact h b'

/-- A byte sequence written inside a memory other than OUTCOME. -/
theorem MemInv.writeBytes {s : State} {b : Buf} {k : Nat} {bs : List Byte} (h : MemInv s) (hb : b ≠ .outcome)
    (hk : k + bs.length ≤ bufSize s.params b) : MemInv (writeBytes b k bs s) where
  params := by simpa using h.params
  mems := bufWf_setMem h.mems (memWf_memWriteList (h.mems b) hk)
  outcomes j v hv := h.outcomes j v (by rwa [byteAt_writeBytes_outside (.inl hb.symm)] at hv)

/-- One of the three OUTCOME bytes written to a slot of the table (10_state.md R41). -/
theorem MemInv.writeOutcome {s : State} {i : Nat} {v : Byte} (h : MemInv s) (hi : i < s.params.nPatchMax)
    (hv : outcomeByte v = true) : MemInv (writeByte .outcome i v s) where
  params := by simpa using h.params
  mems := bufWf_setMem h.mems (memWf_memWrite (h.mems .outcome) hi)
  outcomes j x hx := by
    by_cases hj : j = i
    · subst hj
      rw [byteAt_writeByte_same_wf (h.mems .outcome)] at hx
      cases hx
      exact hv
    · exact h.outcomes j x (by rwa [byteAt_writeByte_ne (.inr hj)] at hx)

theorem MemInv.copyImage {s : State} (h : MemInv s) : MemInv (copyImage s) where
  params := h.params
  mems b := by
    have hsrc := h.mems .src
    cases b with
    | work => exact memWfFrom_filter hsrc (Nat.le_refl s.params.imageLen)
    | src => exact hsrc
    | ptab => exact h.mems .ptab
    | ctab => exact h.mems .ctab
    | outcome => exact h.mems .outcome
  outcomes := h.outcomes

theorem MemInv.clearCounts {s : State} (h : MemInv s) : MemInv (clearCounts s) where
  params := h.params
  mems b := by
    cases b with
    | outcome => rfl
    | src => exact h.mems .src
    | work => exact h.mems .work
    | ptab => exact h.mems .ptab
    | ctab => exact h.mems .ctab
  outcomes k v hv := by cases hv; rfl

/-- A patch step on a slot of the table keeps the memories in order (44_orchestrator.md R165). -/
theorem MemInv.stepsTo {i : Nat} {s u : State} (h : MemInv s) (hi : i < s.params.nPatchMax) (hu : StepsTo i s u) :
    MemInv u := by
  rcases hu with rfl | ⟨w, rfl, rfl | ⟨off, bs, hb, rfl⟩⟩
  · exact (h.of_same (u := { s with failedCnt := s.failedCnt + 1 }) rfl fun b => by cases b <;> rfl).writeOutcome hi rfl
  · exact (h.of_same (u := { w with appliedCnt := w.appliedCnt + 1 }) rfl fun b => by cases b <;> rfl).writeOutcome hi rfl
  · have hw := h.writeBytes (b := .work) (k := off) (bs := bs) nofun hb
    exact (hw.of_same (u := { Machine.writeBytes .work off bs s with appliedCnt := s.appliedCnt + 1 }) rfl
      fun b => by cases b <;> rfl).writeOutcome hi rfl

/-- A code's cell written (R167; 40_codec.md R106). -/
theorem MemInv.writeCode {s : State} (h : MemInv s) (n : Nibbles) :
    MemInv (writeByte .work ((decodeAddr n).toNat - 0x8000 + s.params.headerSize) (decodeValue n) s) :=
  h.writeBytes (bs := [decodeValue n]) nofun (codeCell_bounds h.params n).2

theorem MemInv.moveSeq {s : State} (h : MemInv s) (p : Phase) (i : BitVec 16) : MemInv (moveSeq p i s) :=
  h.of_same rfl (by simp)

theorem RunFrame.params {s u : State} (h : RunFrame s u) : u.params = s.params := by
  rw [← h]

/-- RUN's patch and code phases keep the memories in order. -/
theorem MemInv.runFolds {s u : State} (h : MemInv s) (hu : RunFolds s u) : MemInv u := by
  have ⟨_, _, hpatches, _⟩ := hu
  have hclear : MemInv (Machine.clearCounts (setOutputValid false s)) :=
    (h.of_same (u := setOutputValid false s) rfl (by simp)).clearCounts
  have paramsOf : ∀ {v}, RunFrame (runStart s) v → v.params = s.params := RunFrame.params
  refine (hu.induct (p := MemInv) (hclear.moveSeq _ _).copyImage (fun i hi v w hf hv hw => ?_)
    fun j _ v n hf hv => ?_).1
  · have hlt : i < v.params.nPatchMax := by rw [paramsOf hf]; omega
    exact (hv.moveSeq .patch (BitVec.ofNat 16 i)).stepsTo hlt hw
  · rw [← paramsOf hf]
    exact (hv.moveSeq .code (BitVec.ofNat 16 j)).writeCode n

/-! #### Commands -/

/-- What changes neither parameters, memories nor the sequencer, and does not set OUTPUT_VALID. -/
theorem Settled.of_same {s u : State} (h : Settled s) (hp : u.params = s.params) (hm : ∀ b, getMem u b = getMem s b)
    (hpos : u.seqPos = s.seqPos) (hseq : u.seq = s.seq)
    (hv : u.status.outputValid = true → s.status.outputValid = true) : Settled u where
  mem := h.mem.of_same hp hm
  seqPos := by rw [hpos, hseq, h.seqPos]
  seqLegal := hseq ▸ h.seqLegal
  validDone ht := hseq ▸ h.validDone (hv ht)

/-- What changes memories only, keeping them in order. -/
theorem Settled.of_mem {s u : State} (h : Settled s) (hm : MemInv u) (hpos : u.seqPos = s.seqPos)
    (hseq : u.seq = s.seq) (hst : u.status = s.status) : Settled u where
  mem := hm
  seqPos := by rw [hpos, hseq, h.seqPos]
  seqLegal := hseq ▸ h.seqLegal
  validDone := hseq ▸ hst ▸ h.validDone

theorem Settled.outputInvalid {s : State} (h : Settled s) : Settled (setOutputValid false s) :=
  h.of_same rfl (by simp) rfl rfl nofun

/-- A run that ends at a legal place, SEQ latched there (10_state.md R33). -/
theorem settled_latchSeq {s : State} (h : MemInv s)
    (hseq : s.seq.phase = .config ∨ s.seq = ⟨.format, 0xFFFF⟩ ∨ s.seq = ⟨.done, 0⟩)
    (hv : s.status.outputValid = true → s.seq = ⟨.done, 0⟩) : Settled (latchSeq s) :=
  ⟨h.of_same rfl (by simp), rfl, .inr hseq, hv⟩

/-- A patch step moves neither the sequencer nor STATUS. -/
theorem StepsTo.keeps {i : Nat} {s u : State} (h : StepsTo i s u) :
    u.seqPos = s.seqPos ∧ u.seq = s.seq ∧ u.status = s.status := by
  rcases h with rfl | ⟨w, rfl, rfl | ⟨off, bs, -, rfl⟩⟩ <;> exact ⟨rfl, rfl, rfl⟩

theorem Settled.stepsTo {i : Nat} {s u : State} (h : Settled s) (hi : i < s.params.nPatchMax) (hu : StepsTo i s u) :
    Settled u := by
  obtain ⟨hpos, hseq, hst⟩ := hu.keeps
  exact h.of_mem (h.mem.stepsTo hi hu) hpos hseq hst

/-- A command leaves a settled state before its completion. -/
theorem Leaves.settled {i : Instr} {s u : State} (hu : Leaves s i u) (h : Settled s) : Settled u := by
  have h' := h.outputInvalid
  cases hu with
  | kept => exact h
  | cleared => exact h'
  | decoded a v => exact h.of_same rfl (fun b => by cases b <;> rfl) rfl rfl id
  | encoded a b => exact h.of_same rfl (fun b => by cases b <;> rfl) rfl rfl id
  | offset a => exact h.of_same rfl (fun b => by cases b <;> rfl) rfl rfl id
  | applied hi hb => exact h'.of_mem (h'.mem.writeBytes nofun hb) rfl rfl rfl
  | copied => exact h'.of_mem h'.mem.copyImage rfl rfl rfl
  | stepped hk hu => exact h'.stepsTo hk hu
  | codeWritten n a v o =>
    exact (h'.of_mem (h'.mem.writeCode n) rfl rfl rfl).of_same rfl (fun b => by cases b <;> rfl) rfl rfl id
  | ranEarly hp =>
    refine settled_latchSeq (h'.mem.clearCounts.moveSeq _ _) ?_ nofun
    rcases hp with rfl | ⟨rfl, rfl⟩
    · exact .inl rfl
    · exact .inr (.inl rfl)
  | ran b hu =>
    exact settled_latchSeq (((h.mem.runFolds hu).moveSeq .done 0).of_same rfl (by simp)) (.inr (.inr rfl)) fun _ => rfl
  | countsCleared => exact h.of_mem h.mem.clearCounts rfl rfl rfl

/-- A completion without error gives the invariant (60_exceptions.md R203). -/
theorem Settled.inv_complete {s : State} (h : Settled s) (m : Bool) : (complete m s).Inv := by
  obtain ⟨hp, hm, ho⟩ := h.mem.of_same (u := complete m s) rfl (by simp)
  exact {
    params := hp, mems := hm, outcomes := ho
    busyDone := nofun
    matchErr := fun he => absurd rfl he
    errInfo := fun _ => rfl
    pos := ⟨by simp, fun _ => rfl⟩
    seqPos := h.seqPos, seqLegal := h.seqLegal, validDone := h.validDone
    validBusy := fun _ hb => by cases hb }

/-- A completion by a raise gives the invariant (R203, R204). -/
theorem Settled.inv_completeRaised {s : State} {e : CmdError} (h : Settled s) (he : e.Fits) :
    (completeRaised e s).Inv := by
  obtain ⟨hcode, hpos⟩ := he
  obtain ⟨hp, hm, ho⟩ := h.mem.of_same (u := completeRaised e s) rfl (by simp)
  exact {
    params := hp, mems := hm, outcomes := ho
    busyDone := nofun
    matchErr := fun _ => rfl
    errInfo := fun hn => absurd hn hcode
    pos := hpos
    seqPos := h.seqPos, seqLegal := h.seqLegal, validDone := h.validDone
    validBusy := fun _ hb => by cases hb }

theorem CompletesAs.inv {i : Instr} {u t : State} (ht : CompletesAs i u t) (h : Settled u) : t.Inv := by
  cases ht with
  | ok m => exact h.inv_complete m
  | raised e he => exact h.inv_completeRaised he

theorem fits_illegalCmd (e : DecodeError) : (illegalCmd e).Fits := by
  cases e <;> exact fits_of_pos nofun rfl

theorem performWord_keeps_inv {s t : State} (h : s.Inv) (ht : performWord s = .next t) : t.Inv := by
  unfold performWord at ht
  split at ht
  · obtain ⟨u, hu, hut⟩ := exec_leaves ht
    exact hut.inv (hu.settled h.settled)
  · next e _ =>
    cases ht
    exact h.settled.inv_completeRaised (fits_illegalCmd e)

theorem engineTurn_keeps_inv {s t : State} (h : s.Inv) (ht : engineTurn s = .next t) : t.Inv := by
  unfold engineTurn at ht
  split at ht
  · exact performWord_keeps_inv h ht
  · cases ht
    exact h

/-! #### The host port -/

/-- Two STATUS values differ in the sticky flags at most. -/
def SameButSticky (a b : Status) : Prop := { a with hazard := b.hazard, accessErr := b.accessErr } = b

theorem State.Inv.of_settled {s u : State} (h : s.Inv) (hu : Settled u) (hcmd : u.cmd = s.cmd)
    (hst : SameButSticky s.status u.status) (he : u.errInfo = s.errInfo) : u.Inv where
  params := hu.mem.params
  mems := hu.mem.mems
  outcomes := hu.mem.outcomes
  busyDone := by rw [← hst]; exact h.busyDone
  matchErr := by rw [← hst]; exact h.matchErr
  errInfo := by rw [← hst, he]; exact h.errInfo
  pos := by rw [← hst, he]; exact h.pos
  seqPos := hu.seqPos
  seqLegal := hu.seqLegal
  validDone := hu.validDone
  validBusy := by rw [← hst, hcmd]; exact h.validBusy

theorem State.Inv.portOwned {s : State} (h : s.Inv) (hz ae : Bool) (x : Word) (d : Nat) (l : List Input) :
    (portOwned hz ae x d l s).Inv :=
  h.of_settled (h.settled.of_same rfl (fun b => by cases b <;> rfl) rfl rfl id) rfl rfl rfl

/-- A host read that answers changes only what the port owns (70_reset_and_hazards.md R233, 20_memory.md R53, R56). -/
theorem hostRead_next {w : Width} {a : PortAddr} {s t : State} (h : hostRead w a s = .next t) :
    ∃ hz ae x d, t = portOwned hz ae x d s.inputs s := by
  unfold hostRead at h
  split at h
  · cases h
    split
    · exact ⟨true, true, 0, s.draws, rfl⟩
    · exact ⟨s.status.hazard, true, 0, s.draws, rfl⟩
  · split at h
    · cases h
      exact ⟨true, s.status.accessErr, _, _, rfl⟩
    · unfold readTarget at h
      split at h
      · cases h
        exact ⟨s.status.hazard, s.status.accessErr, _, s.draws, rfl⟩
      · split at h
        · cases h
          exact ⟨s.status.hazard, s.status.accessErr, _, s.draws, rfl⟩
        · cases h

theorem windowTarget_eq_some {P : Params} {b b' : Buf} {k k' n : Nat}
    (h : windowTarget P b k n = some (.cells b' k')) : k' + n ≤ bufSize P b' := by
  unfold windowTarget at h
  split at h
  · next hk => cases h; exact hk
  · cases h

/-- The cells an access reaches all exist (20_memory.md R51, R53). -/
theorem portTarget_cells {P : Params} {w : Width} {a : PortAddr} {b : Buf} {k : Nat}
    (h : portTarget P w a = some (.cells b k)) : k + widthBytes w ≤ bufSize P b := by
  unfold portTarget at h
  split at h
  · cases h
  · split at h
    · split at h
      · simp at h
      · cases h
    iterate 5 next => exact windowTarget_eq_some h
    · cases h

theorem writeAdmitted_eq_some {P : Params} {w : Width} {a : PortAddr} {x : Target}
    (h : writeAdmitted P w a = some x) : portTarget P w a = some x ∧ writable x = true := by
  unfold writeAdmitted at h
  split at h
  · cases h
  · next y hy =>
    split at h
    · next hw => cases h; exact ⟨hy, hw⟩
    · cases h

/-- All that a host write can do: set sticky flags, write a register, or write cells of SRC, PTAB or CTAB. -/
theorem hostWrite_cases (w : Width) (a : PortAddr) (v : Word) (s : State) :
    (∃ hz ae, hostWrite w a v s = portOwned hz ae s.rdata s.draws s.inputs s)
    ∨ (∃ r, hostWrite w a v s = writeReg r v s)
    ∨ ∃ b k bs, bufWritable b = true ∧ k + bs.length ≤ bufSize s.params b
        ∧ hostWrite w a v s = writeBytes b k bs s := by
  unfold hostWrite
  split
  · split
    · exact .inl ⟨true, true, rfl⟩
    · exact .inl ⟨s.status.hazard, true, rfl⟩
  · next x hx =>
    obtain ⟨htarget, hwritable⟩ := writeAdmitted_eq_some hx
    split
    · exact .inl ⟨true, s.status.accessErr, rfl⟩
    · cases x with
      | reg r => exact .inr (.inl ⟨r, rfl⟩)
      | cells b k =>
        exact .inr (.inr ⟨b, k, leBytes (widthBytes w) v.toNat, hwritable, by simpa using portTarget_cells htarget, rfl⟩)

/-- Acceptance keeps the invariant (60_exceptions.md R202). -/
theorem State.Inv.accept {s : State} (h : s.Inv) (w : Word) : (accept w s).Inv := by
  have hclear : (Machine.accept w s).status.outputValid = true → s.status.outputValid = true := fun hv =>
    (Bool.and_eq_true_iff.1 hv).1
  have hs : Settled (Machine.accept w s) := h.settled.of_same rfl (by simp) rfl rfl hclear
  exact {
    params := hs.mem.params, mems := hs.mem.mems, outcomes := hs.mem.outcomes
    busyDone := fun _ => rfl
    matchErr := h.matchErr, errInfo := h.errInfo, pos := h.pos
    seqPos := hs.seqPos, seqLegal := hs.seqLegal, validDone := hs.validDone
    validBusy := fun i _ hd hi => by
      have hd : decode w = .ok i := hd
      simp [acceptStatus, hd, Except.toOption, hi] }

/-- A register write while idle keeps the invariant: CMD accepts, STATUS clears sticky bits, any other register is no part
of it (10_state.md R21, R22, R24). -/
theorem State.Inv.writeReg {s : State} (h : s.Inv) (r : Reg) (v : Word) : (writeReg r v s).Inv := by
  cases r
  case cmd => exact h.accept v
  all_goals exact h.of_settled (h.settled.of_same rfl (fun b => by cases b <;> rfl) rfl rfl id) rfl rfl rfl

theorem hostWrite_keeps_inv {s : State} (h : s.Inv) (w : Width) (a : PortAddr) (v : Word) :
    (hostWrite w a v s).Inv := by
  rcases hostWrite_cases w a v s with ⟨hz, ae, he⟩ | ⟨r, he⟩ | ⟨b, k, bs, hb, hk, he⟩ <;> rw [he]
  · exact h.portOwned hz ae _ _ _
  · exact h.writeReg r v
  · have hout : b ≠ .outcome := by rintro rfl; cases hb
    refine h.of_settled (h.settled.of_mem (h.settled.mem.writeBytes hout hk) ?_ ?_ ?_) ?_ ?_ ?_ <;> simp [SameButSticky]

/-- The reset input gives the invariant, whatever was in progress (70_reset_and_hazards.md R230). -/
theorem inv_resetBlock {s : State} (hP : s.params.wf = true) : (resetBlock s).Inv where
  params := hP
  mems b := by cases b <;> rfl
  outcomes k v hv := by cases hv; rfl
  busyDone := nofun
  matchErr he := absurd rfl he
  errInfo _ := rfl
  pos := ⟨Nat.zero_le 5, fun _ => rfl⟩
  seqPos := rfl
  seqLegal := .inl rfl
  validDone := nofun
  validBusy _ hb := by cases hb

theorem perform_keeps_inv {i : Input} {s t : State} (h : s.Inv) (ht : perform i s = .next t) : t.Inv := by
  cases i with
  | read w a =>
    obtain ⟨hz, ae, x, d, rfl⟩ := hostRead_next ht
    exact h.portOwned hz ae x d s.inputs
  | write w a v =>
    cases ht
    exact hostWrite_keeps_inv h w a v
  | engine => exact engineTurn_keeps_inv h ht
  | reset =>
    cases ht
    exact inv_resetBlock h.params

theorem step_keeps_inv {s t : State} (h : s.Inv) (ht : step s = .next t) : t.Inv := by
  unfold step at ht
  rw [if_pos h.params] at ht
  split at ht
  · exact engineTurn_keeps_inv h ht
  · next i l _ =>
    exact perform_keeps_inv (h.portOwned s.status.hazard s.status.accessErr s.rdata s.draws l) ht

/-- Settles O59: every command leaves a settled state and completes it; every host access keeps the flags but the sticky
ones, or accepts; the reset input gives the invariant outright. -/
theorem stepKeepsInvariant : Obligations.StepKeepsInvariant := fun _ _ => step_keeps_inv

/-- Settles O58: the state after reset is what the reset input makes of it. -/
theorem resetMeetsInvariant : Obligations.ResetMeetsInvariant :=
  inv_resetBlock (s := State.reset) (by decide)

end Sys2Proof.Machine

/-! ### What each command writes, and its flags

Over `Leaves`, one lemma per group of fields; the completion then writes STATUS and ERR_INFO only. -/

namespace Sys2Proof.Machine

/-- A patch step and RUN's phases write no result register (92_eei_decisions.md D49). -/
theorem RunFrame.results {s u : State} (h : RunFrame s u) :
    u.decAddr = s.decAddr ∧ u.decValue = s.decValue ∧ u.offsetOut = s.offsetOut ∧ u.codeOut0 = s.codeOut0
      ∧ u.codeOut1 = s.codeOut1 := by
  rw [← h]
  exact ⟨rfl, rfl, rfl, rfl, rfl⟩

section Leaves

variable {i : Instr} {s u : State}

theorem Leaves.work_eq (h : Leaves s i u) (hi : clearsOutputValid i = false) : u.work = s.work := by
  cases h with
  | applied hk => obtain ⟨k, rfl | rfl⟩ := hk <;> cases hi
  | copied | stepped | codeWritten | ranEarly | ran => cases hi
  | _ => rfl

theorem Leaves.counts_eq (h : Leaves s i u) (hstep : ∀ j, i ≠ .patchStep j) (hrun : i ≠ .run)
    (hclear : i ≠ .clearCounts) :
    u.appliedCnt = s.appliedCnt ∧ u.failedCnt = s.failedCnt ∧ u.outcome = s.outcome := by
  cases h with
  | stepped => exact absurd rfl (hstep _)
  | ranEarly | ran => exact absurd rfl hrun
  | countsCleared => exact absurd rfl hclear
  | _ => exact ⟨rfl, rfl, rfl⟩

theorem Leaves.decoded_eq (h : Leaves s i u) (hdecode : i ≠ .decode) (hcode : ∀ j, i ≠ .codeWrite j) :
    u.decAddr = s.decAddr ∧ u.decValue = s.decValue := by
  cases h with
  | decoded => exact absurd rfl hdecode
  | codeWritten => exact absurd rfl (hcode _)
  | stepped _ hu =>
    obtain ⟨haddr, hvalue, -⟩ := hu.frame.results
    exact ⟨haddr, hvalue⟩
  | ran _ hu =>
    obtain ⟨haddr, hvalue, -⟩ := hu.frame.results
    exact ⟨haddr, hvalue⟩
  | _ => exact ⟨rfl, rfl⟩

theorem Leaves.offsetOut_eq (h : Leaves s i u) (hoffset : i ≠ .toOffset) (hcode : ∀ j, i ≠ .codeWrite j) :
    u.offsetOut = s.offsetOut := by
  cases h with
  | offset => exact absurd rfl hoffset
  | codeWritten => exact absurd rfl (hcode _)
  | stepped _ hu =>
    obtain ⟨-, -, hout, -⟩ := hu.frame.results
    exact hout
  | ran _ hu =>
    obtain ⟨-, -, hout, -⟩ := hu.frame.results
    exact hout
  | _ => rfl

theorem Leaves.codeOut_eq (h : Leaves s i u) (hencode : i ≠ .encode) :
    u.codeOut0 = s.codeOut0 ∧ u.codeOut1 = s.codeOut1 := by
  cases h with
  | encoded => exact absurd rfl hencode
  | stepped _ hu =>
    obtain ⟨-, -, -, hout⟩ := hu.frame.results
    exact hout
  | ran _ hu =>
    obtain ⟨-, -, -, hout⟩ := hu.frame.results
    exact hout
  | _ => exact ⟨rfl, rfl⟩

theorem Leaves.seq_eq (h : Leaves s i u) (hrun : i ≠ .run) : u.seq = s.seq ∧ u.seqPos = s.seqPos := by
  cases h with
  | stepped _ hu =>
    obtain ⟨hpos, hseq, -⟩ := hu.keeps
    exact ⟨hseq, hpos⟩
  | ranEarly | ran => exact absurd rfl hrun
  | _ => exact ⟨rfl, rfl⟩

/-- OUTPUT_VALID before the completion of a command other than RUN (10_state.md R36). -/
theorem Leaves.outputValid_eq (h : Leaves s i u) (hrun : i ≠ .run) :
    u.status.outputValid = (s.status.outputValid && !clearsOutputValid i) := by
  have hkept : clearsOutputValid i = false → s.status.outputValid = (s.status.outputValid && !clearsOutputValid i) :=
    fun hi => by simp [hi]
  have hcleared : clearsOutputValid i = true → false = (s.status.outputValid && !clearsOutputValid i) :=
    fun hi => by simp [hi]
  cases h with
  | kept hi => exact hkept hi
  | decoded | encoded | offset | countsCleared => exact hkept rfl
  | cleared hi => exact hcleared hi
  | applied hk => obtain ⟨k, rfl | rfl⟩ := hk <;> exact hcleared rfl
  | stepped _ hu =>
    obtain ⟨-, -, hst⟩ := hu.keeps
    rw [hst]
    exact hcleared rfl
  | copied | codeWritten => exact hcleared rfl
  | ranEarly | ran => exact absurd rfl hrun

end Leaves

/-- A completion writes STATUS and ERR_INFO only (60_exceptions.md R203). -/
theorem CompletesAs.frame {i : Instr} {u t : State} (h : CompletesAs i u t) :
    { u with status := t.status, errInfo := t.errInfo } = t := by
  cases h <;> rfl

/-- Settles O38: what each command leaves before its completion, group by group. -/
theorem commandsWriteOnlyTheirOwn : Obligations.CommandsWriteOnlyTheirOwn := by
  intro i s t h
  obtain ⟨u, hu, hut⟩ := exec_leaves h
  rw [← hut.frame]
  exact ⟨hu.work_eq, hu.counts_eq, hu.decoded_eq, hu.offsetOut_eq, hu.codeOut_eq, hu.seq_eq⟩

/-- Settles O39: the flags of the two completions, OUTPUT_VALID as the command left it. -/
theorem flagsAtCompletion : Obligations.FlagsAtCompletion := by
  intro i s t h
  obtain ⟨u, hu, hut⟩ := exec_leaves h
  cases hut with
  | ok m hm hrun => exact ⟨rfl, rfl, fun hmatch => ⟨rfl, hm hmatch⟩, hrun, hu.outputValid_eq, fun _ => rfl⟩
  | raised e he hrun =>
    obtain ⟨hcode, -⟩ := he
    refine ⟨rfl, rfl, nofun, fun hi => ?_, hu.outputValid_eq, fun hnone => absurd hnone hcode⟩
    exact (hrun hi).trans (beq_false_of_ne hcode).symm

/-! ### Registers at the host port -/

/-- While idle an admitted access of a writable register is the register's write (10_state.md R21). -/
theorem hostWrite_reg {w : Width} {a : PortAddr} {v : Word} {s : State} {r : Reg} (hidle : s.status.busy = false)
    (ht : portTarget s.params w a = some (.reg r)) (hr : regWritable r = true) :
    hostWrite w a v s = writeReg r v s := by
  simp [hostWrite, writeAdmitted, ht, writable, hr, hidle, writeTarget]

/-- While busy an admitted write is dropped as a hazard (70_reset_and_hazards.md R233). -/
theorem hostWrite_busy {w : Width} {a : PortAddr} {v : Word} {s : State} {r : Reg} (hbusy : s.status.busy = true)
    (ht : portTarget s.params w a = some (.reg r)) (hr : regWritable r = true) :
    hostWrite w a v s = markHazard s := by
  simp [hostWrite, writeAdmitted, ht, writable, hr, hbusy]

/-- The registers that hold an operand of the host and nothing else (10_state.md R27 to R32). -/
def operandRegs : List Reg := [.srcLen, .patchCount, .codeCount, .codeIn0, .codeIn1, .addrIn, .encAddr, .encValue]

theorem regWritable_of_operand {r : Reg} (h : r ∈ operandRegs) : regWritable r = true := by
  revert r; decide

/-- A word cut to `n` bits reads back with its other bits 0 (20_memory.md R56). -/
theorem setWidth_setWidth_eq_and (v : Word) {n : Nat} (hn : n ≤ 32) :
    (v.setWidth n).setWidth 32 = v &&& BitVec.ofNat 32 (2 ^ n - 1) := by
  have hle : 2 ^ n ≤ 2 ^ 32 := Nat.pow_le_pow_right (by decide) hn
  have hpos : 0 < 2 ^ n := Nat.two_pow_pos n
  have hmod : v.toNat % 2 ^ n < 2 ^ n := Nat.mod_lt _ hpos
  apply BitVec.eq_of_toNat_eq
  rw [BitVec.toNat_and, BitVec.toNat_ofNat, Nat.mod_eq_of_lt (by omega : 2 ^ n - 1 < 2 ^ 32),
    Nat.and_two_pow_sub_one_eq_mod, BitVec.toNat_setWidth, BitVec.toNat_setWidth,
    Nat.mod_eq_of_lt (by omega : v.toNat % 2 ^ n < 2 ^ 32)]

theorem readReg_writeReg_same {r : Reg} (h : r ∈ operandRegs) (v : Word) (s : State) :
    readReg r (writeReg r v s)
      = if r = .patchCount ∨ r = .codeCount then v &&& 0xFFFF else if r = .encValue then v &&& 0xFF else v := by
  cases r with
  | srcLen | codeIn0 | codeIn1 | addrIn | encAddr => rfl
  | patchCount | codeCount => exact setWidth_setWidth_eq_and v (n := 16) (by decide)
  | encValue => exact setWidth_setWidth_eq_and v (n := 8) (by decide)
  | _ => exact absurd h (by decide)

theorem readReg_writeReg_ne {r r' : Reg} (h : r ∈ operandRegs) (hne : r' ≠ r) (v : Word) (s : State) :
    readReg r' (writeReg r v s) = readReg r' s := by
  cases r with
  | srcLen | patchCount | codeCount | codeIn0 | codeIn1 | addrIn | encAddr | encValue =>
    cases r' <;> simp [readReg, writeReg] at hne ⊢
  | _ => exact absurd h (by decide)

@[simp] theorem getMem_writeReg (r : Reg) (v : Word) (s : State) (b : Buf) : getMem (writeReg r v s) b = getMem s b := by
  cases r <;> cases b <;> rfl

@[simp] theorem writeReg_seq (r : Reg) (v : Word) (s : State) : (writeReg r v s).seq = s.seq := by
  cases r <;> rfl

/-- Settles O48: the access is the register's write, and each operand register is a field of its own. -/
theorem registerWriteThenRead : Obligations.RegisterWriteThenRead := by
  intro a v s r hidle ht hr
  rw [hostWrite_reg hidle ht (regWritable_of_operand hr)]
  exact ⟨readReg_writeReg_same hr v s, fun r' hne => readReg_writeReg_ne hr hne v s, getMem_writeReg r v s,
    writeReg_seq r v s⟩

/-- A word access at 0x004 reaches STATUS (20_memory.md R51, 10_state.md R21). -/
theorem portTarget_status {P : Params} {a : PortAddr} (ha : a.toNat = 0x004) :
    portTarget P .word a = some (.reg .status) := by
  simp [portTarget, ha, widthBytes, regAt]

/-- Settles O50: the access reaches STATUS, whose write is `writeStatus` while idle and a hazard while busy. -/
theorem statusWriteClearsSticky : Obligations.StatusWriteClearsSticky := by
  intro a v s ha
  refine ⟨fun hidle => ?_, fun hbusy => hostWrite_busy hbusy (portTarget_status ha) rfl⟩
  have hclear : ∀ flag bit : Bool, (flag && !bit) = if bit then false else flag := by decide
  rw [hostWrite_reg hidle (portTarget_status ha) rfl]
  simp only [writeReg, writeStatus, hclear]

theorem errNumber_le (e : ErrCode) : errNumber e ≤ 9 := by
  cases e <;> decide

theorem phaseNumber_le (p : Phase) : phaseNumber p ≤ 5 := by
  cases p <;> decide

theorem toNat_statusWord (st : Status) : (statusWord st).toNat
    = st.busy.toNat + 2 * st.done.toNat + 4 * st.outputValid.toNat + 8 * st.matched.toNat + 16 * st.hazard.toNat
      + 32 * st.accessErr.toNat + 256 * errNumber st.err := by
  have herr := errNumber_le st.err
  have hbit := Bool.toNat_le
  have := hbit st.busy; have := hbit st.done; have := hbit st.outputValid
  have := hbit st.matched; have := hbit st.hazard; have := hbit st.accessErr
  rw [statusWord, BitVec.toNat_ofNat]
  omega

theorem toNat_errInfoWord (e : ErrInfo) :
    (errInfoWord e).toNat = e.index.toNat + 0x10000 * e.reason.toNat + 0x1000000 * e.pos.toNat := by
  have := e.index.isLt; have := e.reason.isLt; have := e.pos.isLt
  rw [errInfoWord, BitVec.toNat_ofNat]
  omega

theorem toNat_seqPosWord (q : SeqPos) :
    (seqPosWord q).toNat = q.index.toNat + 0x10000 * phaseNumber q.phase := by
  have := q.index.isLt; have := phaseNumber_le q.phase
  rw [seqPosWord, BitVec.toNat_ofNat]
  omega

/-- Settles O52: the fields do not overlap, so no sum wraps. -/
theorem registerFieldPlaces : Obligations.RegisterFieldPlaces := fun s =>
  ⟨toNat_statusWord s.status, errNumber_le s.status.err, toNat_errInfoWord s.errInfo, toNat_seqPosWord s.seqPos,
    phaseNumber_le s.seqPos.phase⟩

/-! ### Reset and steps -/

/-- RUN straight after reset: no descriptor and no code to check, and SRC_LEN is 0 (10_state.md R44). -/
theorem execRun_reset : execRun State.reset
    = .next (Claims.ended .formatError ⟨0xFFFF, 1, 0⟩ false { State.reset with
        seq := ⟨.format, 0xFFFF⟩, seqPos := ⟨.format, 0xFFFF⟩ }) := by
  rfl

/-- Settles O53: by evaluation of the reset state, and of RUN on it. -/
theorem stateAfterReset : Obligations.StateAfterReset := by
  refine ⟨fun r => ?_, rfl, rfl, fun k => rfl, fun b k hb => ?_, execRun_reset⟩
  · cases r <;> rfl
  · cases b with
    | outcome => exact absurd rfl hb
    | src | work | ptab | ctab => rfl

/-- The engine's turn on a busy block whose CMD is legal (10_state.md R35). -/
theorem engineTurn_of_decode {s : State} {i : Instr} (hbusy : s.status.busy = true) (hi : decode s.cmd = .ok i) :
    engineTurn s = exec i s := by
  simp [engineTurn, hbusy, performWord, hi]

/-- Settles O55: with no input pending, or the engine's turn next, the step is the engine's turn. -/
theorem stepPerformsDecodedCommand : Obligations.StepPerformsDecodedCommand := by
  intro s i hP hbusy hi
  refine ⟨fun hnil => ?_, fun t hcons => ?_⟩
  · rw [step, if_pos hP, hnil]
    exact engineTurn_of_decode hbusy hi
  · rw [step, if_pos hP, hcons]
    exact engineTurn_of_decode (s := { s with inputs := t }) hbusy hi

end Sys2Proof.Machine

/-! ## Proofs of the family `20_memory.md`

### What no command writes

The frame of all commands, over `Leaves` and `CompletesAs`. -/

namespace Sys2Proof.Machine

/-- `s` with everything a command may write taken from `u`: the memories, registers and flags of the engine. -/
def withEngineWrites (s u : State) : State :=
  { s with
    status := { u.status with hazard := s.status.hazard, accessErr := s.status.accessErr }
    errInfo := u.errInfo, appliedCnt := u.appliedCnt, failedCnt := u.failedCnt
    decAddr := u.decAddr, decValue := u.decValue, offsetOut := u.offsetOut
    codeOut0 := u.codeOut0, codeOut1 := u.codeOut1, seqPos := u.seqPos, seq := u.seq
    work := u.work, outcome := u.outcome }

/-- Nothing differs but what commands may write (20_memory.md R65, 60_exceptions.md R207). -/
def EngineFrame (s u : State) : Prop := withEngineWrites s u = u

theorem EngineFrame.trans {s u w : State} (h₁ : EngineFrame s u) (h₂ : EngineFrame u w) : EngineFrame s w :=
  calc withEngineWrites s w
    _ = withEngineWrites (withEngineWrites s u) w := rfl
    _ = withEngineWrites u w := by rw [h₁]
    _ = w := h₂

/-- A patch step and RUN's phases write nothing that other commands may not. -/
theorem RunFrame.engineFrame {s u : State} (h : RunFrame s u) : EngineFrame s u := by
  rw [← h]
  rfl

theorem Leaves.engineFrame {i : Instr} {s u : State} (h : Leaves s i u) : EngineFrame s u := by
  cases h with
  | stepped _ hu => exact .trans (u := setOutputValid false s) rfl hu.frame.engineFrame
  | ran b hu => exact .trans (u := runStart s) rfl (hu.frame.engineFrame.trans rfl)
  | _ => rfl

theorem CompletesAs.engineFrame {i : Instr} {u t : State} (h : CompletesAs i u t) : EngineFrame u t := by
  cases h <;> rfl

theorem exec_engineFrame {i : Instr} {s t : State} (h : exec i s = .next t) : EngineFrame s t := by
  obtain ⟨u, hu, hut⟩ := exec_leaves h
  exact hu.engineFrame.trans hut.engineFrame

/-- Settles O37: the fields outside the frame of all commands. -/
theorem commandsKeepProgram : Obligations.CommandsKeepProgram := by
  intro i s t h
  rw [← exec_engineFrame h]
  exact ⟨rfl, rfl, rfl, rfl, rfl, rfl, rfl, rfl, rfl, rfl, rfl, rfl, rfl, rfl, rfl, rfl, rfl, rfl⟩

/-! ### The port map

One lemma per region of the map of R51 for aligned accesses; a misaligned access reaches nothing. -/

section PortMap

variable {P : Params} {w : Width} {a : PortAddr}

theorem portTarget_misaligned (h : a.toNat % widthBytes w ≠ 0) : portTarget P w a = none :=
  if_pos h

/-- To show that an access reaches nothing it may be taken to be aligned. -/
theorem portTarget_eq_none (h : a.toNat % widthBytes w = 0 → portTarget P w a = none) : portTarget P w a = none := by
  by_cases haligned : a.toNat % widthBytes w = 0
  · exact h haligned
  · exact portTarget_misaligned haligned

/-- The register block, below 0x10000: words only. -/
theorem portTarget_registers (haligned : a.toNat % widthBytes w = 0) (ha : a.toNat < 0x10000) :
    portTarget P w a = if w = .word then (regAt a.toNat).map .reg else none := by
  have hwindow : a.toNat / 0x10000 = 0 := by omega
  rw [portTarget, if_neg (not_not_intro haligned), hwindow, Nat.mod_eq_of_lt ha]
  rfl

/-- The number a memory's window has in the address bits above the offset (20_memory.md R51). -/
def windowNumber : Buf → Nat
  | .src     => 1
  | .work    => 2
  | .ptab    => 3
  | .ctab    => 4
  | .outcome => 5

/-- The window of a memory. -/
theorem portTarget_window {b : Buf} {k : Nat} (haligned : a.toNat % widthBytes w = 0)
    (ha : a.toNat = 0x10000 * windowNumber b + k) (hk : k < 0x10000) :
    portTarget P w a = windowTarget P b k (widthBytes w) := by
  have hwindow : a.toNat / 0x10000 = windowNumber b := by omega
  have hoffset : a.toNat % 0x10000 = k := by omega
  rw [portTarget, if_neg (not_not_intro haligned), hwindow, hoffset]
  cases b <;> rfl

/-- Above the windows, two more window numbers fit the address. -/
theorem portTarget_above (ha : 0x60000 ≤ a.toNat) : portTarget P w a = none := by
  refine portTarget_eq_none fun haligned => ?_
  have hlt := a.isLt
  have hwindow : a.toNat / 0x10000 = 6 ∨ a.toNat / 0x10000 = 7 := by omega
  rcases hwindow with hwindow | hwindow
  · rw [portTarget, if_neg (not_not_intro haligned), hwindow]
    rfl
  · rw [portTarget, if_neg (not_not_intro haligned), hwindow]
    rfl

/-- The last register is at 0x048 (10_state.md R21). -/
theorem regAt_eq_some_le {k : Nat} {r : Reg} (h : regAt k = some r) : k ≤ 0x048 := by
  unfold regAt at h
  split at h <;> cases h <;> decide

theorem regAt_above {k : Nat} (hk : 0x4C ≤ k) : regAt k = none :=
  Option.eq_none_iff_forall_ne_some.2 fun r hr => by
    have hle := regAt_eq_some_le hr
    omega

/-- The registers in offset order, one per word (10_state.md R21). -/
theorem regAt_four_mul : ∀ k < 19, regAt (4 * k) = [Reg.cmd, .status, .errInfo, .appliedCnt, .failedCnt, .srcLen,
    .patchCount, .codeCount, .codeIn0, .codeIn1, .decAddr, .decValue, .addrIn, .offsetOut, .encAddr, .encValue, .codeOut0,
    .codeOut1, .seqPos][k]? := by
  decide

end PortMap

/-- Settles O44: the regions of the map, one after another. -/
theorem portMapReaches : Obligations.PortMapReaches := by
  intro P w a _
  refine ⟨portTarget_misaligned, fun ha hw => ?_, fun k ha hk hw => ?_, fun hlo ha => ?_, fun k b size hk hwindow => ?_,
    portTarget_above⟩
  · refine portTarget_eq_none fun haligned => ?_
    rw [portTarget_registers haligned ha, if_neg hw]
  · subst hw
    have haligned : a.toNat % widthBytes .word = 0 := by
      rw [ha]
      exact Nat.mul_mod_right 4 k
    rw [portTarget_registers haligned (by omega), if_pos rfl, ha, regAt_four_mul k hk]
  · refine portTarget_eq_none fun haligned => ?_
    rw [portTarget_registers haligned ha, regAt_above hlo, Option.map_none, ite_self]
  · obtain ⟨ha, hsize⟩ : a.toNat = 0x10000 * windowNumber b + k ∧ size = bufSize P b := by
      rcases hwindow with ⟨ha, rfl, rfl⟩ | ⟨ha, rfl, rfl⟩ | ⟨ha, rfl, rfl⟩ | ⟨ha, rfl, rfl⟩ | ⟨ha, rfl, rfl⟩ <;>
        exact ⟨ha, rfl⟩
    subst hsize
    refine ⟨fun haligned hin => ?_, fun hout => portTarget_eq_none fun haligned => ?_⟩
    · rw [portTarget_window haligned ha hk, windowTarget, if_pos hin]
    · rw [portTarget_window haligned ha hk, windowTarget, if_neg (by omega)]

/-! ### Accesses that are not admitted -/

section NotAdmitted

variable {P : Params} {w : Width} {a : PortAddr} {v : Word} {s : State} {x : Target}

/-- What such an access leaves (20_memory.md R53). -/
theorem markAccessErr_markHazard (s : State) : markAccessErr (if s.status.busy then markHazard s else s)
    = { s with status := { s.status with accessErr := true, hazard := s.status.hazard || s.status.busy } } := by
  cases hbusy : s.status.busy <;> simp [markAccessErr, markHazard, hbusy]

theorem hostRead_not_admitted (h : portTarget s.params w a = none) :
    hostRead w a s = .next (answer 0 (markAccessErr (if s.status.busy then markHazard s else s))) := by
  rw [hostRead, h]

theorem hostWrite_not_admitted (h : writeAdmitted s.params w a = none) :
    hostWrite w a v s = markAccessErr (if s.status.busy then markHazard s else s) := by
  rw [hostWrite, h]

theorem writeAdmitted_of_none (h : portTarget P w a = none) : writeAdmitted P w a = none := by
  rw [writeAdmitted, h]

theorem writeAdmitted_of_readOnly (h : portTarget P w a = some x) (hx : writable x = false) :
    writeAdmitted P w a = none := by
  simp [writeAdmitted, h, hx]

/-- The read-only registers are the ones the engine alone writes (10_state.md R21). -/
theorem regWritable_of_readOnly : ∀ r ∈ [Reg.errInfo, .appliedCnt, .failedCnt, .decAddr, .decValue, .offsetOut, .codeOut0,
    .codeOut1, .seqPos], regWritable r = false := by
  decide

end NotAdmitted

/-- Settles O45: such a read answers 0, such a write is dropped, and both leave the two flags marked. -/
theorem accessNotAdmitted : Obligations.AccessNotAdmitted := by
  intro w a v s
  refine ⟨fun h => ?_, fun h => ?_⟩
  · rw [hostRead_not_admitted h, markAccessErr_markHazard, answer]
  · have hdropped : writeAdmitted s.params w a = none := by
      rcases h with h | ⟨k, h | h⟩ | ⟨r, h, hr⟩
      · exact writeAdmitted_of_none h
      · exact writeAdmitted_of_readOnly h rfl
      · exact writeAdmitted_of_readOnly h rfl
      · exact writeAdmitted_of_readOnly h (regWritable_of_readOnly r hr)
    rw [hostWrite_not_admitted hdropped, markAccessErr_markHazard]

/-! ### Admitted accesses of an idle block -/

section Idle

variable {w : Width} {a : PortAddr} {v : Word} {s : State} {x : Target}

theorem hostRead_idle (hidle : s.status.busy = false) (ht : portTarget s.params w a = some x) :
    hostRead w a s = readTarget w x s := by
  simp [hostRead, ht, hidle]

theorem hostWrite_idle (hidle : s.status.busy = false) (ht : portTarget s.params w a = some x)
    (hx : writable x = true) : hostWrite w a v s = writeTarget w x v s := by
  simp [hostWrite, writeAdmitted, ht, hx, hidle]

/-- No access is wider than a word (20_memory.md R52). -/
theorem pow_widthBytes_le (w : Width) : 0x100 ^ widthBytes w ≤ 2 ^ 32 := by
  cases w <;> decide

/-- The bytes of an access fit the word they are returned in. -/
theorem toNat_ofNat_leValue {bs : List Byte} (h : bs.length = widthBytes w) :
    (BitVec.ofNat 32 (leValue bs)).toNat = leValue bs := by
  have hlt := leValue_lt bs
  rw [h] at hlt
  rw [BitVec.toNat_ofNat, Nat.mod_eq_of_lt (Nat.lt_of_lt_of_le hlt (pow_widthBytes_le w))]

end Idle

/-- Settles O47: an idle read only answers, in a window with the number of its cells' bytes. -/
theorem idleReadHasNoSideEffect : Obligations.IdleReadHasNoSideEffect := by
  intro w a s hidle
  refine ⟨fun r ht => hostRead_idle hidle ht, fun b k bs ht hlen hcells => ?_⟩
  refine ⟨BitVec.ofNat 32 (leValue bs), ?_, fun j hj => ?_, ?_⟩
  · rw [hostRead_idle hidle ht, readTarget, ← hlen, readCells_of_cellsAt hcells]
    rfl
  · rw [wordByte, toNat_ofNat_leValue hlen]
    exact getElem?_eq_leValue bs j hj
  · rw [toNat_ofNat_leValue hlen]
    exact leValue_lt bs

/-- A memory written and put back (10_state.md R37 to R41). -/
theorem setMem_writeBytes_getMem (b : Buf) (k : Nat) (bs : List Byte) (s : State) :
    setMem (writeBytes b k bs s) b (getMem s b) = s := by
  cases b <;> rfl

/-- The windows the host may write are those of the memories that are unwritten after reset and not the engine's. -/
theorem writableWindow : ∀ b ∈ [Buf.src, .ptab, .ctab], bufWritable b = true ∧ unlisted b = none := by
  decide

/-- Settles O49: the write is the byte sequence's, which the laws of memories describe. -/
theorem windowWriteIsLittleEndian : Obligations.WindowWriteIsLittleEndian := by
  intro w a v s b k hidle ht hb
  obtain ⟨hwritable, hunlisted⟩ := writableWindow b hb
  rw [hostWrite_idle (v := v) hidle ht hwritable, writeTarget]
  refine ⟨fun j hj => ?_, fun b' k' hout => ?_, setMem_writeBytes_getMem b k _ s⟩
  · rw [byteAt_writeBytes_inside hunlisted (by rwa [length_leBytes]), getElem?_leBytes _ hj, wordByte]
  · exact byteAt_writeBytes_outside (by rwa [length_leBytes])

/-! ### Steps -/

section Steps

variable {s : State}

theorem step_of_no_input (hP : s.params.wf = true) (h : s.inputs = []) : step s = engineTurn s := by
  rw [step, if_pos hP, h]

/-- The oldest input is performed and used up (20_memory.md R62). -/
theorem step_of_input {i : Input} {l : List Input} (hP : s.params.wf = true) (h : s.inputs = i :: l) :
    step s = perform i { s with inputs := l } := by
  rw [step, if_pos hP, h]

/-- An idle engine waits (70_reset_and_hazards.md R231). -/
theorem engineTurn_idle (hidle : s.status.busy = false) : engineTurn s = .next s := by
  simp [engineTurn, hidle]

end Steps

/-- Settles O56: each head of the list of inputs in turn. -/
theorem stepPerformsInputs : Obligations.StepPerformsInputs := by
  intro s
  refine ⟨fun hP => by simp [step, hP], fun hP => ⟨fun w a l h => step_of_input hP h, fun w a v l h => step_of_input hP h,
    fun hidle h => ?_, fun l hidle h => ?_⟩⟩
  · rw [step_of_no_input hP h, engineTurn_idle hidle]
  · rw [step_of_input hP h]
    exact engineTurn_idle (s := { s with inputs := l }) hidle

end Sys2Proof.Machine

/-! ## Proofs of the family `30_encoding.md`

### The command word

The opcode map and its inverse, then the decoder's answers by the fields of the word. -/

namespace Sys2Proof

open Machine Claims

section CommandWord

variable {w : Word} {i : Instr} {opc idx : Nat}

/-- The opcode map and the opcodes of the commands are inverse to each other, and the map hands the index through. -/
theorem instrOfOpc_eq_some_iff : instrOfOpc opc idx = some i ↔ opc = i.opc ∧ i.index?.getD idx = idx := by
  constructor
  · intro h
    unfold instrOfOpc at h
    split at h <;> cases h <;> exact ⟨rfl, rfl⟩
  · rintro ⟨rfl, hidx⟩
    cases i with
    | verify k | applySingle k | applyRegion k | patchStep k | codeWrite k =>
      obtain rfl : k = idx := hidx
      rfl
    | _ => rfl

theorem Instr.opc_mem_range (i : Instr) : 0x01 ≤ i.opc ∧ i.opc ≤ 0x0D := by
  cases i <;> simp [Instr.opc]

/-- The five index commands (30_encoding.md R71). -/
theorem Instr.index?_eq_none_iff : i.index? = none ↔ i.opc ∉ [0x05, 0x06, 0x07, 0x0A, 0x0B] := by
  cases i <;> simp [Instr.index?, Instr.opc]

/-- Well-formed says of every command that its index, or the 0 in its place, fits IDX. -/
theorem Instr.wf_iff : i.wf = true ↔ i.index?.getD 0 < 0x10000 := by
  cases i <;> simp [Instr.wf, Instr.index?]

theorem instrOfOpc_eq_none (h : opc = 0 ∨ 0x0E ≤ opc) : instrOfOpc opc idx = none := by
  refine Option.eq_none_iff_forall_ne_some.2 fun i hi => ?_
  obtain ⟨rfl, -⟩ := instrOfOpc_eq_some_iff.1 hi
  have := i.opc_mem_range
  omega

theorem exists_instrOfOpc (h : ¬ (opc = 0 ∨ 0x0E ≤ opc)) : ∃ i, instrOfOpc opc idx = some i := by
  have hopc : opc = 0x01 ∨ opc = 0x02 ∨ opc = 0x03 ∨ opc = 0x04 ∨ opc = 0x05 ∨ opc = 0x06 ∨ opc = 0x07 ∨ opc = 0x08
      ∨ opc = 0x09 ∨ opc = 0x0A ∨ opc = 0x0B ∨ opc = 0x0C ∨ opc = 0x0D := by omega
  rcases hopc with rfl | rfl | rfl | rfl | rfl | rfl | rfl | rfl | rfl | rfl | rfl | rfl | rfl <;> exact ⟨_, rfl⟩

/-- The decoder on a word whose OPC is defined (30_encoding.md R73, 60_exceptions.md R201). -/
theorem decode_of_instrOfOpc (h : instrOfOpc (opcField w) (idxField w) = some i) :
    decode w = if rsvField w ≠ 0 then .error .rsvNonzero
      else if i.index? = none ∧ idxField w ≠ 0 then .error .idxNonzero else .ok i := by
  rw [decode, h]

/-- The index operand is IDX, and where there is none IDX is 0 (30_encoding.md R71). -/
theorem eq_getD_zero_iff {o : Option Nat} : idx = o.getD 0 ↔ o.getD idx = idx ∧ ¬ (o = none ∧ idx ≠ 0) := by
  cases o with
  | none => simp
  | some k => simp [eq_comm]

/-- A word decodes to a command exactly when its fields are those R70 to R72 give the command. -/
theorem decode_eq_ok_iff :
    decode w = .ok i ↔ opcField w = i.opc ∧ rsvField w = 0 ∧ idxField w = i.index?.getD 0 := by
  constructor
  · intro h
    unfold decode at h
    split at h
    · cases h
    next j hj =>
    split at h
    · cases h
    next hrsv =>
    split at h
    · cases h
    next hnone =>
    cases h
    obtain ⟨hopc, hget⟩ := instrOfOpc_eq_some_iff.1 hj
    exact ⟨hopc, Decidable.not_not.1 hrsv, eq_getD_zero_iff.2 ⟨hget, hnone⟩⟩
  · rintro ⟨hopc, hrsv, hidx⟩
    obtain ⟨hget, hnone⟩ := eq_getD_zero_iff.1 hidx
    rw [decode_of_instrOfOpc (instrOfOpc_eq_some_iff.2 ⟨hopc, hget⟩), if_neg (not_not_intro hrsv), if_neg hnone]

/-- A 32-bit word is its three fields (R70). -/
theorem word_of_fields (w : Word) :
    w = BitVec.ofNat 32 (rsvField w * 0x1000000 + idxField w * 0x100 + opcField w) := by
  apply BitVec.eq_of_toNat_eq
  simp only [opcField, idxField, rsvField, BitVec.toNat_ofNat]
  omega

/-- The assembled words, over all commands. -/
theorem encodedWord_fields (i : Instr) : Laws.EncodedWord.Statement i := by
  cases i with
  | decode => exact Laws.EncodedWord.decode
  | encode => exact Laws.EncodedWord.encode
  | toOffset => exact Laws.EncodedWord.toOffset
  | validate => exact Laws.EncodedWord.validate
  | verify k => exact Laws.EncodedWord.verify k
  | applySingle k => exact Laws.EncodedWord.applySingle k
  | applyRegion k => exact Laws.EncodedWord.applyRegion k
  | copy => exact Laws.EncodedWord.copy
  | checkConfig => exact Laws.EncodedWord.checkConfig
  | patchStep k => exact Laws.EncodedWord.patchStep k
  | codeWrite k => exact Laws.EncodedWord.codeWrite k
  | run => exact Laws.EncodedWord.run
  | clearCounts => exact Laws.EncodedWord.clearCounts

theorem decode_of_badOpc (h : badOpc w) : decode w = .error .opcUndefined := by
  rw [decode, opcField, instrOfOpc_eq_none h]

theorem badRsv_iff : badRsv w ↔ rsvField w ≠ 0 := .rfl

theorem decode_of_badRsv (hopc : ¬ badOpc w) (h : badRsv w) : decode w = .error .rsvNonzero := by
  obtain ⟨i, hi⟩ := exists_instrOfOpc (idx := idxField w) hopc
  rw [decode_of_instrOfOpc hi, if_pos (badRsv_iff.1 h)]

/-- Where the map gives a command, R73's third kind is the decoder's third test. -/
theorem badIdx_iff (h : instrOfOpc (opcField w) (idxField w) = some i) :
    badIdx w ↔ i.index? = none ∧ idxField w ≠ 0 := by
  obtain ⟨hopc, -⟩ := instrOfOpc_eq_some_iff.1 h
  rw [Instr.index?_eq_none_iff, ← hopc, and_comm]
  rfl

theorem decode_of_badIdx (hopc : ¬ badOpc w) (hrsv : ¬ badRsv w) (h : badIdx w) : decode w = .error .idxNonzero := by
  obtain ⟨i, hi⟩ := exists_instrOfOpc (idx := idxField w) hopc
  rw [decode_of_instrOfOpc hi, if_neg (mt badRsv_iff.2 hrsv), if_pos ((badIdx_iff hi).1 h)]

theorem exists_decode_of_legal (hopc : ¬ badOpc w) (hrsv : ¬ badRsv w) (hidx : ¬ badIdx w) : ∃ i, decode w = .ok i := by
  obtain ⟨i, hi⟩ := exists_instrOfOpc (idx := idxField w) hopc
  rw [decode_of_instrOfOpc hi, if_neg (mt badRsv_iff.2 hrsv), if_neg (mt (badIdx_iff hi).2 hidx)]
  exact ⟨i, rfl⟩

/-- The engine's turn on an illegal word just accepted: OUTPUT_VALID is kept (notes/assumptions/11). -/
theorem engineTurn_accept_of_illegal {e : DecodeError} (s : State) (h : decode w = .error e) :
    engineTurn (accept w s) = .next (ended .illegalCmd (illegalCmd e).info false { s with cmd := w }) := by
  have hacc : accept w s = { s with cmd := w, status := { s.status with busy := true, done := false } } := by
    simp [accept, acceptStatus, h, Except.toOption]
  rw [hacc, engineTurn, if_pos rfl, performWord, h]
  cases e <;> rfl

end CommandWord

/-- Settles O1: the fields of the assembled word are the command's. -/
theorem decodeOfEncodedCommand : Obligations.DecodeOfEncodedCommand := by
  intro i hwf
  obtain ⟨hopc, hidx, hrsv⟩ := encodedWord_fields i hwf
  exact decode_eq_ok_iff.2 ⟨hopc, hrsv, hidx⟩

/-- Settles O2: the fields of the word are the command's, and a word is its fields. -/
theorem encodeOfDecodedWord : Obligations.EncodeOfDecodedWord := by
  intro w i h
  obtain ⟨hopc, hrsv, hidx⟩ := decode_eq_ok_iff.1 h
  constructor
  · have hw := word_of_fields w
    rw [hrsv, Nat.zero_mul, Nat.zero_add, hidx, hopc] at hw
    exact hw.symm
  · rw [Instr.wf_iff, ← hidx]
    exact Nat.mod_lt _ (by decide)

/-- Settles O4: each illegal kind is an error of the decoder, and no word beside them is. -/
theorem decodesExactlyLegalWords : Obligations.DecodesExactlyLegalWords := by
  intro w
  by_cases hopc : badOpc w
  · simp [decode_of_badOpc hopc, hopc]
  by_cases hrsv : badRsv w
  · simp [decode_of_badRsv hopc hrsv, hrsv]
  by_cases hidx : badIdx w
  · simp [decode_of_badIdx hopc hrsv hidx, hidx]
  · simp [exists_decode_of_legal hopc hrsv hidx, hopc, hrsv, hidx]

/-- Settles O5: each illegal kind has its decoder's error, and the engine completes with it. -/
theorem illegalCommandCompletes : Obligations.IllegalCommandCompletes := by
  rintro w s reason (⟨hopc, rfl⟩ | ⟨hopc, hrsv, rfl⟩ | ⟨hopc, hrsv, hidx, rfl⟩)
  · exact engineTurn_accept_of_illegal s (decode_of_badOpc hopc)
  · exact engineTurn_accept_of_illegal s (decode_of_badRsv hopc hrsv)
  · exact engineTurn_accept_of_illegal s (decode_of_badIdx hopc hrsv hidx)

/-- Settles O3: each is the assembled word of its command. -/
theorem decodeOfWrittenOutWords : Obligations.DecodeOfWrittenOutWords :=
  ⟨decodeOfEncodedCommand .decode rfl, decodeOfEncodedCommand .validate rfl, decodeOfEncodedCommand (.verify 1) rfl,
    decodeOfEncodedCommand (.applyRegion 0xFFFF) rfl, decodeOfEncodedCommand (.patchStep 2) rfl,
    decodeOfEncodedCommand (.codeWrite 0x12) rfl, decodeOfEncodedCommand .run rfl⟩

end Sys2Proof

/-! ### The code format

R77 and R79 as sums, since their terms occupy different places, and R77 bit by bit (the table of R76); the round trips
follow each bit to its place and back. -/

namespace Sys2Proof.Machine

section Terms

variable {w : Nat} {x y : BitVec w}

/-- Two terms that do not overlap, the first from place `k` up and the second below it, are added by `|`. -/
theorem toNat_or_of_places {k a b : Nat} (hx : x.toNat = a * 2 ^ k) (hy : y.toNat = b) (hb : b < 2 ^ k) :
    (x ||| y).toNat = a * 2 ^ k + b := by
  rw [BitVec.toNat_or, hx, hy, Nat.mul_comm, ← Nat.two_pow_add_eq_or_of_lt hb]

/-- No bit of a term that fits is lost by its shift (00_scope.md R14). -/
theorem toNat_shiftLeft_of_fits {m k : Nat} (hx : x.toNat < 2 ^ m) (h : m + k ≤ w) :
    (x <<< k).toNat = x.toNat * 2 ^ k := by
  have hlt : x.toNat * 2 ^ k < 2 ^ w :=
    calc x.toNat * 2 ^ k
      _ < 2 ^ m * 2 ^ k := Nat.mul_lt_mul_of_pos_right hx (Nat.two_pow_pos k)
      _ = 2 ^ (m + k) := (Nat.pow_add 2 m k).symm
      _ ≤ 2 ^ w := Nat.pow_le_pow_right (by decide) h
  rw [BitVec.toNat_shiftLeft, Nat.shiftLeft_eq, Nat.mod_eq_of_lt hlt]

/-- A constant that fits is its number. -/
theorem toNat_ofNat_of_fits {m c : Nat} (hc : c < 2 ^ m) (h : m ≤ w) : (BitVec.ofNat w c).toNat = c :=
  Nat.mod_eq_of_lt (Nat.lt_of_lt_of_le hc (Nat.pow_le_pow_right (by decide) h))

/-- `x & 7` is the three low bits. -/
theorem toNat_and_seven (x : BitVec w) (hw : 3 ≤ w) : (x &&& 7).toNat = x.toNat % 8 := by
  have h7 : (7 : BitVec w).toNat = 2 ^ 3 - 1 := toNat_ofNat_of_fits (by decide) hw
  rw [BitVec.toNat_and, h7, Nat.and_two_pow_sub_one_eq_mod]

theorem nat_and_eight (n : Nat) : n &&& 8 = n / 8 % 2 * 8 := by
  have hdiv : (n &&& 8) / 8 = n / 8 % 2 := (Nat.and_div_two_pow (n := 3)).trans (Nat.and_one_is_mod (n / 8))
  have hmod : (n &&& 8) % 8 = 0 := (Nat.and_mod_two_pow (n := 3)).trans (Nat.and_zero _)
  omega

/-- `x & 8` is bit 3. -/
theorem toNat_and_eight (x : BitVec w) (hw : 4 ≤ w) : (x &&& 8).toNat = x.toNat / 8 % 2 * 8 := by
  have h8 : (8 : BitVec w).toNat = 8 := toNat_ofNat_of_fits (by decide) hw
  rw [BitVec.toNat_and, h8, nat_and_eight]

theorem toNat_and_seven_shiftLeft (x : BitVec w) {k : Nat} (h : 3 + k ≤ w) :
    ((x &&& 7) <<< k).toNat = x.toNat % 8 * 2 ^ k := by
  have hx := toNat_and_seven x (by omega)
  rw [toNat_shiftLeft_of_fits (m := 3) (by omega) h, hx]

theorem toNat_and_eight_shiftLeft (x : BitVec w) {k : Nat} (h : 4 + k ≤ w) :
    ((x &&& 8) <<< k).toNat = x.toNat / 8 % 2 * 2 ^ (3 + k) := by
  have hx := toNat_and_eight x (by omega)
  rw [toNat_shiftLeft_of_fits (m := 4) (by omega) h, hx, Nat.pow_add, Nat.mul_assoc]

end Terms

@[simp] theorem toNat_nibble16 (n : BitVec 4) : (nibble16 n).toNat = n.toNat := by
  have := n.isLt
  rw [nibble16, BitVec.toNat_setWidth]
  omega

@[simp] theorem toNat_nibble8 (n : BitVec 4) : (nibble8 n).toNat = n.toNat := by
  have := n.isLt
  rw [nibble8, BitVec.toNat_setWidth]
  omega

/-- R77's address, its terms from the highest place down. -/
theorem decodeAddr_eq_places (n : Nibbles) : decodeAddr n
    = (0x8000 : BitVec 16) ||| ((nibble16 n.n3 &&& 7) <<< 12 ||| ((nibble16 n.n4 &&& 8) <<< 8
      ||| ((nibble16 n.n5 &&& 7) <<< 8 ||| ((nibble16 n.n1 &&& 8) <<< 4 ||| ((nibble16 n.n2 &&& 7) <<< 4
      ||| (nibble16 n.n3 &&& 8 ||| nibble16 n.n4 &&& 7)))))) := by
  unfold decodeAddr
  ac_rfl

/-- R77's value, its terms from the highest place down. -/
theorem decodeValue_eq_places (n : Nibbles) : decodeValue n
    = (nibble8 n.n0 &&& 8) <<< 4 ||| ((nibble8 n.n1 &&& 7) <<< 4 ||| (nibble8 n.n5 &&& 8 ||| nibble8 n.n0 &&& 7)) := by
  unfold decodeValue
  ac_rfl

/-- R77's address as a sum, the terms joined from the lowest place up. -/
theorem toNat_decodeAddr (n : Nibbles) : (decodeAddr n).toNat
    = 0x8000 + n.n3.toNat % 8 * 0x1000 + n.n5.toNat % 8 * 0x100 + n.n4.toNat / 8 * 0x800
      + n.n2.toNat % 8 * 0x10 + n.n1.toNat / 8 * 0x80 + n.n4.toNat % 8 + n.n3.toNat / 8 * 8 := by
  have p3 := toNat_or_of_places (k := 3) (toNat_and_eight (nibble16 n.n3) (by decide))
    (toNat_and_seven (nibble16 n.n4) (by decide)) (by omega)
  have p4 := toNat_or_of_places (toNat_and_seven_shiftLeft (nibble16 n.n2) (k := 4) (by decide)) p3 (by omega)
  have p7 := toNat_or_of_places (toNat_and_eight_shiftLeft (nibble16 n.n1) (k := 4) (by decide)) p4 (by omega)
  have p8 := toNat_or_of_places (toNat_and_seven_shiftLeft (nibble16 n.n5) (k := 8) (by decide)) p7 (by omega)
  have p11 := toNat_or_of_places (toNat_and_eight_shiftLeft (nibble16 n.n4) (k := 8) (by decide)) p8 (by omega)
  have p12 := toNat_or_of_places (toNat_and_seven_shiftLeft (nibble16 n.n3) (k := 12) (by decide)) p11 (by omega)
  have p15 := toNat_or_of_places (x := (0x8000 : BitVec 16)) (k := 15) (a := 1) rfl p12 (by omega)
  rw [decodeAddr_eq_places, p15]
  simp only [toNat_nibble16]
  omega

/-- R77's value as a sum. -/
theorem toNat_decodeValue (n : Nibbles) : (decodeValue n).toNat
    = n.n1.toNat % 8 * 0x10 + n.n0.toNat / 8 * 0x80 + n.n0.toNat % 8 + n.n5.toNat / 8 * 8 := by
  have p3 := toNat_or_of_places (k := 3) (toNat_and_eight (nibble8 n.n5) (by decide))
    (toNat_and_seven (nibble8 n.n0) (by decide)) (by omega)
  have p4 := toNat_or_of_places (toNat_and_seven_shiftLeft (nibble8 n.n1) (k := 4) (by decide)) p3 (by omega)
  have p7 := toNat_or_of_places (toNat_and_eight_shiftLeft (nibble8 n.n0) (k := 4) (by decide)) p4 (by omega)
  rw [decodeValue_eq_places, p7]
  simp only [toNat_nibble8]
  omega

/-- The three low bits of a number as a nibble (R79). -/
theorem toNat_nibble_of_low {w : Nat} (x : BitVec w) (hw : 3 ≤ w) : ((x &&& 7).setWidth 4).toNat = x.toNat % 8 := by
  rw [BitVec.toNat_setWidth, toNat_and_seven x hw]
  omega

/-- A nibble of R79: three low bits and bit 3, each taken from a wider number. -/
theorem toNat_nibble_of_parts {u w : Nat} (x : BitVec u) (y : BitVec w) (hu : 3 ≤ u) (hw : 4 ≤ w) :
    ((x &&& 7).setWidth 4 ||| (y &&& 8).setWidth 4).toNat = x.toNat % 8 + y.toNat / 8 % 2 * 8 := by
  have hhigh : ((y &&& 8).setWidth 4).toNat = y.toNat / 8 % 2 * 2 ^ 3 := by
    rw [BitVec.toNat_setWidth, toNat_and_eight y hw]
    omega
  have hsum := toNat_or_of_places hhigh (toNat_nibble_of_low x hu) (by omega)
  rw [BitVec.or_comm, hsum]
  omega

/-- The same where both parts come from numbers of one width. -/
theorem toNat_setWidth_of_parts {w : Nat} (x y : BitVec w) (hw : 4 ≤ w) :
    (((x &&& 7) ||| (y &&& 8)).setWidth 4).toNat = x.toNat % 8 + y.toNat / 8 % 2 * 8 := by
  rw [BitVec.setWidth_or, toNat_nibble_of_parts x y (by omega) hw]

/-- R79's nibbles as numbers. -/
theorem toNat_encodeNibbles (a : BitVec 16) (v : Byte) :
    (encodeNibbles a v).n0.toNat = v.toNat % 8 + v.toNat / 0x80 * 8
      ∧ (encodeNibbles a v).n1.toNat = v.toNat / 0x10 % 8 + a.toNat / 0x80 % 2 * 8
      ∧ (encodeNibbles a v).n2.toNat = a.toNat / 0x10 % 8
      ∧ (encodeNibbles a v).n3.toNat = a.toNat / 0x1000 % 8 + a.toNat / 8 % 2 * 8
      ∧ (encodeNibbles a v).n4.toNat = a.toNat % 8 + a.toNat / 0x800 % 2 * 8
      ∧ (encodeNibbles a v).n5.toNat = a.toNat / 0x100 % 8 + v.toNat / 8 % 2 * 8 := by
  have hv := v.isLt
  refine ⟨(toNat_setWidth_of_parts v (v >>> 4) (by decide)).trans ?_,
    (toNat_nibble_of_parts (v >>> 4) (a >>> 4) (by decide) (by decide)).trans ?_,
    (toNat_nibble_of_low (a >>> 4) (by decide)).trans ?_, (toNat_setWidth_of_parts (a >>> 12) a (by decide)).trans ?_,
    (toNat_setWidth_of_parts a (a >>> 8) (by decide)).trans ?_,
    (toNat_nibble_of_parts (a >>> 8) v (by decide) (by decide)).trans ?_⟩ <;>
    · simp only [BitVec.toNat_ushiftRight]
      omega

/-- The source of every address bit (R76). -/
theorem decodeAddr_bits (n : Nibbles) :
    (decodeAddr n).getLsbD 15 = true
      ∧ (decodeAddr n).getLsbD 14 = n.n3.getLsbD 2 ∧ (decodeAddr n).getLsbD 13 = n.n3.getLsbD 1
      ∧ (decodeAddr n).getLsbD 12 = n.n3.getLsbD 0 ∧ (decodeAddr n).getLsbD 11 = n.n4.getLsbD 3
      ∧ (decodeAddr n).getLsbD 10 = n.n5.getLsbD 2 ∧ (decodeAddr n).getLsbD 9 = n.n5.getLsbD 1
      ∧ (decodeAddr n).getLsbD 8 = n.n5.getLsbD 0 ∧ (decodeAddr n).getLsbD 7 = n.n1.getLsbD 3
      ∧ (decodeAddr n).getLsbD 6 = n.n2.getLsbD 2 ∧ (decodeAddr n).getLsbD 5 = n.n2.getLsbD 1
      ∧ (decodeAddr n).getLsbD 4 = n.n2.getLsbD 0 ∧ (decodeAddr n).getLsbD 3 = n.n3.getLsbD 3
      ∧ (decodeAddr n).getLsbD 2 = n.n4.getLsbD 2 ∧ (decodeAddr n).getLsbD 1 = n.n4.getLsbD 1
      ∧ (decodeAddr n).getLsbD 0 = n.n4.getLsbD 0 := by
  simp [decodeAddr, nibble16]

/-- The source of every value bit (R76). -/
theorem decodeValue_bits (n : Nibbles) :
    (decodeValue n).getLsbD 7 = n.n0.getLsbD 3
      ∧ (decodeValue n).getLsbD 6 = n.n1.getLsbD 2 ∧ (decodeValue n).getLsbD 5 = n.n1.getLsbD 1
      ∧ (decodeValue n).getLsbD 4 = n.n1.getLsbD 0 ∧ (decodeValue n).getLsbD 3 = n.n5.getLsbD 3
      ∧ (decodeValue n).getLsbD 2 = n.n0.getLsbD 2 ∧ (decodeValue n).getLsbD 1 = n.n0.getLsbD 1
      ∧ (decodeValue n).getLsbD 0 = n.n0.getLsbD 0 := by
  simp [decodeValue, nibble8]

/-- Bit 15 of an address the codes reach. -/
theorem getLsbD_15_of_ge {a : BitVec 16} (ha : 0x8000 ≤ a.toNat) : a.getLsbD 15 = true := by
  have hmsb := BitVec.msb_eq_getLsbD_last a
  rw [← hmsb, BitVec.msb_eq_decide]
  exact decide_eq_true ha

theorem nibble_eq_of_bits {x y : BitVec 4} (h0 : x.getLsbD 0 = y.getLsbD 0) (h1 : x.getLsbD 1 = y.getLsbD 1)
    (h2 : x.getLsbD 2 = y.getLsbD 2) (h3 : x.getLsbD 3 = y.getLsbD 3) : x = y :=
  BitVec.eq_of_getLsbD_eq fun
    | 0, _ => h0
    | 1, _ => h1
    | 2, _ => h2
    | 3, _ => h3

theorem decodeAddr_encodeNibbles {a : BitVec 16} (v : Byte) (ha : 0x8000 ≤ a.toNat) :
    decodeAddr (encodeNibbles a v) = a := by
  have h15 := getLsbD_15_of_ge ha
  refine BitVec.eq_of_getLsbD_eq fun i hi => ?_
  have hplace : i = 0 ∨ i = 1 ∨ i = 2 ∨ i = 3 ∨ i = 4 ∨ i = 5 ∨ i = 6 ∨ i = 7 ∨ i = 8 ∨ i = 9 ∨ i = 10 ∨ i = 11 ∨ i = 12
      ∨ i = 13 ∨ i = 14 ∨ i = 15 := by omega
  rcases hplace with rfl | rfl | rfl | rfl | rfl | rfl | rfl | rfl | rfl | rfl | rfl | rfl | rfl | rfl | rfl | rfl <;>
    simp [-BitVec.getLsbD_eq_getElem, decodeAddr_bits, encodeNibbles, h15]

theorem decodeValue_encodeNibbles (a : BitVec 16) (v : Byte) : decodeValue (encodeNibbles a v) = v := by
  refine BitVec.eq_of_getLsbD_eq fun i hi => ?_
  have hplace : i = 0 ∨ i = 1 ∨ i = 2 ∨ i = 3 ∨ i = 4 ∨ i = 5 ∨ i = 6 ∨ i = 7 := by omega
  rcases hplace with rfl | rfl | rfl | rfl | rfl | rfl | rfl | rfl <;>
    simp [-BitVec.getLsbD_eq_getElem, decodeValue_bits, encodeNibbles]

/-- Each bit of a code but `n2[3]` comes back from the place R76 sends it to. -/
theorem encodeNibbles_decode (n : Nibbles) :
    encodeNibbles (decodeAddr n) (decodeValue n) = { n with n2 := n.n2 &&& 7 } := by
  rw [encodeNibbles, Nibbles.mk.injEq]
  refine ⟨nibble_eq_of_bits ?_ ?_ ?_ ?_, nibble_eq_of_bits ?_ ?_ ?_ ?_, nibble_eq_of_bits ?_ ?_ ?_ ?_,
    nibble_eq_of_bits ?_ ?_ ?_ ?_, nibble_eq_of_bits ?_ ?_ ?_ ?_, nibble_eq_of_bits ?_ ?_ ?_ ?_⟩ <;>
    simp [-BitVec.getLsbD_eq_getElem, decodeAddr_bits, decodeValue_bits]

/-- Settles O7: R79's nibbles as sums, and each bit of a pair or of a code back at its place. -/
theorem codecRoundTrip : Obligations.CodecRoundTrip :=
  ⟨fun a v ha => ⟨toNat_encodeNibbles a v, decodeAddr_encodeNibbles v ha, decodeValue_encodeNibbles a v⟩,
    encodeNibbles_decode⟩

/-- Bit 3 of `n2` reaches no address bit (R78). -/
theorem decodeAddr_cleared (n : Nibbles) : decodeAddr { n with n2 := n.n2 &&& 7 } = decodeAddr n := by
  apply BitVec.eq_of_toNat_eq
  simp only [toNat_decodeAddr, toNat_and_seven n.n2 (by decide), Nat.mod_mod]

/-- Settles O8: by the round trips of O7, and a code decodes as it does with `n2[3]` cleared. -/
theorem twoCodesPerPair : Obligations.TwoCodesPerPair := by
  refine ⟨fun n m => ⟨fun ⟨ha, hv⟩ => ?_, fun h => ?_⟩, fun a v ha => ?_, fun a v => ?_⟩
  · rw [← encodeNibbles_decode n, ← encodeNibbles_decode m, ha, hv]
  · have hv := congrArg decodeValue h
    rw [← decodeAddr_cleared n, ← decodeAddr_cleared m, h]
    exact ⟨rfl, hv⟩
  · exact ⟨encodeNibbles a v, decodeAddr_encodeNibbles v ha, decodeValue_encodeNibbles a v⟩
  · simp [encodeNibbles]

/-- Settles O6: the table of R76, and the terms of R77 joined place by place. -/
theorem codeBitSources : Obligations.CodeBitSources :=
  fun n => ⟨decodeAddr_bits n, decodeValue_bits n, toNat_decodeAddr n, toNat_decodeValue n⟩

end Sys2Proof.Machine

/-! ## Proofs of the family `40_codec.md`

### The codec's functions and commands

What DECODE, ENCODE and TO_OFFSET answer, each in the two cases of its check; the round trip of the two commands follows
the code ENCODE writes into CODE_IN. -/

namespace Sys2Proof

/-- The one word of a well-formed command is the one assembled for it (30_encoding.md R70 to R72). -/
theorem decode_eq_ok_iff_eq_encode {w : Word} {i : Instr} (hi : i.wf = true) : decode w = .ok i ↔ w = encode i :=
  ⟨fun h => (encodeOfDecodedWord w i h).1.symm, fun h => h ▸ decodeOfEncodedCommand i hi⟩

end Sys2Proof

namespace Sys2Proof.Machine

open Claims

section Codec

variable {s : State} {n : Nibbles}

/-- Each byte of the word that holds four bytes comes back. -/
theorem wordByte_ofNat_leValue {bs : List Byte} {b : Nat} {x : Byte} (hlen : bs.length = 4) (hx : bs[b]? = some x) :
    wordByte (BitVec.ofNat 32 (leValue bs)) b = x := by
  obtain ⟨hb, -⟩ := List.getElem?_eq_some_iff.1 hx
  rw [wordByte, toNat_ofNat_leValue (w := .word) hlen]
  exact Option.some.inj ((getElem?_eq_leValue bs b hb).symm.trans hx)

/-! The code in CODE_IN and DECODE. -/

/-- Character `k` of the code in CODE_IN is byte `1 + k` of the entry (10_state.md R29). -/
theorem codeInByte_one_add (s : State) (k : Nat) : codeInByte s (1 + k) = .ok (codeInChar s k) := by
  unfold codeInByte codeInChar
  by_cases hk : k < 3
  · rw [if_pos hk, if_pos (by omega), Nat.add_comm]
  · rw [if_neg hk, if_neg (by omega), show 1 + k - 4 = k - 3 by omega]

theorem checkCode_of_codeInHolds (hP : s.params.wf = true) {index : BitVec 16} (h : CodeInHolds s n) :
    checkCode s.params index (codeInByte s) = .ok n := by
  obtain ⟨hlen, h0, h1, h2, h3, h4, h5⟩ := h
  exact checkCode_ok hP (congrArg _ hlen) (congrArg _ h0) (congrArg _ h1) (congrArg _ h2) (congrArg _ h3)
    (congrArg _ h4) (congrArg _ h5)

theorem execDecode_of_codeInHolds (hP : s.params.wf = true) (h : CodeInHolds s n) : execDecode s
    = .next (endedOk false { s with decAddr := decodeAddr n, decValue := decodeValue n }) := by
  rw [execDecode, checkCode_of_codeInHolds hP h]
  rfl

theorem execDecode_of_invalid {e : CmdError} (h : checkCode s.params Config.noEntry (codeInByte s) = .error (.raised e)) :
    execDecode s = .next (ended e.code e.info false s) := by
  rw [execDecode, h]
  rfl

/-! The code in CODE_OUT and ENCODE. -/

/-- The bytes of the words ENCODE writes: L, the six symbols and PAD (40_codec.md R104). -/
theorem wordByte_codeOut (P : Params) (n : Nibbles) :
    wordByte (codeOutWord0 P n) 0 = 6
      ∧ wordByte (codeOutWord0 P n) 1 = symbol P n.n0 ∧ wordByte (codeOutWord0 P n) 2 = symbol P n.n1
      ∧ wordByte (codeOutWord0 P n) 3 = symbol P n.n2 ∧ wordByte (codeOutWord1 P n) 0 = symbol P n.n3
      ∧ wordByte (codeOutWord1 P n) 1 = symbol P n.n4 ∧ wordByte (codeOutWord1 P n) 2 = symbol P n.n5
      ∧ wordByte (codeOutWord1 P n) 3 = 0 := by
  unfold codeOutWord0 codeOutWord1
  refine ⟨?_, ?_, ?_, ?_, ?_, ?_, ?_, ?_⟩ <;> exact wordByte_ofNat_leValue rfl rfl

/-- The words ENCODE writes, moved to CODE_IN, hold the code. -/
theorem codeInHolds_of_codeOut (h0 : s.codeIn0 = codeOutWord0 s.params n) (h1 : s.codeIn1 = codeOutWord1 s.params n) :
    CodeInHolds s n := by
  obtain ⟨hlen, hc0, hc1, hc2, hc3, hc4, hc5, -⟩ := wordByte_codeOut s.params n
  rw [CodeInHolds, h0, h1]
  exact ⟨hlen, hc0, hc1, hc2, hc3, hc4, hc5⟩

/-- The nibbles ENCODE assembles from ENC_ADDR and ENC_VALUE. -/
def encodedNibbles (s : State) : Nibbles := encodeNibbles (s.encAddr.setWidth 16) s.encValue

theorem execEncode_of_inRange (h : 0x8000 ≤ s.encAddr.toNat ∧ s.encAddr.toNat ≤ 0xFFFF) : execEncode s
    = .next (endedOk false { s with
        codeOut0 := codeOutWord0 s.params (encodedNibbles s), codeOut1 := codeOutWord1 s.params (encodedNibbles s) }) := by
  rw [execEncode, require_of_true h]
  rfl

theorem execEncode_of_outOfRange (h : ¬ (0x8000 ≤ s.encAddr.toNat ∧ s.encAddr.toNat ≤ 0xFFFF)) :
    execEncode s = .next (ended .encodeRange ⟨0xFFFF, 0, 0⟩ false s) := by
  rw [execEncode, require_of_false h]
  rfl

/-- The codec keeps an address of its range, all 32 bits of ENC_ADDR counted. -/
theorem decodeAddr_encodedNibbles (h : 0x8000 ≤ s.encAddr.toNat ∧ s.encAddr.toNat ≤ 0xFFFF) :
    (decodeAddr (encodedNibbles s)).setWidth 32 = s.encAddr := by
  have hlow : (s.encAddr.setWidth 16).toNat = s.encAddr.toNat := by
    rw [BitVec.toNat_setWidth]
    omega
  apply BitVec.eq_of_toNat_eq
  rw [encodedNibbles, decodeAddr_encodeNibbles _ (hlow ▸ h.1), BitVec.toNat_setWidth, hlow]
  omega

/-! The image offset and TO_OFFSET. -/

theorem toOffset_of_inRange {P : Params} {a : Nat} (h : 0x8000 ≤ a) (h' : a ≤ 0xFFFF) :
    toOffset P a = some (a - 0x8000 + P.headerSize) := if_pos ⟨h, h'⟩

theorem toOffset_eq_none_iff {P : Params} {a : Nat} : toOffset P a = none ↔ a < 0x8000 ∨ 0xFFFF < a := by
  by_cases h : 0x8000 ≤ a ∧ a ≤ 0xFFFF
  · rw [toOffset_of_inRange h.1 h.2]
    exact iff_of_false (Option.some_ne_none _) (by omega)
  · exact iff_of_true (if_neg h) (by omega)

theorem execToOffset_of_some {off : Nat} (h : toOffset s.params s.addrIn.toNat = some off) :
    execToOffset s = .next (endedOk false { s with offsetOut := BitVec.ofNat 32 off }) := by
  rw [execToOffset, h]
  rfl

theorem execToOffset_of_none (h : toOffset s.params s.addrIn.toNat = none) :
    execToOffset s = .next (ended .addrRange ⟨0xFFFF, 0, 0⟩ false s) := by
  rw [execToOffset, h]
  rfl

end Codec

/-- Settles O13: the code ENCODE wrote, read from CODE_IN, is the one of its nibbles, and the codec's round trip (O7)
gives the pair. -/
theorem encodeThenDecode : Obligations.EncodeThenDecode := by
  intro s t hP ht herr
  by_cases hrange : 0x8000 ≤ s.encAddr.toNat ∧ s.encAddr.toNat ≤ 0xFFFF
  · cases (execEncode_of_inRange hrange).symm.trans ht
    exact ⟨_, execDecode_of_codeInHolds hP (codeInHolds_of_codeOut (n := encodedNibbles s) rfl rfl), rfl,
      decodeAddr_encodedNibbles hrange, decodeValue_encodeNibbles _ _⟩
  · cases (execEncode_of_outOfRange hrange).symm.trans ht
    cases herr

/-- Refutes O9: bit 3 of `n5` is a bit of the value and not of the address (R76), so the code with `n5 = 8` and every
other nibble 0 decodes to 0x8000 although `n5` is not 0. -/
theorem not_decodedAddressBase : ¬ Obligations.DecodedAddressBase := by
  intro h
  have haddr : decodeAddr ⟨0, 0, 0, 0, 0, 8⟩ = 0x8000 := by decide
  obtain ⟨-, -, hn5, -⟩ := (h ⟨0, 0, 0, 0, 0, 8⟩).2.1 haddr
  exact absurd hn5 (by decide)

/-- Settles O10: the map is a shift on its range, and R11 leaves an image of at least `HEADER_SIZE + 0x8000` cells. -/
theorem toOffsetInsideImage : Obligations.ToOffsetInsideImage := by
  intro P hP
  obtain ⟨-, -, -, -, himage, -⟩ := wf_bounds hP
  refine ⟨fun a ha ha' => ⟨toOffset_of_inRange ha ha', by omega, by omega⟩, fun a => toOffset_eq_none_iff.2,
    fun a b hab hsome => ?_, fun n => ?_⟩
  · have hnone : toOffset P b ≠ none := hab ▸ hsome
    rw [Ne, toOffset_eq_none_iff] at hsome hnone
    rw [toOffset_of_inRange (by omega) (by omega), toOffset_of_inRange (by omega) (by omega), Option.some.injEq] at hab
    omega
  · have := (decodeAddr n).isLt
    exact ⟨_, toOffset_decodeAddr P n, by omega, by omega⟩

/-- Settles O11: the three answers of the code check on the entry in CODE_IN. -/
theorem decodeCommand : Obligations.DecodeCommand := by
  refine ⟨fun w => decode_eq_ok_iff_eq_encode rfl, fun s hP => ⟨fun n => execDecode_of_codeInHolds hP, fun hlen => ?_,
    fun k hk hlen hgood hbad => ?_⟩⟩
  · exact execDecode_of_invalid (checkCode_length rfl hlen)
  · exact execDecode_of_invalid (checkCode_symbol (congrArg _ hlen) hk
      (fun p hp => ⟨_, codeInByte_one_add s p, hgood p hp⟩) (codeInByte_one_add s k) hbad)

/-- Settles O12: the range check of R104, and the bytes of the two words written. -/
theorem encodeCommand : Obligations.EncodeCommand := by
  refine fun s => ⟨fun h h' => ⟨_, execEncode_of_inRange ⟨h, h'⟩, rfl, wordByte_codeOut s.params _⟩, fun h => ?_⟩
  exact execEncode_of_outOfRange (by omega)

/-- Settles O14: the map of R106 on all 32 bits of ADDR_IN. -/
theorem toOffsetCommand : Obligations.ToOffsetCommand := by
  refine ⟨fun w => decode_eq_ok_iff_eq_encode rfl, fun s => ⟨fun h h' => ?_, fun h => ?_⟩⟩
  · exact execToOffset_of_some (toOffset_of_inRange h h')
  · exact execToOffset_of_none (toOffset_eq_none_iff.2 h)

end Sys2Proof.Machine

/-! ## Proofs of the family `41_image_validator.md`

### The validation function and VALIDATE

The comparison of the magic by induction over its bytes, then one lemma per way `validate()` can end (R120), in the order
of its checks; each asks only for the cells read before that end. -/

namespace Sys2Proof.Machine

open Claims

theorem cellsAt_cons_iff {s : State} {b : Buf} {k : Nat} {x : Byte} {t : List Byte} :
    CellsAt s b k (x :: t) ↔ byteAt s b k = some x ∧ CellsAt s b (k + 1) t := by
  constructor
  · intro h
    refine ⟨h 0 (Nat.zero_lt_succ _), fun j hj => ?_⟩
    rw [Nat.add_right_comm]
    exact h (j + 1) (Nat.succ_lt_succ hj)
  · rintro ⟨hx, ht⟩ (_ | j) hj
    · exact hx
    · rw [← Nat.add_assoc, Nat.add_right_comm]
      exact ht j (Nat.lt_of_succ_lt_succ hj)

section Validate

variable {s : State} {v : Byte}

/-- A byte that agrees leaves the comparison of the rest. -/
theorem checkMagic_cons_of_same {k : Nat} {x : Byte} {t : List Byte} (hx : byteAt s .src k = some x) :
    checkMagic s k (x :: t) = checkMagic s (k + 1) t := by
  rw [checkMagic, engineRead_cell hx, check_bind_ok, require_of_true rfl, check_bind_ok]

theorem checkMagic_of_cellsAt {k : Nat} {bs : List Byte} (h : CellsAt s .src k bs) : checkMagic s k bs = .ok () := by
  induction bs generalizing k with
  | nil => rfl
  | cons x t ih =>
    obtain ⟨hx, ht⟩ := cellsAt_cons_iff.1 h
    rw [checkMagic_cons_of_same hx, ih ht]

/-- The comparison ends at the first byte that differs; the cells after it may hold anything. -/
theorem checkMagic_of_differs {k j : Nat} {bs : List Byte} (hj : j < bs.length) (hsame : CellsAt s .src k (bs.take j))
    (hcell : byteAt s .src (k + j) = some v) (hne : bs[j]? ≠ some v) :
    checkMagic s k bs = .error (.raised (formatError 2)) := by
  induction bs generalizing k j with
  | nil => cases hj
  | cons x t ih =>
    cases j with
    | zero =>
      have hvx : v ≠ x := fun h => hne (congrArg some h.symm)
      rw [Nat.add_zero] at hcell
      rw [checkMagic, engineRead_cell hcell, check_bind_ok, require_of_false hvx, check_bind_error]
    | succ j =>
      obtain ⟨hx, ht⟩ := cellsAt_cons_iff.1 hsame
      rw [← Nat.add_assoc, Nat.add_right_comm] at hcell
      rw [checkMagic_cons_of_same hx, ih (Nat.lt_of_succ_lt_succ hj) ht hcell hne]

theorem validate_of_wrongLength (hlen : s.srcLen.toNat ≠ s.params.imageLen) :
    validate s = .error (.raised (formatError 1)) := by
  rw [validate, require_of_false hlen, check_bind_error]

variable (hlen : s.srcLen.toNat = s.params.imageLen)
include hlen

theorem validate_of_wrongMagic (hmagic : checkMagic s 0 s.params.magic = .error (.raised (formatError 2))) :
    validate s = .error (.raised (formatError 2)) := by
  rw [validate, require_of_true hlen, check_bind_ok, hmagic, check_bind_error]

variable (hmagic : CellsAt s .src 0 s.params.magic)
include hmagic

theorem validate_of_wrongBank0 (hcell : byteAt s .src s.params.bank0Off = some v) (hne : v ≠ s.params.bank0Val) :
    validate s = .error (.raised (formatError 3)) := by
  rw [validate, require_of_true hlen, check_bind_ok, checkMagic_of_cellsAt hmagic, check_bind_ok,
    engineRead_cell hcell, check_bind_ok, require_of_false hne, check_bind_error]

variable (hbank0 : byteAt s .src s.params.bank0Off = some s.params.bank0Val)
include hbank0

/-- Past its first three checks, `validate()` is the check of the second bank field. -/
theorem validate_eq_bank1Check (hcell : byteAt s .src s.params.bank1Off = some v) :
    validate s = require (v = s.params.bank1Val) (formatError 4) := by
  rw [validate, require_of_true hlen, check_bind_ok, checkMagic_of_cellsAt hmagic, check_bind_ok,
    engineRead_cell hbank0, check_bind_ok, require_of_true rfl, check_bind_ok, engineRead_cell hcell, check_bind_ok]

theorem validate_of_wrongBank1 (hcell : byteAt s .src s.params.bank1Off = some v) (hne : v ≠ s.params.bank1Val) :
    validate s = .error (.raised (formatError 4)) :=
  (validate_eq_bank1Check hlen hmagic hbank0 hcell).trans (require_of_false hne)

theorem validate_eq_ok (hbank1 : byteAt s .src s.params.bank1Off = some s.params.bank1Val) : validate s = .ok () :=
  (validate_eq_bank1Check hlen hmagic hbank0 hbank1).trans (require_of_true rfl)

end Validate

theorem execValidate_of_formatError {s : State} {r : Byte} (h : validate s = .error (.raised (formatError r))) :
    execValidate s = .next (ended .formatError ⟨0xFFFF, r, 0⟩ false s) := by
  rw [execValidate, h]
  rfl

theorem execValidate_of_ok {s : State} (h : validate s = .ok ()) : execValidate s = .next (endedOk false s) := by
  rw [execValidate, h]
  rfl

/-- Settles O15: the five ends of `validate()`, and what VALIDATE answers at each; R11's four magic bytes make a position
below 4 one of the magic. -/
theorem validateCommand : Obligations.ValidateCommand := by
  refine ⟨fun w => decode_eq_ok_iff_eq_encode rfl, fun s hP => ⟨fun hlen => ?_, fun hlen =>
    ⟨fun k v hk hsame hcell hne => ?_, fun hmagic => ⟨fun v hcell hne => ?_, fun hbank0 =>
      ⟨fun v hcell hne => ?_, fun hbank1 => ?_⟩⟩⟩⟩⟩
  · exact execValidate_of_formatError (validate_of_wrongLength hlen)
  · obtain ⟨hmagicLen, -⟩ := wf_bounds hP
    rw [← hmagicLen] at hk
    rw [← Nat.zero_add k] at hcell
    exact execValidate_of_formatError (validate_of_wrongMagic hlen (checkMagic_of_differs hk hsame hcell hne))
  · exact execValidate_of_formatError (validate_of_wrongBank0 hlen hmagic hcell hne)
  · exact execValidate_of_formatError (validate_of_wrongBank1 hlen hmagic hbank0 hcell hne)
  · exact execValidate_of_ok (validate_eq_ok hlen hmagic hbank0 hbank1)

end Sys2Proof.Machine

/-! ## Proofs of the family `42_context_verifier.md`

### The first checks of a patch command, and VERIFY

What a failing descriptor check makes of any patch command, said once over the command's continuation; then what VERIFY
answers from the result of the window match (R130), and the window after one byte of WORK is changed. -/

namespace Sys2Proof.Machine

open Claims

section PatchCommands

variable {s : State} {i : Nat} {e : CmdError} {p : Patch}

/-- Whatever a patch command does after its first checks, a descriptor that fails its check ends it, nothing written
(60_exceptions.md R203, R206). -/
theorem runCheck_checkPatch_of_descError {α : Type} {f : Unit → Check α} {k : α → Host.Outcome State Fault Refusal}
    (hi : patchIndexOk s i) (he : checkDesc s i = .error (.raised e)) :
    runCheck s (checkPatch s i >>= f) k = .next (ended e.code e.info false s) := by
  obtain ⟨hcount, hmax⟩ := hi
  rw [checkPatch, checkIndex, require_of_true ⟨hcount, hmax⟩, check_bind_ok, he, check_bind_error]
  rfl

/-- On a valid patch VERIFY completes with the result of the window match. -/
theorem execVerify_of_matchPatch {m : Bool} (hi : patchIndexOk s i) (hp : PatchAt s i p) (hok : p.Ok s.params)
    (hm : matchPatch s i = .ok m) : execVerify i s = .next (endedOk m s) := by
  obtain ⟨hcount, hmax⟩ := hi
  rw [execVerify, checkPatch_of_patchAt hcount hmax hp hok, check_bind_ok, hm]
  rfl

theorem cellsAt_nil (s : State) (b : Buf) (k : Nat) : CellsAt s b k [] := nofun

/-- A descriptor lies in PTAB, so a write to WORK keeps the patch it holds. -/
theorem PatchAt.writeByte_work (h : PatchAt s i p) (k : Nat) (v : Byte) : PatchAt (writeByte .work k v s) i p := by
  have hptab : ∀ a, byteAt (writeByte .work k v s) .ptab a = byteAt s .ptab a :=
    fun _ => byteAt_writeByte_ne (.inl nofun)
  simpa only [PatchAt, FieldAt, CellsAt, hptab] using h

/-- One byte written inside a window of WORK replaces that byte of the window. -/
theorem CellsAt.writeByte_set {k j : Nat} {bs : List Byte} (h : CellsAt s .work k bs) (v : Byte) :
    CellsAt (writeByte .work (k + j) v s) .work k (bs.set j v) := by
  intro a ha
  rw [List.length_set] at ha
  by_cases haj : a = j
  · subst haj
    rw [byteAt_writeByte_same rfl, List.getElem?_set_self ha]
  · rw [byteAt_writeByte_ne (.inr (by omega)), List.getElem?_set_ne (Ne.symm haj), h a ha]

end PatchCommands

theorem set_ne_self_of_getElem?_ne {bs : List Byte} {j : Nat} {v : Byte} (hj : j < bs.length) (hne : bs[j]? ≠ some v) :
    bs.set j v ≠ bs := fun h => by
  rw [← h, List.getElem?_set_self hj] at hne
  exact hne rfl

/-- Settles O18: the descriptor check reads PTAB and the parameters, so it fails alike after OUTPUT_VALID is cleared. -/
theorem descriptorErrorReported : Obligations.DescriptorErrorReported := by
  intro s i e hi he
  have hcleared : checkDesc (notValid s) i = .error (.raised e) := (checkDesc_congr rfl rfl i).trans he
  exact ⟨runCheck_checkPatch_of_descError hi he, runCheck_checkPatch_of_descError (s := notValid s) hi hcleared,
    runCheck_checkPatch_of_descError (s := notValid s) hi hcleared,
    runCheck_checkPatch_of_descError (s := notValid s) hi hcleared⟩

/-- Settles O20: the three answers of the window match (R130). -/
theorem verifyCommand : Obligations.VerifyCommand := by
  refine fun s i p hi hp hok => ⟨fun hempty => ?_, fun hne hout => ?_, fun window hlen hin hcells => ?_⟩
  · have hmatch := matchPatch_of_window hp (win := []) (by rw [hempty]) (.inl hempty) (cellsAt_nil s .work p.offset)
    rw [hempty] at hmatch
    exact execVerify_of_matchPatch hi hp hok hmatch
  · exact execVerify_of_matchPatch hi hp hok (matchPatch_outside hp hne hout)
  · exact execVerify_of_matchPatch hi hp hok (matchPatch_of_window hp hlen (.inr hin) hcells)

/-- Settles O21: VERIFY (O20) on the expected bytes, and on the expected bytes with byte `j` replaced. -/
theorem changedByteBreaksMatch : Obligations.ChangedByteBreaksMatch := by
  intro s i j p v hi hp hok hin hcells hj hne
  obtain ⟨-, -, hbefore⟩ := verifyCommand s i p hi hp hok
  obtain ⟨-, -, hafter⟩ := verifyCommand (writeByte .work (p.offset + j) v s) i p hi (hp.writeByte_work _ v) hok
  have hsame := hbefore p.expected rfl hin hcells
  have hchanged := hafter (p.expected.set j v) List.length_set hin (hcells.writeByte_set v)
  rw [beq_self_eq_true] at hsame
  rw [beq_eq_false_iff_ne.2 (set_ne_self_of_getElem?_ne hj hne)] at hchanged
  exact ⟨hsame, hchanged⟩

end Sys2Proof.Machine

/-! ## Proofs of the family `43_patch_applier.md`

### APPLY_SINGLE and APPLY_REGION

The two apply commands share their first checks and the check of KIND: what these make of a valid patch is said once
over what the command does next. What either then writes is one sequence of bytes of WORK (R144), empty where the single
form finds another byte. -/

namespace Sys2Proof.Machine

open Claims

section ApplyCommands

variable {s : State} {i : Nat} {p : Patch} {new old cur fill : Byte} {code : List Byte} {n : Nat}

theorem PatchAt.kind_of_single (h : PatchAt s i p) (hrepl : p.repl = .single new) : FieldAt s i 4 1 0 := by
  obtain ⟨-, -, -, -, hform⟩ := h
  rw [hrepl] at hform
  exact hform.1

theorem PatchAt.kind_of_region (h : PatchAt s i p) (hrepl : p.repl = .region code n fill) : FieldAt s i 4 1 1 := by
  obtain ⟨-, -, -, -, hform⟩ := h
  rw [hrepl] at hform
  exact hform.1

theorem Patch.Ok.code_fits {P : Params} (h : p.Ok P) (hrepl : p.repl = .region code n fill) : code.length ≤ n := by
  obtain ⟨-, hform⟩ := h
  rw [hrepl] at hform
  exact hform.2.1

theorem checkKind_of_fieldAt {found : Nat} (h : FieldAt s i 4 1 found) (kind : Nat) :
    checkKind s i kind = require (found = kind) (wrongKind i found) := by
  rw [checkKind, descKind_of h, check_bind_ok]

section Checks

variable {α : Type} {f : Unit → Check α} {k : α → Host.Outcome State Fault Refusal} {kind : Nat}
  (hi : patchIndexOk s i) (hp : PatchAt s i p) (hok : p.Ok s.params)
include hi hp hok

/-- On a valid patch of the kind asked for, an apply command ends as what its checks guard does. -/
theorem runCheck_checkKind_of_kind {a : α} (hkind : FieldAt s i 4 1 kind) (hf : f () = .ok a) :
    runCheck s (checkPatch s i >>= fun _ => checkKind s i kind >>= f) k = k a := by
  obtain ⟨hcount, hmax⟩ := hi
  rw [checkPatch_of_patchAt hcount hmax hp hok, check_bind_ok, checkKind_of_fieldAt hkind, require_of_true rfl,
    check_bind_ok, hf, runCheck_ok]

/-- On a valid patch of another kind it ends with that kind reported, nothing written (60_exceptions.md R201, R203). -/
theorem runCheck_checkKind_of_wrongKind {found : Nat} (hkind : FieldAt s i 4 1 found) (hne : found ≠ kind) :
    runCheck s (checkPatch s i >>= fun _ => checkKind s i kind >>= f) k
      = .next (ended .wrongKind ⟨BitVec.ofNat 16 i, BitVec.ofNat 8 found, 0⟩ false s) := by
  obtain ⟨hcount, hmax⟩ := hi
  rw [checkPatch_of_patchAt hcount hmax hp hok, check_bind_ok, checkKind_of_fieldAt hkind, require_of_false hne,
    check_bind_error]
  rfl

end Checks

/-- An apply command reads its patch after clearing OUTPUT_VALID, which PTAB does not hold. -/
theorem PatchAt.afterNotValid (h : PatchAt s i p) : PatchAt (notValid s) i p := h

/-- On a valid single patch APPLY_SINGLE writes the new byte where the cell holds the old one, and nothing where it does
not (43_patch_applier.md R140, R141). -/
theorem execApplySingle_of_patchAt (hi : patchIndexOk s i) (hp : PatchAt s i p) (hok : p.Ok s.params)
    (hrepl : p.repl = .single new) (hold : p.expected[0]? = some old) (hcur : byteAt s .work p.offset = some cur) :
    execApplySingle i s = .next (complete (cur == old)
      (writeBytes .work p.offset (if cur = old then [new] else []) (notValid s))) := by
  have happlied := applySinglePatch_eq (s := notValid s) hp.afterNotValid hrepl hold hcur
  refine (runCheck_checkKind_of_kind (s := notValid s) hi hp.afterNotValid hok (hp.kind_of_single hrepl)
    happlied).trans ?_
  by_cases h : cur = old
  · rw [if_pos h, if_pos h, beq_iff_eq.2 h]
    rfl
  · rw [if_neg h, if_neg h, beq_eq_false_iff_ne.2 h]
    rfl

/-- On a valid region patch APPLY_REGION writes the region, whatever WORK holds (R142, R143). -/
theorem execApplyRegion_of_patchAt (hi : patchIndexOk s i) (hp : PatchAt s i p) (hok : p.Ok s.params)
    (hrepl : p.repl = .region code n fill) : execApplyRegion i s
      = .next (complete false (writeBytes .work p.offset (regionBytes code n fill) (notValid s))) :=
  runCheck_checkKind_of_kind (s := notValid s) hi hp.afterNotValid hok (hp.kind_of_region hrepl)
    (applyRegionPatch_eq hp.afterNotValid hrepl)

end ApplyCommands

/-- What an apply command leaves: its bytes in their cells of WORK, every other cell as it was, and everything else as a
completion without error leaves it (R144). -/
theorem complete_writeBytes_work (m : Bool) (off : Nat) (bs : List Byte) (s : State) :
    { complete m (writeBytes .work off bs (notValid s)) with work := s.work } = endedOk m (notValid s)
      ∧ CellsAt (complete m (writeBytes .work off bs (notValid s))) .work off bs
      ∧ ∀ k, k < off ∨ off + bs.length ≤ k →
          byteAt (complete m (writeBytes .work off bs (notValid s))) .work k = byteAt s .work k := by
  refine ⟨rfl, fun j hj => ?_, fun k hk => ?_⟩
  · rw [byteAt_complete, byteAt_writeBytes_inside rfl hj]
  · rw [byteAt_complete, byteAt_writeBytes_outside (.inr hk)]
    rfl

/-- Settles O19: on a valid patch of the other kind, the check of KIND ends the command. -/
theorem wrongKindReported : Obligations.WrongKindReported := by
  intro s i p hi hp hok
  cases hrepl : p.repl with
  | single new =>
    exact runCheck_checkKind_of_wrongKind (s := notValid s) hi hp.afterNotValid hok (hp.kind_of_single hrepl)
      Nat.zero_ne_one
  | region code n fill =>
    exact runCheck_checkKind_of_wrongKind (s := notValid s) hi hp.afterNotValid hok (hp.kind_of_region hrepl)
      Nat.one_ne_zero

/-- Settles O22: APPLY_SINGLE writes one byte at OFFSET, or none. -/
theorem applySingleCommand : Obligations.ApplySingleCommand := by
  intro s i p new old cur hi hp hok hrepl hold hcur
  refine ⟨_, execApplySingle_of_patchAt hi hp hok hrepl hold hcur, ?_⟩
  by_cases h : cur = old
  · obtain ⟨hrest, hin, hout⟩ := complete_writeBytes_work (cur == old) p.offset [new] s
    rw [if_pos h, if_pos h]
    exact ⟨hrest, hin 0 Nat.one_pos, fun k hk => hout k (Nat.lt_or_gt_of_ne hk)⟩
  · obtain ⟨hrest, -, hout⟩ := complete_writeBytes_work (cur == old) p.offset [] s
    rw [if_neg h, if_neg h]
    exact ⟨hrest, (hout p.offset (.inr (Nat.le_refl _))).trans hcur, fun k _ => hout k (Nat.lt_or_ge k p.offset)⟩

/-- Settles O23: APPLY_REGION writes the code and the filler, as many bytes as the region is long. -/
theorem applyRegionCommand : Obligations.ApplyRegionCommand := by
  intro s i p code n fill hi hp hok hrepl
  obtain ⟨hrest, hin, hout⟩ := complete_writeBytes_work false p.offset (regionBytes code n fill) s
  refine ⟨_, execApplyRegion_of_patchAt hi hp hok hrepl, hrest, ?_, fun k hk => hout k ?_⟩
  · rw [← regionBytes_eq (hok.code_fits hrepl)]
    exact hin
  · rw [length_regionBytes]
    exact hk

end Sys2Proof.Machine

/-! ## Proofs of the family `44_orchestrator.md`

### The configuration check

What CHECK_CONFIG and RUN make of it: a failure that every state with the same tables, counts and parameters meets is
the failure of both (44_orchestrator.md R164). -/

namespace Sys2Proof.Machine

open Claims

/-- `u` has the tables, the counts and the parameters of `s`: all that the configuration check reads. -/
structure SameConfig (s u : State) : Prop where
  ptab : u.ptab = s.ptab
  ctab : u.ctab = s.ctab
  params : u.params = s.params
  patchCount : u.patchCount = s.patchCount
  codeCount : u.codeCount = s.codeCount

/-- On the configuration of `s` the check raises `e`, SEQ on the entry `i` where it moves (R164). -/
def ConfigRaises (s : State) (e : CmdError) (i : BitVec 16) : Prop :=
  ∀ b u, SameConfig s u → checkConfig b u = .raised e (moveSeqIf b .config i u)

section Config

variable {s : State} {e : CmdError} {i j : Nat}

/-- A configuration failure ends CHECK_CONFIG, and RUN with SEQ and SEQ_POS on the entry (R163, R172). -/
theorem ConfigRaises.exec {i : BitVec 16} (h : ConfigRaises s e i) :
    exec .checkConfig s = .next (ended e.code e.info false s)
      ∧ exec .run s = .next (ended e.code e.info false (runAt .config i s)) := by
  constructor
  · show runOutcome (checkConfig false s) = _
    rw [h false s ⟨rfl, rfl, rfl, rfl, rfl⟩]
    rfl
  · show execRun s = _
    rw [execRun, runBody, h true (clearCounts (setOutputValid false s)) ⟨rfl, rfl, rfl, rfl, rfl⟩]
    rfl

theorem checkConfig_of_counts {b : Bool} (h : checkCounts s = .error (.raised e)) :
    checkConfig b s = .raised e (moveSeqIf b .config Config.noEntry s) := by
  have hcounts : checkCounts (moveSeqIf b .config Config.noEntry s) = .error (.raised e) := by
    simpa only [checkCounts, moveSeqIf_params, moveSeqIf_patchCount, moveSeqIf_codeCount] using h
  rw [checkConfig, hcounts]
  rfl

theorem configRaises_patchCount (h : s.params.nPatchMax < s.patchCount.toNat) :
    ConfigRaises s (configError Config.noEntry 8) Config.noEntry := by
  intro b u hu
  apply checkConfig_of_counts
  rw [checkCounts, hu.params, hu.patchCount, require_of_false (Nat.not_le.2 h), check_bind_error]

theorem configRaises_codeCount (hpatch : s.patchCount.toNat ≤ s.params.nPatchMax)
    (h : s.params.nCodeMax < s.codeCount.toNat) :
    ConfigRaises s (configError Config.noEntry 9) Config.noEntry := by
  intro b u hu
  apply checkConfig_of_counts
  rw [checkCounts, hu.params, hu.patchCount, hu.codeCount, require_of_true hpatch, check_bind_ok,
    require_of_false (Nat.not_le.2 h)]

variable (hpatch : s.patchCount.toNat ≤ s.params.nPatchMax) (hcode : s.codeCount.toNat ≤ s.params.nCodeMax)
include hpatch hcode

theorem configRaises_desc (hi : i < s.patchCount.toNat) (hbefore : ∀ k, k < i → checkDesc s k = .ok ())
    (he : checkDesc s i = .error (.raised e)) : ConfigRaises s e (BitVec.ofNat 16 i) := by
  intro b u hu
  have hdesc : ∀ k, checkDesc u k = checkDesc s k := checkDesc_congr hu.ptab hu.params
  exact checkConfig_desc (by rwa [hu.params, hu.patchCount]) (by rwa [hu.params, hu.codeCount])
    (by rwa [hu.patchCount]) (fun k hk => (hdesc k).trans (hbefore k hk)) ((hdesc i).trans he)

theorem configRaises_code (hdescs : ∀ k, k < s.patchCount.toNat → checkDesc s k = .ok ())
    (hj : j < s.codeCount.toNat)
    (hbefore : ∀ k, k < j → ∃ n, checkCode s.params (BitVec.ofNat 16 k) (codeEntryByte s k) = .ok n)
    (he : checkCode s.params (BitVec.ofNat 16 j) (codeEntryByte s j) = .error (.raised e)) :
    ConfigRaises s e (BitVec.ofNat 16 j) := by
  intro b u hu
  have hdesc : ∀ k, checkDesc u k = checkDesc s k := checkDesc_congr hu.ptab hu.params
  have hentry : ∀ k, codeEntryByte u k = codeEntryByte s k := codeEntryByte_congr hu.ctab
  refine checkConfig_code (by rwa [hu.params, hu.patchCount]) (by rwa [hu.params, hu.codeCount])
    (fun k hk => (hdesc k).trans (hdescs k (by rwa [← hu.patchCount]))) (by rwa [hu.codeCount]) (fun k hk => ?_) ?_
  · rw [hu.params, hentry]
    exact hbefore k hk
  · rwa [hu.params, hentry]

end Config

/-! #### Code entries that are no code -/

section CodeEntry

variable {s : State} {j k : Nat} {index : BitVec 16}

theorem codeEntryByte_of_cell {b : Nat} {v : Byte} (h : byteAt s .ctab (8 * j + b) = some v) :
    codeEntryByte s j b = .ok v := engineRead_cell h

theorem checkCode_of_wrongLength {l : Byte} (h : byteAt s .ctab (8 * j) = some l) (hl : l ≠ 6) :
    checkCode s.params index (codeEntryByte s j) = .error (.raised (invalidCode index 1 0)) :=
  checkCode_length (codeEntryByte_of_cell h) hl

theorem checkCode_of_firstBadChar (h : firstBadChar s j k) :
    checkCode s.params index (codeEntryByte s j) = .error (.raised (invalidCode index 2 (BitVec.ofNat 8 k))) := by
  obtain ⟨hk, hlen, hgood, c, hc, hbad⟩ := h
  refine checkCode_symbol (codeEntryByte_of_cell hlen) hk (fun p hp => ?_) (codeEntryByte_of_cell ?_) hbad
  · obtain ⟨g, hg, hmem⟩ := hgood p hp
    exact ⟨g, codeEntryByte_of_cell (by rwa [← Nat.add_assoc]), hmem⟩
  · rwa [← Nat.add_assoc]

end CodeEntry

/-- Settles O27: each failure is one of the configuration (`ConfigRaises`), hence of CHECK_CONFIG and of RUN. -/
theorem firstConfigFailureReported : Obligations.FirstConfigFailureReported := by
  intro s hP
  refine ⟨fun h => (configRaises_patchCount h).exec, fun hpatch h => (configRaises_codeCount hpatch h).exec,
    fun hpatch hcode => ⟨fun i e hi hbefore he => ?_, fun hdescs j hj hbefore => ?_⟩⟩
  · refine (configRaises_desc hpatch hcode hi (fun k hk => ?_) he).exec
    obtain ⟨p, hp, hok⟩ := hbefore k hk
    exact checkDesc_of_patchAt hp hok
  · have hraises : ∀ {e}, checkCode s.params (BitVec.ofNat 16 j) (codeEntryByte s j) = .error (.raised e) →
        ConfigRaises s e (BitVec.ofNat 16 j) := by
      refine configRaises_code hpatch hcode (fun k hk => ?_) hj fun k hk => ?_
      · obtain ⟨p, hp, hok⟩ := hdescs k hk
        exact checkDesc_of_patchAt hp hok
      · obtain ⟨n, hn⟩ := hbefore k hk
        exact ⟨n, checkCode_of_codeAt hP hn⟩
    exact ⟨fun l hl hne => (hraises (checkCode_of_wrongLength hl hne)).exec,
      fun k hk => (hraises (checkCode_of_firstBadChar hk)).exec⟩

/-! #### A valid configuration -/

/-- Every check of a valid configuration passes (R164). -/
theorem checkConfig_of_configHolds {s : State} {ps : List Patch} {cs : List Nibbles} (hP : s.params.wf = true)
    (h : ConfigHolds s ps cs) (b : Bool) : ∃ x, checkConfig b s = .done (moveSeqIf b .config x s) := by
  obtain ⟨hps, hpmax, hcs, hcmax, hpatches, hcodes⟩ := h
  refine checkConfig_pass (hps ▸ hpmax) (hcs ▸ hcmax) (fun i hi => ?_) fun j hj => ?_
  · obtain ⟨hp, hok⟩ := hpatches i _ (List.getElem?_eq_getElem (hps ▸ hi))
    exact checkDesc_of_patchAt hp hok
  · exact ⟨_, checkCode_of_codeAt hP (hcodes j _ (List.getElem?_eq_getElem (hcs ▸ hj)))⟩

/-- Settles O26: the check passes, and without SEQ writes it leaves the state as it was. -/
theorem checkConfigPasses : Obligations.CheckConfigPasses := by
  intro s ps cs hP h
  obtain ⟨x, hx⟩ := checkConfig_of_configHolds hP h false
  show runOutcome (checkConfig false s) = _
  rw [hx]
  rfl

/-- After a configuration check that passes, RUN goes on with its FORMAT phase, wherever SEQ stood (R172). -/
theorem runBody_of_config {s : State} {x : BitVec 16}
    (h : checkConfig true (clearCounts (setOutputValid false s))
      = .done (moveSeqIf true .config x (clearCounts (setOutputValid false s)))) :
    runBody s = andThen (runFormat (clearCounts (setOutputValid false s))) fun s =>
      andThen (forEach runPatch (List.range s.patchCount.toNat) s) fun s =>
      andThen (forEach runCode (List.range s.codeCount.toNat) s) runDone := by
  rw [runBody, h]
  rfl

theorem validate_runCleared (s : State) :
    validate (moveSeq .format Config.noEntry (clearCounts (setOutputValid false s))) = validate s :=
  validate_congr rfl rfl rfl

/-- Settles O33: the FORMAT phase raises the failure before the copy. -/
theorem runFormatError : Obligations.RunFormatError := by
  intro s ps cs e hP h he
  obtain ⟨x, hx⟩ := checkConfig_of_configHolds (s := clearCounts (setOutputValid false s)) hP h true
  show execRun s = _
  rw [execRun, runBody_of_config hx, runFormat, validate_runCleared, he]
  rfl

end Sys2Proof.Machine

/-! ### Checks, COPY and CLEAR_COUNTS -/

namespace Sys2Proof.Machine

open Claims

section Index

variable {s : State} {i j : Nat} {α : Type} {f : Unit → Check α} {k : α → Host.Outcome State Fault Refusal}

theorem checkIndex_eq_ok (h : patchIndexOk s i) : checkIndex s i = .ok () := require_of_true h

theorem checkIndex_of_outside (h : ¬ patchIndexOk s i) : checkIndex s i = .error (.raised (indexRange i 1)) :=
  require_of_false h

theorem checkCodeIndex_eq_ok (h : codeIndexOk s j) : checkCodeIndex s j = .ok () := require_of_true h

theorem checkCodeIndex_of_outside (h : ¬ codeIndexOk s j) :
    checkCodeIndex s j = .error (.raised (indexRange j 2)) := require_of_false h

/-- Whatever a patch command does after its first checks, an index outside the list or the table ends it (R162). -/
theorem runCheck_checkPatch_of_indexRange (h : ¬ patchIndexOk s i) :
    runCheck s (checkPatch s i >>= f) k = .next (ended .indexRange ⟨BitVec.ofNat 16 i, 1, 0⟩ false s) := by
  rw [checkPatch, checkIndex_of_outside h]
  rfl

theorem runCheck_checkCodeIndex_of_indexRange (h : ¬ codeIndexOk s j) :
    runCheck s (checkCodeIndex s j >>= f) k = .next (ended .indexRange ⟨BitVec.ofNat 16 j, 2, 0⟩ false s) := by
  rw [checkCodeIndex_of_outside h]
  rfl

end Index

/-- Settles O16: the index check is the first of each command, before anything is read. -/
theorem indexRangeChecked : Obligations.IndexRangeChecked := by
  refine fun s i => ⟨fun h => ?_, fun h => ?_, checkIndex_eq_ok, checkCodeIndex_eq_ok⟩
  · have hi : ¬ patchIndexOk s i := fun ⟨hcount, hmax⟩ => by omega
    exact ⟨runCheck_checkPatch_of_indexRange hi, runCheck_checkPatch_of_indexRange (s := notValid s) hi,
      runCheck_checkPatch_of_indexRange (s := notValid s) hi, runCheck_checkPatch_of_indexRange (s := notValid s) hi⟩
  · have hj : ¬ codeIndexOk s i := fun ⟨hcount, hmax⟩ => by omega
    exact runCheck_checkCodeIndex_of_indexRange (s := notValid s) hj

/-- The check that ends in the reason `r`: a pass for 0, else CONFIG_ERROR with that reason (R161). -/
def descAnswer (i r : Nat) : Check Unit :=
  if r = 0 then .ok () else .error (.raised ⟨.configError, ⟨BitVec.ofNat 16 i, BitVec.ofNat 8 r, 0⟩⟩)

section Desc

variable {s : State} {i expLen offset newLen regionLen : Nat}

/-- One more check before the others: its own reason where it fails, else theirs. -/
theorem require_bind_descAnswer {c bad : Prop} [Decidable c] [Decidable bad] {reason r : Nat} {f : Unit → Check Unit}
    (hreason : reason ≠ 0) (hc : c ↔ ¬ bad) (hf : f () = descAnswer i r) :
    (require c (configError (BitVec.ofNat 16 i) (BitVec.ofNat 8 reason)) >>= f)
      = descAnswer i (if bad then reason else r) := by
  by_cases hbad : bad
  · rw [require_of_false fun h => hc.1 h hbad, check_bind_error, if_pos hbad, descAnswer, if_neg hreason]
    rfl
  · rw [require_of_true (hc.2 hbad), check_bind_ok, hf, if_neg hbad]

/-- The last check. -/
theorem require_descAnswer {c bad : Prop} [Decidable c] [Decidable bad] {reason : Nat} (hreason : reason ≠ 0)
    (hc : c ↔ ¬ bad) : require c (configError (BitVec.ofNat 16 i) (BitVec.ofNat 8 reason))
      = descAnswer i (if bad then reason else 0) := by
  by_cases hbad : bad
  · rw [require_of_false fun h => hc.1 h hbad, if_pos hbad, descAnswer, if_neg hreason]
    rfl
  · rw [require_of_true (hc.2 hbad), if_neg hbad, descAnswer, if_pos rfl]

theorem checkSingle_eq (hoffset : FieldAt s i 0 4 offset) : checkSingle s i expLen
    = descAnswer i (if expLen = 0 then 4 else if s.params.imageLen ≤ offset then 7 else 0) := by
  refine require_bind_descAnswer (reason := 4) (by decide) Iff.rfl ?_
  rw [descOffset_of hoffset, check_bind_ok]
  exact require_descAnswer (reason := 7) (by decide) Nat.not_le.symm

theorem checkRegion_eq (hoffset : FieldAt s i 0 4 offset) (hnewLen : FieldAt s i 6 1 newLen)
    (hregionLen : FieldAt s i 8 2 regionLen) : checkRegion s i
    = descAnswer i (if 120 < newLen then 5 else if regionLen < newLen then 6
        else if s.params.imageLen < offset + regionLen then 7 else 0) := by
  rw [checkRegion, descNewLen_of hnewLen, check_bind_ok]
  refine require_bind_descAnswer (reason := 5) (by decide) Nat.not_lt.symm ?_
  rw [descRegionLen_of hregionLen, check_bind_ok]
  refine require_bind_descAnswer (reason := 6) (by decide) Nat.not_lt.symm ?_
  rw [descOffset_of hoffset, check_bind_ok]
  exact require_descAnswer (reason := 7) (by decide) Nat.not_lt.symm

/-- On a written descriptor `check_desc` answers with the first failing reason (R161). -/
theorem checkDesc_eq {kind rsv : Nat} (hkind : FieldAt s i 4 1 kind) (hrsv : FieldAt s i 10 6 rsv)
    (hexpLen : FieldAt s i 5 1 expLen) (hoffset : FieldAt s i 0 4 offset) (hnewLen : FieldAt s i 6 1 newLen)
    (hregionLen : FieldAt s i 8 2 regionLen) :
    checkDesc s i = descAnswer i (descReason s.params.imageLen kind rsv expLen offset newLen regionLen) := by
  rw [checkDesc, descKind_of hkind, check_bind_ok, descReason]
  refine require_bind_descAnswer (reason := 1) (by decide) (by omega) ?_
  rw [descRsv_of hrsv, check_bind_ok]
  refine require_bind_descAnswer (reason := 2) (by decide) Decidable.not_not.symm ?_
  rw [descExpLen_of hexpLen, check_bind_ok]
  refine require_bind_descAnswer (reason := 3) (by decide) Nat.not_lt.symm ?_
  by_cases hk : kind = 0
  · rw [if_pos hk, if_pos hk]
    exact checkSingle_eq hoffset
  · rw [if_neg hk, if_neg hk]
    exact checkRegion_eq hoffset hnewLen hregionLen

end Desc

/-- Settles O17: the checks one after another, each with its reason where it is the first to fail. -/
theorem descriptorCheckOrder : Obligations.DescriptorCheckOrder := by
  intro s i kind rsv expLen offset newLen regionLen hkind hrsv hexpLen hoffset hnewLen hregionLen r
  have hanswer : checkDesc s i = descAnswer i r := checkDesc_eq hkind hrsv hexpLen hoffset hnewLen hregionLen
  exact ⟨fun h => hanswer.trans (if_pos h), fun h => hanswer.trans (if_neg h)⟩

/-- Settles O24: the copy keeps the cells of SRC below IMAGE_LEN. -/
theorem copyCommand : Obligations.CopyCommand :=
  ⟨fun _ => decode_eq_ok_iff_eq_encode rfl, fun _ => ⟨_, rfl, rfl, fun _ hk => memRead_filter hk⟩⟩

/-- Settles O25: an OUTCOME without listed cells reads as NOT_ATTEMPTED everywhere. -/
theorem clearCountsCommand : Obligations.ClearCountsCommand :=
  ⟨fun _ => decode_eq_ok_iff_eq_encode rfl, fun _ => ⟨_, rfl, rfl, fun _ _ => rfl⟩⟩

/-- Settles O34: only a failed configuration check or validation ends a run with one of these errors (`execRun_next`),
and either comes before anything but SEQ is written after the clearing. -/
theorem runErrorBeforeWork : Obligations.RunErrorBeforeWork := by
  intro s t ht herr
  rcases execRun_next ht with ⟨e, p, i, hp, -, rfl⟩ | ⟨u, -, ⟨-, rfl⟩ | ⟨-, rfl⟩⟩
  · refine ⟨rfl, rfl, rfl, fun _ => rfl, ?_, rfl⟩
    rcases hp with ⟨rfl, -⟩ | ⟨rfl, rfl, -⟩
    · exact .inl rfl
    · exact .inr rfl
  · rcases herr with h | h | h <;> cases h
  · rcases herr with h | h | h <;> cases h

/-! ### PATCH_STEP and CODE_WRITE -/

/-- The bytes a replacement puts at its offset: the new byte, or the new code and then filler (43_patch_applier.md R140,
R142). -/
def Replacement.bytes : Replacement → List Byte
  | .single new         => [new]
  | .region code n fill => code ++ List.replicate (n - code.length) fill

section PatchStep

variable {s u : State} {i : Nat} {p : Patch}

/-- A patch whose expected bytes stand at its window is applied: its bytes are written there (R165). -/
theorem applyPatch_of_cellsAt (hp : PatchAt s i p) (hok : p.Ok s.params)
    (hcells : CellsAt s .work p.offset p.expected) :
    applyPatch i s = .ok (writeBytes .work p.offset p.repl.bytes s) := by
  cases hrepl : p.repl with
  | single new =>
    obtain ⟨-, hform⟩ := hok
    rw [hrepl] at hform
    obtain ⟨old, hold⟩ : ∃ old, p.expected[0]? = some old :=
      ⟨_, List.getElem?_eq_getElem (List.length_pos_iff.2 hform.1)⟩
    have hcur : byteAt s .work p.offset = some old :=
      (hcells 0 (List.length_pos_iff.2 hform.1)).trans hold
    rw [applyPatch, descKind_of (hp.kind_of_single hrepl), check_bind_ok, if_pos rfl,
      applySinglePatch_eq hp hrepl hold hcur, if_pos rfl]
    rfl
  | region code n fill =>
    rw [applyPatch, descKind_of (hp.kind_of_region hrepl), check_bind_ok, if_neg Nat.one_ne_zero,
      applyRegionPatch_eq hp hrepl, regionBytes_eq (hok.code_fits hrepl)]
    rfl

theorem patchStep_of_match (hm : matchPatch s i = .ok true) (ha : applyPatch i s = .ok u) :
    patchStep i s = .ok (true, countApplied i u) := by
  rw [patchStep, hm, check_bind_ok, if_pos rfl, ha]
  rfl

theorem patchStep_of_mismatch (hm : matchPatch s i = .ok false) : patchStep i s = .ok (false, countFailed i s) := by
  rw [patchStep, hm, check_bind_ok, if_neg Bool.false_ne_true]
  rfl

/-- On a valid patch PATCH_STEP completes as its patch step says (R166). -/
theorem execPatchStep_of_patchStep {m : Bool} (hi : patchIndexOk s i) (hp : PatchAt s i p) (hok : p.Ok s.params)
    (h : patchStep i (notValid s) = .ok (m, u)) : execPatchStep i s = .next (complete m u) := by
  obtain ⟨hcount, hmax⟩ := hi
  show runCheck (notValid s) (checkPatch (notValid s) i >>= fun _ => patchStep i (notValid s)) _ = _
  rw [checkPatch_of_patchAt (s := notValid s) hcount hmax hp.afterNotValid hok, check_bind_ok, h, runCheck_ok]

end PatchStep

/-- Settles O28: the window matches, so the patch's bytes are written at its offset and OUTCOME at its index. -/
theorem patchStepApplies : Obligations.PatchStepApplies := by
  intro s i p hi hp hok hin hcells
  have hmatch : matchPatch (notValid s) i = .ok true := by
    rw [matchPatch_of_window (s := notValid s) hp.afterNotValid rfl hin hcells, beq_self_eq_true]
  have hstep := patchStep_of_match hmatch (applyPatch_of_cellsAt (s := notValid s) hp.afterNotValid hok hcells)
  obtain ⟨-, hcellsIn, hcellsOut⟩ := complete_writeBytes_work true p.offset p.repl.bytes s
  refine ⟨_, execPatchStep_of_patchStep hi hp hok hstep, rfl, byteAt_writeByte_outcome (by decide),
    fun k hk => byteAt_writeByte_ne (.inr hk), ?_⟩
  cases hrepl : p.repl with
  | single new =>
    rw [hrepl] at hcellsIn hcellsOut
    exact ⟨hcellsIn 0 Nat.one_pos, fun k hk => hcellsOut k (Nat.lt_or_gt_of_ne hk)⟩
  | region code n fill =>
    rw [hrepl] at hcellsIn hcellsOut
    have hlen : (Replacement.region code n fill).bytes.length = n := by
      rw [Replacement.bytes, ← regionBytes_eq (hok.code_fits hrepl), length_regionBytes]
    exact ⟨hcellsIn, fun k hk => hcellsOut k (by rwa [hlen])⟩

/-- Settles O29: the window leaves the image or holds other bytes, so the patch is counted as failed. -/
theorem patchStepSkips : Obligations.PatchStepSkips := by
  intro s i p hi hp hok hne hwindow
  have hmatch : matchPatch (notValid s) i = .ok false := by
    rcases hwindow with hout | ⟨hin, window, hlen, hcells, hdiff⟩
    · exact matchPatch_outside (s := notValid s) hp.afterNotValid hne hout
    · rw [matchPatch_of_window (s := notValid s) hp.afterNotValid hlen (.inr hin) hcells, beq_eq_false_iff_ne.2 hdiff]
  exact ⟨_, execPatchStep_of_patchStep hi hp hok (patchStep_of_mismatch hmatch), rfl,
    byteAt_writeByte_outcome (by decide), fun k hk => byteAt_writeByte_ne (.inr hk)⟩

section CodeWrite

variable {s : State} {j : Nat}

/-- On an index in range CODE_WRITE answers what becomes of its operands, which OUTPUT_VALID does not touch (R168). -/
theorem execCodeWrite_eq (hj : codeIndexOk s j) : execCodeWrite j s
    = runCheck (notValid s) (codeWriteOperands s j) fun r =>
        .next (complete false { writeByte .work r.2.2 r.2.1 (notValid s) with
          decAddr := r.1, decValue := r.2.1, offsetOut := BitVec.ofNat 32 r.2.2 }) := by
  rw [← codeWriteOperands_congr (s := notValid s) (u := s) rfl rfl j]
  show runCheck (notValid s) (checkCodeIndex (notValid s) j >>= fun _ => codeWriteOperands (notValid s) j) _ = _
  rw [checkCodeIndex_eq_ok (s := notValid s) hj, check_bind_ok]
  rfl

theorem execCodeWrite_of_operands {r : BitVec 16 × Byte × Nat} (hj : codeIndexOk s j)
    (h : codeWriteOperands s j = .ok r) : execCodeWrite j s
      = .next (complete false { writeByte .work r.2.2 r.2.1 (notValid s) with
          decAddr := r.1, decValue := r.2.1, offsetOut := BitVec.ofNat 32 r.2.2 }) := by
  rw [execCodeWrite_eq hj, h, runCheck_ok]

theorem execCodeWrite_of_invalid {e : CmdError} (hj : codeIndexOk s j)
    (h : checkCode s.params (BitVec.ofNat 16 j) (codeEntryByte s j) = .error (.raised e)) :
    execCodeWrite j s = .next (ended e.code e.info false (notValid s)) := by
  rw [execCodeWrite_eq hj, codeWriteOperands, h]
  rfl

end CodeWrite

/-- Settles O30: the operands are the code's pair and offset, a cell behind the header. -/
theorem codeWriteCommand : Obligations.CodeWriteCommand := by
  intro s j n hP hj hn
  obtain ⟨hheader, himage⟩ := codeCell_bounds hP n
  exact ⟨_, execCodeWrite_of_operands hj (codeWriteOperands_of_codeAt hP hn), rfl, hheader, himage,
    byteAt_writeByte_same (s := notValid s) (b := .work) rfl,
    fun k hk => byteAt_writeByte_ne (s := notValid s) (.inr hk)⟩

/-- Settles O31: the two failures of the code check end the command before it writes. -/
theorem codeWriteRejectsInvalidCode : Obligations.CodeWriteRejectsInvalidCode :=
  fun _ _ _ hj => ⟨fun _ hl hne => execCodeWrite_of_invalid hj (checkCode_of_wrongLength hl hne),
    fun _ hk => execCodeWrite_of_invalid hj (checkCode_of_firstBadChar hk)⟩

end Sys2Proof.Machine

/-! ### RUN

#### The counters and OUTCOME

What the patch phase makes of the counters and of OUTCOME, as a tally of the patches' results; it holds of every run
that reaches its DONE phase. -/

namespace Sys2Proof.Machine

open Claims

/-- The OUTCOME byte of a patch that applied, and of one that did not (10_state.md R41). -/
def outcomeOf (applied : Bool) : Byte := if applied then 0x01 else 0x02

/-- From `v` to `w` the patches from index `k` on were counted and recorded with the results `flags` (44_orchestrator.md
R165), and nothing else of the counters and OUTCOME changed. -/
structure Tally (k : Nat) (v w : State) (flags : List Bool) : Prop where
  applied : w.appliedCnt = v.appliedCnt + BitVec.ofNat 32 (flags.count true)
  failed : w.failedCnt = v.failedCnt + BitVec.ofNat 32 (flags.count false)
  recorded : ∀ j b, flags[j]? = some b → byteAt w .outcome (k + j) = some (outcomeOf b)
  kept : ∀ a, a < k ∨ k + flags.length ≤ a → byteAt w .outcome a = byteAt v .outcome a

theorem count_true_add_count_false (flags : List Bool) : flags.count true + flags.count false = flags.length := by
  induction flags with
  | nil => rfl
  | cons b flags ih =>
    rw [List.count_cons, List.count_cons, List.length_cons, ← ih]
    cases b
    · exact (Nat.add_assoc _ _ 1).symm
    · exact Nat.add_right_comm _ 1 _

section Tally

variable {i k : Nat} {s v u w : State} {b : Bool} {flags : List Bool}

theorem Tally.nil : Tally k v v [] := ⟨by simp, by simp, nofun, fun _ _ => rfl⟩

theorem Tally.cons (hb : Tally k v u [b]) (hflags : Tally (k + 1) u w flags) : Tally k v w (b :: flags) where
  applied := by
    rw [hflags.applied, hb.applied, BitVec.add_assoc, ← BitVec.ofNat_add, ← List.count_append, List.singleton_append]
  failed := by
    rw [hflags.failed, hb.failed, BitVec.add_assoc, ← BitVec.ofNat_add, ← List.count_append, List.singleton_append]
  recorded j c hc := by
    cases j with
    | zero => exact (hflags.kept k (.inl k.lt_succ_self)).trans (hb.recorded 0 c hc)
    | succ j =>
      rw [← Nat.add_assoc, Nat.add_right_comm]
      exact hflags.recorded j c hc
  kept a ha := by
    rw [List.length_cons] at ha
    exact (hflags.kept a (by omega)).trans (hb.kept a (by rw [List.length_singleton]; omega))

/-- A byte of OUTCOME written at the patch's index records its result. -/
theorem tally_writeByte_outcome (happlied : u.appliedCnt = v.appliedCnt + BitVec.ofNat 32 ([b].count true))
    (hfailed : u.failedCnt = v.failedCnt + BitVec.ofNat 32 ([b].count false)) (houtcome : u.outcome = v.outcome) :
    Tally i v (writeByte .outcome i (outcomeOf b) u) [b] where
  applied := happlied
  failed := hfailed
  recorded j c hc := by
    cases j with
    | zero =>
      cases hc
      exact byteAt_writeByte_outcome (by cases b <;> decide)
    | succ j => cases hc
  kept a ha := by
    rw [List.length_singleton] at ha
    rw [byteAt_writeByte_ne (.inr (by omega)), byteAt, byteAt, getMem_outcome, getMem_outcome, houtcome]

theorem tally_countApplied (happlied : u.appliedCnt = v.appliedCnt) (hfailed : u.failedCnt = v.failedCnt)
    (houtcome : u.outcome = v.outcome) : Tally i v (countApplied i u) [true] :=
  tally_writeByte_outcome (u := { u with appliedCnt := u.appliedCnt + 1 }) (b := true) (congrArg (· + 1) happlied)
    (hfailed.trans (BitVec.add_zero _).symm) houtcome

theorem tally_countFailed (v : State) : Tally i v (countFailed i v) [false] :=
  tally_writeByte_outcome (u := { v with failedCnt := v.failedCnt + 1 }) (b := false) (BitVec.add_zero _).symm rfl rfl

theorem Tally.of_moveSeq {p : Phase} {x : BitVec 16} (h : Tally k (moveSeq p x v) w flags) : Tally k v w flags :=
  ⟨h.applied, h.failed, h.recorded, h.kept⟩

theorem StepsTo.tally (h : StepsTo i v u) : ∃ b, Tally i v u [b] := by
  rcases h with rfl | ⟨w, rfl, rfl | ⟨off, bs, -, rfl⟩⟩
  · exact ⟨false, tally_countFailed v⟩
  · exact ⟨true, tally_countApplied rfl rfl rfl⟩
  · exact ⟨true, tally_countApplied rfl rfl rfl⟩

/-- Code turns leave the counters and OUTCOME alone (R167). -/
theorem Tally.runCodes {l : List Nat} (h : Tally k v w flags) (hw : RunFrame s w)
    (hu : forEach runCode l w = .done u) : Tally k v u flags ∧ RunFrame s u :=
  runCodes_done (p := fun x => Tally k v x flags) (fun _ _ _ _ _ hx => ⟨hx.applied, hx.failed, hx.recorded, hx.kept⟩)
    hw h hu

theorem runPatch_frame (h : runPatch i v = .done w) (hd : checkDesc v i = .ok ()) : RunFrame v w :=
  RunFrame.trans (u := moveSeq .patch (BitVec.ofNat 16 i) v) rfl (runPatch_done h hd).frame

theorem runCode_frame (h : runCode i v = .done w) : RunFrame v w := by
  obtain ⟨n, rfl⟩ := runCode_done h
  rfl

theorem RunFrame.checkDesc_eq (h : RunFrame s v) (i : Nat) : checkDesc v i = checkDesc s i := by
  obtain ⟨-, -, -, -, -, -, -, -, hptab, -, hparams, -⟩ := h.fields
  exact checkDesc_congr hptab hparams i

/-- A patch phase counts and records each of its patches. -/
theorem runPatches_tally {n : Nat} (hd : ∀ i, i < k + n → checkDesc s i = .ok ()) (hv : RunFrame s v)
    (h : forEach runPatch (List.range' k n) v = .done w) :
    RunFrame s w ∧ ∃ flags, flags.length = n ∧ Tally k v w flags := by
  induction n generalizing k v with
  | zero =>
    cases h
    exact ⟨hv, [], rfl, .nil⟩
  | succ n ih =>
    obtain ⟨u, hu, hrest⟩ := andThen_eq_done h
    have hdesc : checkDesc v k = .ok () := (hv.checkDesc_eq k).trans (hd k (by omega))
    obtain ⟨b, hb⟩ := (runPatch_done hu hdesc).tally
    obtain ⟨hw, flags, hlen, hflags⟩ := ih (fun i hi => hd i (by omega)) (hv.trans (runPatch_frame hu hdesc)) hrest
    exact ⟨hw, b :: flags, congrArg (· + 1) hlen, hb.of_moveSeq.cons hflags⟩

theorem RunFolds.tally (h : RunFolds s u) :
    ∃ flags, flags.length = s.patchCount.toNat ∧ Tally 0 (runStart s) u flags := by
  obtain ⟨hd, -, -, -, w, hw, hu⟩ := h
  rw [List.range_eq_range'] at hw
  obtain ⟨hframe, flags, hlen, hflags⟩ := runPatches_tally (s := runStart s) (fun i hi =>
    (checkDesc_congr rfl rfl i).trans (hd i (by omega))) (.refl _) hw
  exact ⟨flags, hlen, (hflags.runCodes hframe hu).1⟩

/-- A run's counters start at 0 (R172). -/
theorem Tally.counts (h : Tally k (runStart s) u flags) :
    u.appliedCnt = BitVec.ofNat 32 (flags.count true) ∧ u.failedCnt = BitVec.ofNat 32 (flags.count false) :=
  ⟨h.applied.trans (BitVec.zero_add _), h.failed.trans (BitVec.zero_add _)⟩

/-- They do not wrap in a run: a table holds far fewer patches (10_state.md R26). -/
theorem Tally.toNat_counts (h : Tally k (runStart s) u flags) (hlen : flags.length < 2 ^ 32) :
    u.appliedCnt.toNat = flags.count true ∧ u.failedCnt.toNat = flags.count false := by
  obtain ⟨happlied, hfailed⟩ := h.counts
  have htrue := List.count_le_length (a := true) (l := flags)
  have hfalse := List.count_le_length (a := false) (l := flags)
  rw [happlied, hfailed]
  exact ⟨Nat.mod_eq_of_lt (by omega), Nat.mod_eq_of_lt (by omega)⟩

end Tally

/-! #### The end of a run -/

/-- What RUN answers in its DONE phase, from the state its patch and code phases left (44_orchestrator.md R171,
R172). -/
def runEnd (u : State) : State :=
  if u.appliedCnt = 0 then completeRaised noneApplied (latchSeq (moveSeq .done 0 u))
  else complete false (latchSeq (setOutputValid true (moveSeq .done 0 u)))

section RunEnd

variable {s t u : State}

theorem runEnd_of_noneApplied (h : u.appliedCnt = 0) :
    runEnd u = completeRaised noneApplied (latchSeq (moveSeq .done 0 u)) := if_pos h

theorem runEnd_of_applied (h : u.appliedCnt ≠ 0) :
    runEnd u = complete false (latchSeq (setOutputValid true (moveSeq .done 0 u))) := if_neg h

@[simp] theorem getMem_runEnd (u : State) (b : Buf) : getMem (runEnd u) b = getMem u b := by
  unfold runEnd
  split <;> cases b <;> rfl

@[simp] theorem byteAt_runEnd (u : State) (b : Buf) (k : Nat) : byteAt (runEnd u) b k = byteAt u b k := by
  rw [byteAt, getMem_runEnd, byteAt]

@[simp] theorem runEnd_params (u : State) : (runEnd u).params = u.params := by unfold runEnd; split <;> rfl
@[simp] theorem runEnd_appliedCnt (u : State) : (runEnd u).appliedCnt = u.appliedCnt := by unfold runEnd; split <;> rfl
@[simp] theorem runEnd_failedCnt (u : State) : (runEnd u).failedCnt = u.failedCnt := by unfold runEnd; split <;> rfl
@[simp] theorem runEnd_seqPos (u : State) : (runEnd u).seqPos = ⟨.done, 0⟩ := by unfold runEnd; split <;> rfl

/-- A run whose SEQ_POS shows the DONE phase is one whose phases all ended well. -/
theorem execRun_done (h : execRun s = .next t) (hdone : t.seqPos.phase = .done) : ∃ u, RunFolds s u ∧ t = runEnd u := by
  rcases execRun_next h with ⟨e, p, i, hp, -, rfl⟩ | ⟨u, hu, ⟨hnone, rfl⟩ | ⟨happlied, rfl⟩⟩
  · have hphase : p = .done := hdone
    rcases hp with ⟨rfl, -⟩ | ⟨rfl, -⟩ <;> cases hphase
  · exact ⟨u, hu, (runEnd_of_noneApplied hnone).symm⟩
  · exact ⟨u, hu, (runEnd_of_applied happlied).symm⟩

end RunEnd

/-- Settles O35: the tally of the run's patches, and the two ends of its DONE phase. -/
theorem runCountsEveryPatch : Obligations.RunCountsEveryPatch := by
  intro s t _ ht hdone
  obtain ⟨u, hu, rfl⟩ := execRun_done ht hdone
  obtain ⟨flags, hlen, hflags⟩ := hu.tally
  obtain ⟨htrue, hfalse⟩ := hflags.toNat_counts (by have := s.patchCount.isLt; omega)
  rw [runEnd_appliedCnt, runEnd_failedCnt]
  refine ⟨runEnd_seqPos u, ?_, fun h => ?_, fun h => ?_⟩
  · rw [htrue, hfalse, count_true_add_count_false, hlen]
  · have hvalid : u.status.outputValid = false := by rw [hu.status]
    rw [runEnd_of_noneApplied h]
    exact ⟨rfl, rfl, hvalid⟩
  · rw [runEnd_of_applied h]
    exact ⟨rfl, rfl, rfl⟩

/-! #### RUN and its parts as commands

RUN's turns and the commands PATCH_STEP and CODE_WRITE work on states that differ in STATUS, ERR_INFO, the result
registers and SEQ only (`withControl`), which no turn reads. -/

/-- `s` with the control fields of `c`: those that commands write and no patch or code turn reads. -/
def withControl (c s : State) : State :=
  { s with
    status := c.status, errInfo := c.errInfo, decAddr := c.decAddr, decValue := c.decValue, offsetOut := c.offsetOut
    seq := c.seq }

/-- `h`, left by commands, and `v`, left by turns of RUN, differ in the control fields at most. -/
def SameButControl (v h : State) : Prop := withControl h v = h

section Control

variable {s v w u h c : State} {i j : Nat}

theorem readCell_withControl (c s : State) (b : Buf) (k : Nat) : readCell (withControl c s) b k = readCell s b k := by
  cases b <;> rfl

theorem descField_withControl (c s : State) (i b n : Nat) : descField (withControl c s) i b n = descField s i b n :=
  descField_congr (s := withControl c s) (u := s) rfl i b n

theorem descNewCode_withControl (c s : State) (i n : Nat) : descNewCode (withControl c s) i n = descNewCode s i n :=
  congrArg engineRead (readCells_congr (s := withControl c s) (u := s) (fun _ => rfl) (newCodeBase i) n)

theorem withControl_params (c s : State) : (withControl c s).params = s.params := rfl

theorem matchFrom_withControl (c s : State) (off base n : Nat) :
    matchFrom (withControl c s) off base n = matchFrom s off base n := by
  induction n generalizing off base with
  | zero => rfl
  | succ n ih => simp only [matchFrom, readCell_withControl, ih]

theorem matchPatch_withControl (c s : State) (i : Nat) : matchPatch (withControl c s) i = matchPatch s i := by
  simp only [matchPatch, descOffset, descExpLen, descField_withControl, matchWindow, matchFrom_withControl,
    withControl_params]

/-- A change of the result of a check in sequence is one of the result of its last part. -/
theorem map_check_bind {α β γ : Type} (x : Check α) (f : α → Check β) (g : β → γ) :
    (x >>= f).map g = x >>= fun a => (f a).map g := by
  cases x <;> rfl

theorem applySingle_withControl (c s : State) (off : Nat) (old new : Byte) :
    applySingle off old new (withControl c s) = (applySingle off old new s).map (Prod.map id (withControl c)) := by
  rw [applySingle, applySingle, readCell_withControl]
  cases engineRead (readCell s .work off) with
  | error e => rfl
  | ok cur =>
    rw [check_bind_ok, check_bind_ok]
    by_cases h : cur = old
    · rw [if_pos h, if_pos h]
      rfl
    · rw [if_neg h, if_neg h]
      rfl

theorem applySinglePatch_withControl (c s : State) (i : Nat) :
    applySinglePatch i (withControl c s) = (applySinglePatch i s).map (Prod.map id (withControl c)) := by
  simp only [applySinglePatch, descOffset, descOldByte, descByte, descField_withControl, readCell_withControl,
    applySingle_withControl, map_check_bind]

theorem applyRegionPatch_withControl (c s : State) (i : Nat) :
    applyRegionPatch i (withControl c s) = (applyRegionPatch i s).map (withControl c) := by
  simp only [applyRegionPatch, descOffset, descNewLen, descRegionLen, descByte, descField_withControl,
    descNewCode_withControl, readCell_withControl, map_check_bind]
  rfl

theorem applyPatch_withControl (c s : State) (i : Nat) :
    applyPatch i (withControl c s) = (applyPatch i s).map (withControl c) := by
  rw [applyPatch, applyPatch, descKind, descKind, descField_withControl, applySinglePatch_withControl,
    applyRegionPatch_withControl]
  cases descField s i 4 1 with
  | error e => rfl
  | ok kind =>
    rw [check_bind_ok, check_bind_ok]
    by_cases h : kind = 0
    · rw [if_pos h, if_pos h]
      cases applySinglePatch i s <;> rfl
    · rw [if_neg h, if_neg h]

theorem patchStep_withControl (c s : State) (i : Nat) :
    patchStep i (withControl c s) = (patchStep i s).map (Prod.map id (withControl c)) := by
  rw [patchStep, patchStep, matchPatch_withControl, applyPatch_withControl]
  rcases matchPatch s i with e | (_ | _)
  · rfl
  · rfl
  · cases applyPatch i s <;> rfl

/-- From states that differ in the control fields at most, a patch turn and PATCH_STEP leave such states (R172,
R166). -/
theorem execPatchStep_of_runPatch (hsame : SameButControl v h) (hi : patchIndexOk v i) (hd : checkDesc v i = .ok ())
    (hw : runPatch i v = .done w) : ∃ k, exec (.patchStep i) h = .next k ∧ SameButControl w k := by
  obtain ⟨⟨m, u⟩, hstep, hdone⟩ := withCheck_eq_done hw
  cases hdone
  have hcontrol : setOutputValid false h
      = withControl (setOutputValid false h) (moveSeq .patch (BitVec.ofNat 16 i) v) := by
    rw [← hsame]
    rfl
  have hpatch : patchStep i (setOutputValid false h) = .ok (m, withControl (setOutputValid false h) u) := by
    rw [hcontrol, patchStep_withControl, hstep]
    rfl
  have hcheck : checkPatch (setOutputValid false h) i = .ok () := by
    have hindex : patchIndexOk (setOutputValid false h) i := by
      rw [hcontrol]
      exact hi
    rw [checkPatch, checkIndex_eq_ok hindex, check_bind_ok, hcontrol]
    exact (checkDesc_congr rfl rfl i).trans hd
  refine ⟨complete m (withControl (setOutputValid false h) u), ?_, rfl⟩
  show runCheck _ (checkPatch (setOutputValid false h) i >>= fun _ => patchStep i (setOutputValid false h)) _ = _
  rw [hcheck, check_bind_ok, hpatch, runCheck_ok]

/-- Likewise a code turn and CODE_WRITE (R172, R168). -/
theorem execCodeWrite_of_runCode (hsame : SameButControl v h) (hj : codeIndexOk v j) (hw : runCode j v = .done w) :
    ∃ k, exec (.codeWrite j) h = .next k ∧ SameButControl w k := by
  obtain ⟨r, hr, hdone⟩ := withCheck_eq_done hw
  cases hdone
  have hoperands : codeWriteOperands h j = .ok r := by
    rw [← hsame]
    exact (codeWriteOperands_congr rfl rfl j).trans hr
  have hindex : codeIndexOk h j := by
    rw [← hsame]
    exact hj
  refine ⟨_, execCodeWrite_of_operands hindex hoperands, ?_⟩
  rw [← hsame]
  rfl

theorem execAll_append {l l' : List Instr} (h : execAll l s = .next u) : execAll (l ++ l') s = execAll l' u := by
  induction l generalizing s with
  | nil =>
    cases h
    rfl
  | cons a l ih =>
    rw [execAll] at h
    rw [List.cons_append, execAll]
    cases ha : exec a s with
    | next x =>
      rw [ha] at h
      exact ih h
    | fault r => rw [ha] at h; cases h
    | refused r => rw [ha] at h; cases h

/-- Where each turn of a loop is matched by a command, `R` relating their states, the loop is matched by the commands in
order. -/
theorem execAll_of_forEach {R : State → State → Prop} {body : Nat → State → RunResult} {command : Nat → Instr}
    {l : List Nat} (hstep : ∀ i ∈ l, ∀ v w h, R v h → body i v = .done w → ∃ k, exec (command i) h = .next k ∧ R w k)
    (hsame : R v h) (hw : forEach body l v = .done w) :
    ∃ k, execAll (l.map command) h = .next k ∧ R w k := by
  induction l generalizing v h with
  | nil =>
    cases hw
    exact ⟨h, rfl, hsame⟩
  | cons i l ih =>
    obtain ⟨x, hx, hrest⟩ := andThen_eq_done hw
    obtain ⟨y, hy, hxy⟩ := hstep i (List.mem_cons_self ..) v x h hsame hx
    obtain ⟨k, hk, hwk⟩ := ih (fun j hj => hstep j (List.mem_cons_of_mem _ hj)) hxy hrest
    refine ⟨k, ?_, hwk⟩
    rw [List.map_cons, execAll, hy]
    exact hk

/-- From a state of a run's patch phase, PATCH_STEP follows the patch turn: the configuration check has passed. -/
theorem RunFolds.execPatchStep_follows (hu : RunFolds s u) (hi : i < s.patchCount.toNat)
    (hsame : RunFrame (runStart s) v ∧ SameButControl v h) (hw : runPatch i v = .done w) :
    ∃ k, exec (.patchStep i) h = .next k ∧ RunFrame (runStart s) w ∧ SameButControl w k := by
  obtain ⟨hdescs, -, hpmax, -⟩ := hu
  obtain ⟨hv, hsame⟩ := hsame
  have hindex : patchIndexOk v i := by
    obtain ⟨-, -, -, -, hcount, -, -, -, -, -, hparams, -⟩ := hv.fields
    rw [patchIndexOk, hcount, hparams]
    exact ⟨hi, Nat.lt_of_lt_of_le hi hpmax⟩
  have hdesc : checkDesc v i = .ok () :=
    (hv.checkDesc_eq i).trans ((checkDesc_congr (s := runStart s) (u := s) rfl rfl i).trans (hdescs i hi))
  obtain ⟨k, hk, hwk⟩ := execPatchStep_of_runPatch hsame hindex hdesc hw
  exact ⟨k, hk, hv.trans (runPatch_frame hw hdesc), hwk⟩

/-- From a state of a run's code phase, CODE_WRITE follows the code turn. -/
theorem RunFolds.execCodeWrite_follows (hu : RunFolds s u) (hj : j < s.codeCount.toNat)
    (hsame : RunFrame (runStart s) v ∧ SameButControl v h) (hw : runCode j v = .done w) :
    ∃ k, exec (.codeWrite j) h = .next k ∧ RunFrame (runStart s) w ∧ SameButControl w k := by
  obtain ⟨-, -, -, hcmax, -⟩ := hu
  obtain ⟨hv, hsame⟩ := hsame
  have hindex : codeIndexOk v j := by
    obtain ⟨-, -, -, -, -, hcount, -, -, -, -, hparams, -⟩ := hv.fields
    rw [codeIndexOk, hcount, hparams]
    exact ⟨hj, Nat.lt_of_lt_of_le hj hcmax⟩
  obtain ⟨k, hk, hwk⟩ := execCodeWrite_of_runCode hsame hindex hw
  exact ⟨k, hk, hv.trans (runCode_frame hw), hwk⟩

/-- The commands that do by hand what RUN does after its checks (44_orchestrator.md). -/
theorem RunFolds.execAll (hu : RunFolds s u) :
    ∃ k, Claims.execAll (.copy :: .clearCounts :: ((List.range s.patchCount.toNat).map .patchStep
        ++ (List.range s.codeCount.toNat).map .codeWrite)) s = .next k ∧ SameButControl u k := by
  have ⟨_, _, _, _, w, hw, hcodes⟩ := hu
  obtain ⟨y, hy, hwy⟩ := execAll_of_forEach
    (fun i hi _ _ _ => hu.execPatchStep_follows (List.mem_range.1 hi))
    (h := complete false (clearCounts (complete false (copyImage (setOutputValid false s))))) ⟨.refl _, rfl⟩ hw
  obtain ⟨k, hk, -, huk⟩ := execAll_of_forEach
    (fun j hj _ _ _ => hu.execCodeWrite_follows (List.mem_range.1 hj)) hwy hcodes
  exact ⟨k, (execAll_append hy).trans hk, huk⟩

end Control

/-- Settles O36: the hand-driven commands follow the run turn by turn. -/
theorem runEqualsHandDrivenFold : Obligations.RunEqualsHandDrivenFold := by
  intro s t _ ht hdone
  obtain ⟨u, hu, rfl⟩ := execRun_done ht hdone
  obtain ⟨k, hk, hsame⟩ := hu.execAll
  refine ⟨k, hk, ?_⟩
  rw [runEnd_appliedCnt, runEnd_failedCnt, ← hsame]
  exact ⟨(getMem_runEnd u .work).symm, rfl, rfl, (getMem_runEnd u .outcome).symm⟩

end Sys2Proof.Machine

/-! #### RUN and the source's `run(image, patches, codes)`

On a buffer that holds a whole image each turn of RUN is one step of the source's folds (Reference.lean). -/

namespace Sys2Proof.Machine

open Claims

section Turns

variable {s v w u : State} {i j k : Nat} {p : Patch} {n : Nibbles} {im : List Byte}

/-- One step of the source's fold over the patches, on the image alone. -/
def patchImage (p : Patch) (im : List Byte) : List Byte :=
  if verifyWindow im p.offset p.expected then replaceAt im p.offset p.repl else im

theorem foldPatches_cons (p : Patch) (ps : List Patch) (im : List Byte) : foldPatches (p :: ps) im
    = ((foldPatches ps (patchImage p im)).1,
        verifyWindow im p.offset p.expected :: (foldPatches ps (patchImage p im)).2) := by
  rw [foldPatches, patchImage]
  cases verifyWindow im p.offset p.expected <;> rfl

theorem length_foldPatches (ps : List Patch) (im : List Byte) : (foldPatches ps im).2.length = ps.length := by
  induction ps generalizing im with
  | nil => rfl
  | cons p ps ih => rw [foldPatches_cons, List.length_cons, List.length_cons, ih]

/-- The source's replacement is the machine's sequence of bytes, inside the image (43_patch_applier.md R144). -/
theorem replaceAt_eq {P : Params} (hok : p.Ok P) (hlen : im.length = P.imageLen) :
    p.offset + p.repl.bytes.length ≤ im.length
      ∧ replaceAt im p.offset p.repl
        = im.take p.offset ++ p.repl.bytes ++ im.drop (p.offset + p.repl.bytes.length) := by
  obtain ⟨-, hform⟩ := hok
  cases hrepl : p.repl with
  | single new =>
    rw [hrepl] at hform
    have hin : p.offset < im.length := hlen ▸ hform.2
    refine ⟨hin, ?_⟩
    rw [replaceAt, List.set_eq_take_append_cons_drop, if_pos hin, Replacement.bytes, List.append_assoc]
    rfl
  | region code n fill =>
    rw [hrepl] at hform
    obtain ⟨-, hfits, hin⟩ := hform
    have hbytes : (Replacement.region code n fill).bytes.length = n := by
      rw [Replacement.bytes, ← regionBytes_eq hfits, length_regionBytes]
    rw [hbytes]
    exact ⟨hlen ▸ hin, rfl⟩

theorem cellsAt_of_verifyWindow (him : ImageAt s .work im) (h : verifyWindow im p.offset p.expected = true) :
    CellsAt s .work p.offset p.expected := by
  have hwindow : (im.drop p.offset).take p.expected.length = p.expected := eq_of_beq h
  obtain ⟨-, hcells⟩ := him
  rw [← hwindow]
  exact cellsAt_window hcells _ _

theorem runPatch_of_patchStep {m : Bool} (h : patchStep i (moveSeq .patch (BitVec.ofNat 16 i) v) = .ok (m, u)) :
    runPatch i v = .done u := by
  rw [runPatch, h, withCheck_ok]

theorem runCode_of_operands {r : BitVec 16 × Byte × Nat}
    (h : codeWriteOperands (moveSeq .code (BitVec.ofNat 16 j) v) j = .ok r) :
    runCode j v = .done (writeByte .work r.2.2 r.2.1 (moveSeq .code (BitVec.ofNat 16 j) v)) := by
  rw [runCode, h, withCheck_ok]

/-- A patch turn on a whole image: the source's step on the image, its result counted and recorded. -/
theorem runPatch_of_image (hp : PatchAt v i p) (hok : p.Ok v.params) (him : ImageAt v .work im) :
    ∃ u, runPatch i v = .done u ∧ RunFrame v u ∧ ImageAt u .work (patchImage p im)
      ∧ Tally i v u [verifyWindow im p.offset p.expected] := by
  have hpatch : PatchAt (moveSeq .patch (BitVec.ofNat 16 i) v) i p := hp
  have himage : ImageAt (moveSeq .patch (BitVec.ofNat 16 i) v) .work im := him
  have hmatch := matchPatch_of_image hpatch himage
  cases hm : verifyWindow im p.offset p.expected with
  | true =>
    rw [hm] at hmatch
    have hstep := patchStep_of_match hmatch (applyPatch_of_cellsAt hpatch hok (cellsAt_of_verifyWindow himage hm))
    obtain ⟨hin, hreplace⟩ := replaceAt_eq hok him.1
    refine ⟨_, runPatch_of_patchStep hstep, rfl, ?_, tally_countApplied rfl rfl rfl⟩
    rw [patchImage, if_pos hm, hreplace]
    exact imageAt_writeBytes himage hin
  | false =>
    rw [hm] at hmatch
    refine ⟨_, runPatch_of_patchStep (patchStep_of_mismatch hmatch), rfl, ?_, (tally_countFailed _).of_moveSeq⟩
    rw [patchImage, hm]
    exact him

/-- A code turn on a whole image: the source's write. -/
theorem runCode_of_image (hP : v.params.wf = true) (hn : CodeAt v j n) (him : ImageAt v .work im) :
    ∃ u, runCode j v = .done u ∧ ImageAt u .work (im.set ((decodeAddr n).toNat - 0x8000 + v.params.headerSize)
      (decodeValue n)) :=
  ⟨_, runCode_of_operands (codeWriteOperands_of_codeAt (s := moveSeq .code (BitVec.ofNat 16 j) v) hP hn),
    imageAt_writeByte (s := moveSeq .code (BitVec.ofNat 16 j) v) him⟩

theorem RunFrame.patchAt (h : RunFrame s u) (hp : PatchAt s i p) : PatchAt u i p := by
  obtain ⟨-, -, -, -, -, -, -, -, hptab, -⟩ := h.fields
  have hcell : ∀ a, byteAt u .ptab a = byteAt s .ptab a := fun a => congrArg (memRead none · a) hptab
  simpa only [PatchAt, FieldAt, CellsAt, hcell] using hp

theorem RunFrame.codeAt (h : RunFrame s u) (hn : CodeAt s j n) : CodeAt u j n := by
  obtain ⟨-, -, -, -, -, -, -, -, -, hctab, -⟩ := h.fields
  have hcell : ∀ a, byteAt u .ctab a = byteAt s .ctab a := fun a => congrArg (memRead none · a) hctab
  simpa only [CodeAt, CellsAt, hcell, h.params] using hn

/-- The patch phase on a whole image is the source's fold over the patches (R165, R172). -/
theorem runPatches_of_image {ps : List Patch}
    (hps : ∀ i p, ps[i]? = some p → PatchAt v (k + i) p ∧ p.Ok v.params) (him : ImageAt v .work im) :
    ∃ w, forEach runPatch (List.range' k ps.length) v = .done w ∧ RunFrame v w
      ∧ ImageAt w .work (foldPatches ps im).1 ∧ Tally k v w (foldPatches ps im).2 := by
  induction ps generalizing k v im with
  | nil => exact ⟨v, rfl, .refl v, him, .nil⟩
  | cons p ps ih =>
    obtain ⟨hp, hok⟩ := hps 0 p rfl
    rw [Nat.add_zero] at hp
    obtain ⟨u, hu, hvu, himu, htally⟩ := runPatch_of_image hp hok him
    have hrest : ∀ i q, ps[i]? = some q → PatchAt u (k + 1 + i) q ∧ q.Ok u.params := fun i q hq => by
      obtain ⟨hpq, hokq⟩ := hps (i + 1) q hq
      rw [← Nat.add_assoc, Nat.add_right_comm] at hpq
      exact ⟨hvu.patchAt hpq, hvu.params ▸ hokq⟩
    obtain ⟨w, hw, huw, himw, htallies⟩ := ih hrest himu
    rw [foldPatches_cons]
    refine ⟨w, ?_, hvu.trans huw, himw, htally.cons htallies⟩
    rw [List.length_cons, List.range'_succ, forEach_cons, hu]
    exact hw

/-- The code phase on a whole image is the source's code writes (R167, R172). -/
theorem runCodes_of_image {cs : List Nibbles} (hP : v.params.wf = true)
    (hcs : ∀ j n, cs[j]? = some n → CodeAt v (k + j) n) (him : ImageAt v .work im) :
    ∃ w, forEach runCode (List.range' k cs.length) v = .done w ∧ ImageAt w .work (foldCodes v.params im cs) := by
  induction cs generalizing k v im with
  | nil => exact ⟨v, rfl, him⟩
  | cons n cs ih =>
    have hn : CodeAt v k n := hcs 0 n rfl
    obtain ⟨u, hu, himu⟩ := runCode_of_image hP hn him
    have hvu := runCode_frame hu
    have hrest : ∀ j m, cs[j]? = some m → CodeAt u (k + 1 + j) m := fun j m hm => by
      have hjm := hcs (j + 1) m hm
      rw [← Nat.add_assoc, Nat.add_right_comm] at hjm
      exact hvu.codeAt hjm
    obtain ⟨w, hw, himw⟩ := ih (hvu.params ▸ hP) hrest himu
    rw [hvu.params] at himw
    refine ⟨w, ?_, himw⟩
    rw [List.length_cons, List.range'_succ, forEach_cons, hu]
    exact hw

end Turns

section Run

variable {s w u : State} {image : List Byte}

/-- RUN on a valid configuration and a valid image ends as its patch and code phases do (R172). -/
theorem execRun_of_phases {x : BitVec 16}
    (hconfig : checkConfig true (clearCounts (setOutputValid false s))
      = .done (moveSeqIf true .config x (clearCounts (setOutputValid false s))))
    (hvalid : validate s = .ok ())
    (hw : forEach runPatch (List.range s.patchCount.toNat) (runStart s) = .done w)
    (hu : forEach runCode (List.range w.codeCount.toNat) w = .done u) : execRun s = .next (runEnd u) := by
  have hformat : runFormat (clearCounts (setOutputValid false s)) = .done (runStart s) := by
    rw [runFormat, validate_runCleared, hvalid]
    rfl
  have hpatches : forEach runPatch (List.range (runStart s).patchCount.toNat) (runStart s) = .done w := hw
  rw [execRun, runBody_of_config hconfig, hformat, andThen_done, hpatches, andThen_done, hu, andThen_done, runDone]
  by_cases h : u.appliedCnt = 0
  · rw [runEnd_of_noneApplied h, if_pos (show (moveSeq .done 0 u).appliedCnt = 0 from h)]
  · rw [runEnd_of_applied h, if_neg (show ¬ (moveSeq .done 0 u).appliedCnt = 0 from h)]

/-- An image of the right length and header passes the validation (41_image_validator.md R120). -/
theorem validate_of_headerOk (hP : s.params.wf = true) (hlen : s.srcLen.toNat = s.params.imageLen)
    (him : ImageAt s .src image) (hheader : headerOk s.params image) : validate s = .ok () := by
  obtain ⟨-, hcells⟩ := him
  obtain ⟨hmagic, hbank0, hbank1⟩ := hheader
  have hcell : ∀ {k v}, image[k]? = some v → byteAt s .src k = some v := fun {k v} h => by
    rw [← h, ← hcells k (List.getElem?_eq_some_iff.1 h).1, Nat.zero_add]
  refine validate_eq_ok hlen (fun j hj => ?_) (hcell hbank0) (hcell hbank1)
  rw [Nat.zero_add, List.getElem?_eq_getElem hj]
  refine hcell ?_
  obtain ⟨hmagicLen, -⟩ := wf_bounds hP
  rw [← List.getElem?_eq_getElem hj, ← hmagic, List.getElem?_take_of_lt (hmagicLen ▸ hj)]

/-- RUN starts its patch phase with the image copied to WORK (44_orchestrator.md R160, R172). -/
theorem imageAt_runStart (him : ImageAt s .src image) : ImageAt (runStart s) .work image := by
  obtain ⟨hlen, hcells⟩ := him
  refine ⟨hlen, fun j hj => ?_⟩
  rw [← hcells j hj]
  exact memRead_filter (by rw [Nat.zero_add]; exact hlen ▸ hj)

theorem RunFrame.exists_writes (h : RunFrame s u) : ∃ work outcome applied failed seq, u = { s with
    work := work, outcome := outcome, appliedCnt := applied, failedCnt := failed, seq := seq } := by
  refine ⟨u.work, u.outcome, u.appliedCnt, u.failedCnt, u.seq, ?_⟩
  conv => rhs; rw [← h]

/-- What a finished run leaves beside WORK, OUTCOME and the counters, where `n` patches applied (R171, R172). -/
theorem runEnd_frame {n : Nat} (h : RunFrame (runStart s) u) (hn : u.appliedCnt = 0 ↔ n = 0) :
    { runEnd u with work := s.work, outcome := s.outcome, appliedCnt := s.appliedCnt, failedCnt := s.failedCnt }
      = { s with
          status := { s.status with
            busy := false, done := true, outputValid := n != 0, matched := false
            err := if n = 0 then .noneApplied else .none }
          errInfo := if n = 0 then ⟨0xFFFF, 0, 0⟩ else ⟨0, 0, 0⟩
          seq := ⟨.done, 0⟩
          seqPos := ⟨.done, 0⟩ } := by
  obtain ⟨work, outcome, applied, failed, seq, rfl⟩ := h.exists_writes
  by_cases h0 : n = 0
  · rw [runEnd_of_noneApplied (hn.2 h0), if_pos h0, if_pos h0, h0]
    rfl
  · rw [runEnd_of_applied (mt hn.1 h0), if_neg h0, if_neg h0, bne_iff_ne.2 h0]
    rfl

theorem imageAt_runEnd (him : ImageAt u .work image) : ImageAt (runEnd u) .work image := by
  simpa only [ImageAt, CellsAt, byteAt_runEnd, runEnd_params] using him

end Run

theorem length_filter_eq_count_true (flags : List Bool) : (flags.filter (· = true)).length = flags.count true := by
  rw [List.count_eq_length_filter]
  congr 2

/-- Settles O32: the phases of RUN are the source's folds on the copied image, and the tally of the patches' results
gives the counters, OUTCOME and the end of the run. -/
theorem runRefinesSource : Obligations.RunRefinesSource := by
  intro s image ps cs hP hlen him hheader hconfig
  obtain ⟨x, hx⟩ := checkConfig_of_configHolds (s := clearCounts (setOutputValid false s)) hP hconfig true
  obtain ⟨hps, hpmax, hcs, -, hpatches, hcodes⟩ := hconfig
  obtain ⟨w, hw, hsw, himw, htallyw⟩ := runPatches_of_image (v := runStart s) (k := 0)
    (fun i p hp => by rw [Nat.zero_add]; exact hpatches i p hp) (imageAt_runStart him)
  obtain ⟨u, hu, himu⟩ := runCodes_of_image (v := w) (k := 0) (hsw.params ▸ hP)
    (fun j n hn => by rw [Nat.zero_add]; exact hsw.codeAt (hcodes j n hn)) himw
  obtain ⟨htally, hsu⟩ := htallyw.runCodes hsw hu
  have hcount : w.codeCount = s.codeCount := by
    obtain ⟨-, -, -, -, -, hcount, -⟩ := hsw.fields
    exact hcount
  rw [← List.range_eq_range', hps] at hw
  rw [← List.range_eq_range', hcs, ← hcount] at hu
  have hflags : (foldPatches ps image).2.length = ps.length := length_foldPatches ps image
  have hsum := count_true_add_count_false (foldPatches ps image).2
  obtain ⟨happlied, hfailed⟩ := htally.counts
  obtain ⟨htoNat, -⟩ := htally.toNat_counts (by have := s.patchCount.isLt; omega)
  refine ⟨runEnd u, execRun_of_phases hx (validate_of_headerOk hP hlen him hheader) hw hu, ?_⟩
  simp only [length_filter_eq_count_true]
  refine ⟨imageAt_runEnd (hsw.params ▸ himu), ?_, ?_, fun k hk => ?_, fun k hk => ?_, runEnd_frame hsu ?_⟩
  · rw [runEnd_appliedCnt, happlied]
  · rw [runEnd_failedCnt, hfailed, ← hflags, ← hsum, Nat.add_sub_cancel_left]
  · obtain ⟨b, hb⟩ : ∃ b, (foldPatches ps image).2[k]? = some b := ⟨_, List.getElem?_eq_getElem (hflags ▸ hk)⟩
    rw [byteAt_runEnd, ← Nat.zero_add k, htally.recorded k b hb, Nat.zero_add, hb]
    cases b <;> rfl
  · rw [byteAt_runEnd, htally.kept k (.inr (by rw [Nat.zero_add, hflags]; exact hk))]
    rfl
  · rw [← htoNat]
    exact BitVec.toNat_inj.symm

end Sys2Proof.Machine

/-! ## Proofs of the family `60_exceptions.md`

### What the port owns

A change of what only the port owns (`portOwned`) is read by no check and overwritten by no part of a command. So every
part of a command commutes with it, and the parts are put together as the commands are: in sequence, over a list, after
a check. -/

namespace Sys2Proof.Machine

open Sys2Proof.Claims

/-- A change of the state a part of a command leaves. -/
def RunResult.map (f : State → State) : RunResult → RunResult
  | .done s     => .done (f s)
  | .raised e s => .raised e (f s)
  | .faulted r  => .faulted r

/-- Doing the part `body` after the change `f` is doing it before, with the same change made to what it leaves. -/
def Commutes (f : State → State) (body : State → RunResult) : Prop := ∀ s, body (f s) = (body s).map f

section Commutes

variable {α : Type} {f : State → State} {g : α → α}

theorem Commutes.andThen {b k : State → RunResult} (hb : Commutes f b) (hk : Commutes f k) :
    Commutes f fun s => andThen (b s) k := by
  intro s
  show Machine.andThen (b (f s)) k = (Machine.andThen (b s) k).map f
  rw [hb s]
  cases b s with
  | done u => exact hk u
  | raised e u => rfl
  | faulted r => rfl

theorem Commutes.forEach {body : Nat → State → RunResult} (h : ∀ i, Commutes f (body i)) (l : List Nat) :
    Commutes f (forEach body l) := by
  induction l with
  | nil => exact fun s => rfl
  | cons i l ih => exact (h i).andThen ih

/-- A loop over a list that the change keeps. -/
theorem Commutes.loop {body : Nat → State → RunResult} {list : State → List Nat} (h : ∀ i, Commutes f (body i))
    (hlist : ∀ s, list (f s) = list s) : Commutes f fun s => Machine.forEach body (list s) s := by
  intro s
  show Machine.forEach body (list (f s)) (f s) = _
  rw [hlist s]
  exact Commutes.forEach h (list s) s

/-- A check whose result changes by `g`, in a part that carries the change `g` on as `f`. -/
theorem withCheck_map (f : State → State) (s : State) {c c' : Check α} {k k' : α → RunResult} (hc : c' = c.map g)
    (hk : ∀ a, k' (g a) = (k a).map f) : withCheck (f s) c' k' = (withCheck s c k).map f := by
  subst hc
  rcases c with (e | r) | a
  · rfl
  · rfl
  · exact hk a

/-- A check that is the same before and after the change. -/
theorem check_eq_map_id {c c' : Check α} (h : c' = c) : c' = c.map id := by
  cases c <;> exact h

end Commutes

section PortOwned

variable {hz ae : Bool} {x : Word} {d : Nat} {l : List Input}

/-! #### Checks -/

theorem readCell_portOwned (s : State) (b : Buf) (k : Nat) :
    readCell (portOwned hz ae x d l s) b k = readCell s b k := by
  cases b <;> rfl

theorem portOwned_params (s : State) : (portOwned hz ae x d l s).params = s.params := rfl

theorem descField_portOwned (s : State) (i b n : Nat) : descField (portOwned hz ae x d l s) i b n = descField s i b n :=
  descField_congr (s := portOwned hz ae x d l s) (u := s) rfl i b n

theorem descNewCode_portOwned (s : State) (i n : Nat) : descNewCode (portOwned hz ae x d l s) i n = descNewCode s i n :=
  congrArg engineRead (readCells_congr (s := portOwned hz ae x d l s) (u := s) (fun _ => rfl) (newCodeBase i) n)

theorem checkPatch_portOwned (s : State) (i : Nat) : checkPatch (portOwned hz ae x d l s) i = checkPatch s i :=
  congrArg (checkIndex s i >>= fun _ => ·) (checkDesc_congr (u := s) rfl rfl i)

theorem checkKind_portOwned (s : State) (i kind : Nat) :
    checkKind (portOwned hz ae x d l s) i kind = checkKind s i kind := by
  simp only [checkKind, descKind, descField_portOwned]

theorem matchFrom_portOwned (s : State) (off base n : Nat) :
    matchFrom (portOwned hz ae x d l s) off base n = matchFrom s off base n := by
  induction n generalizing off base with
  | zero => rfl
  | succ n ih => simp only [matchFrom, readCell_portOwned, ih]

theorem matchPatch_portOwned (s : State) (i : Nat) : matchPatch (portOwned hz ae x d l s) i = matchPatch s i := by
  simp only [matchPatch, descOffset, descExpLen, descField_portOwned, matchWindow, matchFrom_portOwned,
    portOwned_params]

/-! #### Patches -/

theorem applySingle_portOwned (s : State) (off : Nat) (old new : Byte) :
    applySingle off old new (portOwned hz ae x d l s)
      = (applySingle off old new s).map (Prod.map id (portOwned hz ae x d l)) := by
  simp only [applySingle, readCell_portOwned, map_check_bind]
  congr 1
  funext cur
  split <;> rfl

theorem applySinglePatch_portOwned (s : State) (i : Nat) :
    applySinglePatch i (portOwned hz ae x d l s)
      = (applySinglePatch i s).map (Prod.map id (portOwned hz ae x d l)) := by
  simp only [applySinglePatch, descOffset, descOldByte, descByte, descField_portOwned, readCell_portOwned,
    applySingle_portOwned, map_check_bind]

theorem applyRegionPatch_portOwned (s : State) (i : Nat) :
    applyRegionPatch i (portOwned hz ae x d l s) = (applyRegionPatch i s).map (portOwned hz ae x d l) := by
  simp only [applyRegionPatch, descOffset, descNewLen, descRegionLen, descByte, descField_portOwned,
    descNewCode_portOwned, readCell_portOwned, map_check_bind]
  rfl

theorem applyPatch_portOwned (s : State) (i : Nat) :
    applyPatch i (portOwned hz ae x d l s) = (applyPatch i s).map (portOwned hz ae x d l) := by
  simp only [applyPatch, descKind, descField_portOwned, applySinglePatch_portOwned, applyRegionPatch_portOwned,
    map_check_bind]
  congr 1
  funext kind
  split
  · cases applySinglePatch i s <;> rfl
  · rfl

theorem patchStep_portOwned (s : State) (i : Nat) :
    patchStep i (portOwned hz ae x d l s) = (patchStep i s).map (Prod.map id (portOwned hz ae x d l)) := by
  simp only [patchStep, matchPatch_portOwned, applyPatch_portOwned, map_check_bind]
  congr 1
  funext m
  split
  · cases applyPatch i s <;> rfl
  · rfl

theorem setOutputValid_portOwned (b : Bool) (s : State) :
    setOutputValid b (portOwned hz ae x d l s) = portOwned hz ae x d l (setOutputValid b s) := rfl

/-- A command made over a check whose result changes by `g`. -/
theorem runCheck_portOwned {α : Type} (s : State) (g : α → α) {c c' : Check α}
    {k k' : α → Host.Outcome State Fault Refusal} (hc : c' = c.map g)
    (hk : ∀ a, k' (g a) = mapNext (portOwned hz ae x d l) (k a)) :
    runCheck (portOwned hz ae x d l s) c' k' = mapNext (portOwned hz ae x d l) (runCheck s c k) := by
  subst hc
  rcases c with (e | r) | a
  · rfl
  · rfl
  · exact hk a

/-! #### The parts of RUN -/

theorem moveSeqIf_portOwned (b : Bool) (p : Phase) (i : BitVec 16) (s : State) :
    moveSeqIf b p i (portOwned hz ae x d l s) = portOwned hz ae x d l (moveSeqIf b p i s) := by
  cases b <;> rfl

theorem configDesc_commutes (inRun : Bool) (i : Nat) : Commutes (portOwned hz ae x d l) (configDesc inRun i) := by
  intro s
  rw [configDesc, moveSeqIf_portOwned]
  exact withCheck_map _ _ (check_eq_map_id (checkDesc_congr rfl rfl i)) fun _ => rfl

theorem configCode_commutes (inRun : Bool) (j : Nat) : Commutes (portOwned hz ae x d l) (configCode inRun j) := by
  intro s
  rw [configCode, moveSeqIf_portOwned]
  exact withCheck_map _ _ (check_eq_map_id rfl) fun _ => rfl

theorem checkConfig_commutes (inRun : Bool) : Commutes (portOwned hz ae x d l) (checkConfig inRun) := by
  intro s
  rw [checkConfig, moveSeqIf_portOwned]
  exact withCheck_map _ _ (check_eq_map_id rfl) fun _ =>
    Commutes.andThen (.forEach (configDesc_commutes inRun) _)
      (.loop (list := (List.range ·.codeCount.toNat)) (configCode_commutes inRun) fun _ => rfl) _

theorem runPatch_commutes (i : Nat) : Commutes (portOwned hz ae x d l) (runPatch i) := by
  intro s
  refine withCheck_map (portOwned hz ae x d l) (moveSeq .patch (BitVec.ofNat 16 i) s)
    (g := Prod.map id (portOwned hz ae x d l)) ?_ fun _ => rfl
  exact patchStep_portOwned (moveSeq .patch (BitVec.ofNat 16 i) s) i

theorem runCode_commutes (j : Nat) : Commutes (portOwned hz ae x d l) (runCode j) := fun s =>
  withCheck_map (portOwned hz ae x d l) (moveSeq .code (BitVec.ofNat 16 j) s) (check_eq_map_id rfl) fun _ => rfl

theorem runFormat_commutes : Commutes (portOwned hz ae x d l) runFormat := fun s =>
  withCheck_map (portOwned hz ae x d l) (moveSeq .format Config.noEntry s)
    (check_eq_map_id (validate_congr rfl rfl rfl)) fun _ => rfl

theorem runDone_commutes : Commutes (portOwned hz ae x d l) runDone := by
  intro s
  show (if s.appliedCnt = 0 then _ else _) = RunResult.map _ (if s.appliedCnt = 0 then _ else _)
  split <;> rfl

theorem runBody_commutes : Commutes (portOwned hz ae x d l) runBody := fun s =>
  (checkConfig_commutes true).andThen (runFormat_commutes.andThen
    (.andThen (.loop (list := (List.range ·.patchCount.toNat)) runPatch_commutes fun _ => rfl)
      (.andThen (.loop (list := (List.range ·.codeCount.toNat)) runCode_commutes fun _ => rfl) runDone_commutes)))
    (clearCounts (setOutputValid false s))

theorem runOutcome_portOwned (r : RunResult) :
    runOutcome (r.map (portOwned hz ae x d l)) = mapNext (portOwned hz ae x d l) (runOutcome r) := by
  cases r <;> rfl

theorem execRun_portOwned (s : State) :
    execRun (portOwned hz ae x d l s) = mapNext (portOwned hz ae x d l) (execRun s) := by
  rw [execRun, runBody_commutes s, execRun]
  cases runBody s <;> rfl

theorem execToOffset_portOwned (s : State) :
    execToOffset (portOwned hz ae x d l s) = mapNext (portOwned hz ae x d l) (execToOffset s) := by
  cases h : toOffset s.params s.addrIn.toNat with
  | none => rw [execToOffset_of_none (s := portOwned hz ae x d l s) h, execToOffset_of_none h]; rfl
  | some off => rw [execToOffset_of_some (s := portOwned hz ae x d l s) h, execToOffset_of_some h]; rfl

end PortOwned

/-- Settles O43: each meaning is a check and a completion, or RUN's parts, and all of them commute with the change. -/
theorem portDoesNotDisturbCommands : Obligations.PortDoesNotDisturbCommands := by
  intro i s hz ae x d l
  cases i with
  | decode => exact runCheck_portOwned s id (check_eq_map_id rfl) fun _ => rfl
  | encode => exact runCheck_portOwned s id (check_eq_map_id rfl) fun _ => rfl
  | toOffset => exact execToOffset_portOwned s
  | validate => exact runCheck_portOwned s id (check_eq_map_id (validate_congr rfl rfl rfl)) fun _ => rfl
  | verify k =>
    refine runCheck_portOwned s id (check_eq_map_id ?_) fun _ => rfl
    rw [checkPatch_portOwned, matchPatch_portOwned]
  | applySingle k =>
    refine runCheck_portOwned (setOutputValid false s) (Prod.map id (portOwned hz ae x d l)) ?_ fun _ => rfl
    simp only [setOutputValid_portOwned, checkPatch_portOwned, checkKind_portOwned, applySinglePatch_portOwned,
      map_check_bind]
  | applyRegion k =>
    refine runCheck_portOwned (setOutputValid false s) (portOwned hz ae x d l) ?_ fun _ => rfl
    simp only [setOutputValid_portOwned, checkPatch_portOwned, checkKind_portOwned, applyRegionPatch_portOwned,
      map_check_bind]
  | copy => rfl
  | checkConfig =>
    show runOutcome (checkConfig false (portOwned hz ae x d l s)) = _
    rw [checkConfig_commutes false s]
    exact runOutcome_portOwned _
  | patchStep k =>
    refine runCheck_portOwned (setOutputValid false s) (Prod.map id (portOwned hz ae x d l)) ?_ fun _ => rfl
    simp only [setOutputValid_portOwned, checkPatch_portOwned, patchStep_portOwned, map_check_bind]
  | codeWrite j => exact runCheck_portOwned (setOutputValid false s) id (check_eq_map_id rfl) fun _ => rfl
  | run => exact execRun_portOwned s
  | clearCounts => rfl

end Sys2Proof.Machine

/-! ### Errors

How a command ends as to errors: with none, with an error found before anything that counts is written, or, RUN alone,
with NONE_APPLIED. -/

namespace Sys2Proof.Machine

open Sys2Proof.Claims

/-- `u` holds what `s` holds of WORK and the result registers, and of the counters and OUTCOME where `i` is not RUN
(60_exceptions.md R203). -/
def KeepsResults (i : Instr) (s u : State) : Prop :=
  u.work = s.work ∧ u.decAddr = s.decAddr ∧ u.decValue = s.decValue ∧ u.offsetOut = s.offsetOut
    ∧ u.codeOut0 = s.codeOut0 ∧ u.codeOut1 = s.codeOut1
    ∧ (i ≠ .run → u.appliedCnt = s.appliedCnt ∧ u.failedCnt = s.failedCnt ∧ u.outcome = s.outcome)

theorem KeepsResults.refl (i : Instr) (s : State) : KeepsResults i s s :=
  ⟨rfl, rfl, rfl, rfl, rfl, rfl, fun _ => ⟨rfl, rfl, rfl⟩⟩

/-- The one thing a command other than RUN writes before its checks is OUTPUT_VALID. -/
theorem KeepsResults.outputInvalid (i : Instr) (s : State) : KeepsResults i s (setOutputValid false s) :=
  .refl i s

/-- RUN has cleared the counters and OUTCOME when its checks begin (44_orchestrator.md R172). -/
theorem KeepsResults.runCleared (p : Phase) (k : BitVec 16) (s : State) :
    KeepsResults .run s (latchSeq (moveSeq p k (clearCounts (setOutputValid false s)))) :=
  ⟨rfl, rfl, rfl, rfl, rfl, rfl, fun h => absurd rfl h⟩

/-- How command `i`, started in `s`, ends as to errors, `EndsWith i s t`. -/
inductive EndsWith (i : Instr) (s : State) : State → Prop
  /-- Without error. -/
  | ok {t : State} (h : t.status.err = .none) : EndsWith i s t
  /-- With an error of R200's for the command, found before its first write (R203). -/
  | early {e : CmdError} {u : State} (he : e.code ∈ mayRaise i) (hu : KeepsResults i s u) :
      EndsWith i s (completeRaised e u)
  /-- A run in which no patch applied (44_orchestrator.md R171). -/
  | unapplied {u : State} (hi : i = .run) : EndsWith i s (completeRaised noneApplied u)

theorem execCheckConfig_endsWith {s t : State} (h : execCheckConfig s = .next t) : EndsWith .checkConfig s t := by
  obtain ⟨-, hraised⟩ := checkConfig_cases false s
  unfold execCheckConfig at h
  cases hc : checkConfig false s with
  | done u =>
    rw [hc] at h
    cases h
    exact .ok rfl
  | raised e u =>
    rw [hc] at h
    cases h
    obtain ⟨he, -, k, rfl⟩ := hraised e u hc
    exact .early (by simp [mayRaise, he]) (.refl _ _)
  | faulted f => rw [hc] at h; cases h

theorem execRun_endsWith {s t : State} (h : execRun s = .next t) : EndsWith .run s t := by
  rcases execRun_next h with ⟨e, p, k, hp, -, rfl⟩ | ⟨u, -, ⟨-, rfl⟩ | ⟨-, rfl⟩⟩
  · refine .early ?_ (.runCleared p k s)
    rcases hp with ⟨-, he | he⟩ | ⟨-, -, he⟩ <;> simp [mayRaise, he]
  · exact .unapplied rfl
  · exact .ok rfl

/-- All the ways a command ends. -/
theorem exec_endsWith {i : Instr} {s t : State} (h : exec i s = .next t) : EndsWith i s t := by
  cases i with
  | decode =>
    rcases execDecode_next h with ⟨n, rfl⟩ | ⟨e, rfl, he, -⟩
    · exact .ok rfl
    · exact .early (by simp [mayRaise, he]) (.refl _ s)
  | encode =>
    rcases execEncode_next h with ⟨a, b, rfl⟩ | ⟨e, rfl, he, -⟩
    · exact .ok rfl
    · exact .early (by simp [mayRaise, he]) (.refl _ s)
  | toOffset =>
    rcases execToOffset_next h with ⟨a, rfl⟩ | ⟨e, rfl, he, -⟩
    · exact .ok rfl
    · exact .early (by simp [mayRaise, he]) (.refl _ s)
  | validate =>
    rcases execValidate_next h with rfl | ⟨e, rfl, he, -⟩
    · exact .ok rfl
    · exact .early (by simp [mayRaise, he]) (.refl _ s)
  | verify k =>
    rcases execVerify_next h with ⟨m, rfl⟩ | ⟨e, rfl, he, -⟩
    · exact .ok rfl
    · exact .early (by simp [mayRaise, he]) (.refl _ s)
  | applySingle k =>
    rcases execApplySingle_next h with ⟨m, u, rfl, -⟩ | ⟨e, rfl, he, -⟩
    · exact .ok rfl
    · exact .early (by simp [mayRaise, he]) (.outputInvalid _ s)
  | applyRegion k =>
    rcases execApplyRegion_next h with ⟨off, bs, -, rfl⟩ | ⟨e, rfl, he, -⟩
    · exact .ok rfl
    · exact .early (by simp [mayRaise, he]) (.outputInvalid _ s)
  | copy | clearCounts =>
    cases h
    exact .ok rfl
  | checkConfig => exact execCheckConfig_endsWith h
  | patchStep k =>
    rcases execPatchStep_next h with ⟨m, u, rfl, -⟩ | ⟨e, rfl, he, -⟩
    · exact .ok rfl
    · exact .early (by simp [mayRaise, he]) (.outputInvalid _ s)
  | codeWrite j =>
    rcases execCodeWrite_next h with ⟨n, rfl⟩ | ⟨e, rfl, he, -⟩
    · exact .ok rfl
    · exact .early (by simp [mayRaise, he]) (.outputInvalid _ s)
  | run => exact execRun_endsWith h

/-- Settles O40: such an error is neither NONE nor NONE_APPLIED, so it came before the first write. -/
theorem errorsComeBeforeWrites : Obligations.ErrorsComeBeforeWrites := by
  intro i s t h herr hnone
  cases exec_endsWith h with
  | ok hok => exact absurd hok herr
  | early he hu => exact hu
  | unapplied hi => exact absurd rfl hnone

theorem none_mem_mayRaise (i : Instr) : .none ∈ mayRaise i := by
  cases i <;> exact List.mem_cons_self

/-- Settles O41: NONE is every command's, and NONE_APPLIED is RUN's. -/
theorem errorsPerCommand : Obligations.ErrorsPerCommand := by
  intro i s t h
  cases exec_endsWith h with
  | ok hok => rw [hok]; exact none_mem_mayRaise i
  | early he hu => exact he
  | unapplied hi =>
    subst hi
    show ErrCode.noneApplied ∈ mayRaise .run
    decide

/-! ### Acceptance -/

section Acceptance

variable {w : Word} {a : PortAddr} {s : State}

/-- The six commands that write WORK, by their opcodes (10_state.md R36). -/
theorem clearsOutputValid_iff (i : Instr) :
    clearsOutputValid i = true ↔ i.opc ∈ [0x06, 0x07, 0x08, 0x0A, 0x0B, 0x0C] := by
  cases i <;> simp [clearsOutputValid, Instr.opc]

/-- A word writes WORK exactly when it is legal and its command clears OUTPUT_VALID. -/
theorem writesWork_iff : writesWork w ↔ ∃ i, decode w = .ok i ∧ clearsOutputValid i = true := by
  constructor
  · rintro ⟨hopc, hrsv, hidx⟩
    have hdefined : ¬ badOpc w := fun hbad => by
      simp only [List.mem_cons, List.not_mem_nil, or_false] at hopc
      unfold badOpc at hbad
      omega
    obtain ⟨i, hi⟩ := exists_decode_of_legal hdefined hrsv hidx
    obtain ⟨hfield, -⟩ := decode_eq_ok_iff.1 hi
    exact ⟨i, hi, (clearsOutputValid_iff i).2 (hfield ▸ hopc)⟩
  · rintro ⟨i, hi, hclears⟩
    obtain ⟨hfield, -⟩ := decode_eq_ok_iff.1 hi
    have hlegal := (decodesExactlyLegalWords w).1 ⟨i, hi⟩
    refine ⟨?_, fun hrsv => hlegal (.inr (.inl hrsv)), fun hidx => hlegal (.inr (.inr hidx))⟩
    show opcField w ∈ _
    rw [hfield]
    exact (clearsOutputValid_iff i).1 hclears

theorem acceptStatus_outputValid_of_writesWork (h : writesWork w) (st : Status) :
    (acceptStatus w st).outputValid = false := by
  obtain ⟨i, hi, hclears⟩ := writesWork_iff.1 h
  simp [acceptStatus, hi, Except.toOption, hclears]

theorem acceptStatus_outputValid_of_not_writesWork (h : ¬ writesWork w) (st : Status) :
    (acceptStatus w st).outputValid = st.outputValid := by
  cases hd : decode w with
  | error e => simp [acceptStatus, hd, Except.toOption]
  | ok i =>
    have hclears : clearsOutputValid i = false :=
      Bool.eq_false_iff.2 fun hc => h (writesWork_iff.2 ⟨i, hd, hc⟩)
    simp [acceptStatus, hd, Except.toOption, hclears]

/-- A word access at 0x000 reaches CMD (20_memory.md R51, 10_state.md R21). -/
theorem portTarget_cmd {P : Params} (ha : a.toNat = 0x000) : portTarget P .word a = some (.reg .cmd) := by
  simp [portTarget, ha, widthBytes, regAt]

/-- A CMD write while idle is the acceptance of its word (60_exceptions.md R202). -/
theorem hostWrite_cmd (ha : a.toNat = 0x000) (hidle : s.status.busy = false) : hostWrite .word a w s = accept w s :=
  hostWrite_reg hidle (portTarget_cmd ha) rfl

end Acceptance

/-- Settles O51: the access reaches CMD, whose write accepts the word while idle and is a hazard while busy. -/
theorem commandAccepted : Obligations.CommandAccepted := by
  intro a w s ha
  refine ⟨fun hidle => ⟨⟨(acceptStatus w s.status).outputValid, hostWrite_cmd ha hidle, ?_, ?_⟩, ?_⟩,
    fun hbusy => ?_⟩
  · exact fun h => acceptStatus_outputValid_of_writesWork h s.status
  · exact fun h => acceptStatus_outputValid_of_not_writesWork h s.status
  · exact hostRead_idle hidle (portTarget_cmd ha)
  · exact hostWrite_busy hbusy (portTarget_cmd ha) rfl

/-! ### A command from its write to its completion -/

theorem run_succ_of_next {M : Host.Core} {s t : M.State} {k : Nat} (h : M.step s = .next t) :
    M.run (k + 1) s = M.run k t := by
  rw [Host.Core.run, h]

theorem run_one (M : Host.Core) (s : M.State) : M.run 1 s = M.step s := by
  rw [Host.Core.run]
  cases M.step s <;> rfl

/-- Settles O57: the first step accepts the word, and the second is the engine's turn on it. -/
theorem writtenCommandIsPerformed : Obligations.WrittenCommandIsPerformed := by
  intro s a w i hP hidle ha hinputs hi
  have hfirst : step s = .next (accept w { s with inputs := [] }) :=
    (step_of_input hP hinputs).trans (congrArg Host.Outcome.next (hostWrite_cmd ha hidle))
  have hsecond : step (accept w { s with inputs := [] }) = exec i (accept w { s with inputs := [] }) :=
    (step_of_no_input (s := accept w { s with inputs := [] }) hP rfl).trans (engineTurn_of_decode rfl hi)
  exact (run_succ_of_next (M := Sys2Proof.core) hfirst).trans ((run_one Sys2Proof.core _).trans hsecond)

end Sys2Proof.Machine

/-! ## Proofs of the family `70_reset_and_hazards.md`

### The busy rule

What a host access does while a command is in progress: first each access, then all of them as a change of what the port
owns. -/

namespace Sys2Proof.Machine

open Sys2Proof.Claims

section BusyAccess

variable {w : Width} {a : PortAddr} {s : State} {x : Target}

/-- While busy an admitted read of anything but STATUS is a hazard (70_reset_and_hazards.md R233). -/
theorem hostRead_busy (hbusy : s.status.busy = true) (ht : portTarget s.params w a = some x) (hx : x ≠ .reg .status) :
    hostRead w a s = .next (hazardRead w s) := by
  simp [hostRead, ht, hbusy, hx]

/-- STATUS may always be read (R233, 20_memory.md R56). -/
theorem hostRead_status (ht : portTarget s.params w a = some (.reg .status)) :
    hostRead w a s = .next (answer (statusWord s.status) s) := by
  simp [hostRead, ht, readTarget, readReg]

/-- While busy a read reaches nothing, or STATUS, or it is a hazard; it always answers. -/
theorem hostRead_busy_portOwned (hbusy : s.status.busy = true) :
    ∃ hz ae v d, hostRead w a s = .next (portOwned hz ae v d s.inputs s)
      ∧ (s.status.hazard = true → hz = true) ∧ (portTarget s.params w a ≠ some (.reg .status) → hz = true) := by
  cases ht : portTarget s.params w a with
  | none =>
    refine ⟨true, true, 0, s.draws, ?_, fun _ => rfl, fun _ => rfl⟩
    rw [hostRead_not_admitted ht, if_pos hbusy]
    rfl
  | some x =>
    by_cases hx : x = .reg .status
    · subst hx
      exact ⟨s.status.hazard, s.status.accessErr, _, s.draws, hostRead_status ht, id, fun h => absurd rfl h⟩
    · exact ⟨true, s.status.accessErr, _, _, hostRead_busy hbusy ht hx, fun _ => rfl, fun _ => rfl⟩

/-- While busy every write is dropped and is a hazard, ACCESS_ERR marked where it is not admitted (R233, 20_memory.md
R53). -/
theorem hostWrite_busy_portOwned (hbusy : s.status.busy = true) (v : Word) :
    ∃ ae, hostWrite w a v s = portOwned true ae s.rdata s.draws s.inputs s
      ∧ (writeAdmitted s.params w a ≠ none → ae = s.status.accessErr) := by
  cases ht : writeAdmitted s.params w a with
  | none =>
    refine ⟨true, ?_, fun h => absurd rfl h⟩
    rw [hostWrite_not_admitted ht, if_pos hbusy]
    rfl
  | some x =>
    refine ⟨s.status.accessErr, ?_, fun _ => rfl⟩
    rw [hostWrite, ht]
    exact if_pos hbusy

end BusyAccess

/-- Settles O46: a write is a hazard however it is addressed, and a mapped read is one unless it reaches STATUS. -/
theorem busyRule : Obligations.BusyRule := by
  intro w a v s hbusy
  exact ⟨hostWrite_busy_portOwned hbusy v, fun x ht hx => ⟨_, _, hostRead_busy hbusy ht hx⟩, hostRead_status⟩

/-! ### A command in progress among host accesses -/

/-- The access breaks the busy rule of a busy block (70_reset_and_hazards.md R233): a write, or a read of anything but
STATUS. -/
def BreaksBusyRule (P : Params) : Input → Prop
  | .read w a    => portTarget P w a ≠ some (.reg .status)
  | .write _ _ _ => True
  | .engine      => False
  | .reset       => False

/-- Inputs that break the busy rule, in the words of the statement. -/
theorem exists_breaksBusyRule {P : Params} {l : List Input}
    (h : (∃ w a v, Input.write w a v ∈ l) ∨ ∃ w a, Input.read w a ∈ l ∧ portTarget P w a ≠ some (.reg .status)) :
    ∃ i ∈ l, BreaksBusyRule P i := by
  rcases h with ⟨w, a, v, hi⟩ | ⟨w, a, hi, ht⟩
  · exact ⟨_, hi, trivial⟩
  · exact ⟨_, hi, ht⟩

/-- While busy an access changes what the port owns only; HAZARD stays set, and a broken busy rule sets it. -/
theorem perform_access_busy {i : Input} {s : State} (hi : isAccess i = true) (hbusy : s.status.busy = true) :
    ∃ hz ae x d, perform i s = .next (portOwned hz ae x d s.inputs s)
      ∧ (s.status.hazard = true → hz = true) ∧ (BreaksBusyRule s.params i → hz = true) := by
  cases i with
  | read w a => exact hostRead_busy_portOwned hbusy
  | write w a v =>
    obtain ⟨ae, hwrite, -⟩ := hostWrite_busy_portOwned (w := w) (a := a) hbusy v
    exact ⟨true, ae, _, _, congrArg _ hwrite, fun _ => rfl, fun _ => rfl⟩
  | engine | reset => cases hi

/-- One step for each pending access leaves the block as it was but for what the port owns, and the next step is the
engine's (20_memory.md R62). -/
theorem run_accesses_busy {s : State} (hP : s.params.wf = true) (hbusy : s.status.busy = true)
    (hi : ∀ i ∈ s.inputs, isAccess i = true) :
    ∃ hz ae x d, Sys2Proof.core.run (s.inputs.length + 1) s = engineTurn (portOwned hz ae x d [] s)
      ∧ (s.status.hazard = true → hz = true) ∧ ((∃ i ∈ s.inputs, BreaksBusyRule s.params i) → hz = true) := by
  induction hl : s.inputs generalizing s with
  | nil =>
    refine ⟨s.status.hazard, s.status.accessErr, s.rdata, s.draws, ?_, id, nofun⟩
    have hsame : portOwned s.status.hazard s.status.accessErr s.rdata s.draws [] s = s := by rw [← hl]; rfl
    rw [hsame]
    exact (run_one Sys2Proof.core s).trans (step_of_no_input hP hl)
  | cons i l ih =>
    rw [hl, List.forall_mem_cons] at hi
    obtain ⟨haccess, hrest⟩ := hi
    obtain ⟨hz, ae, x, d, hperform, hkeep, hbreak⟩ :=
      perform_access_busy (s := { s with inputs := l }) haccess hbusy
    obtain ⟨hz', ae', x', d', hrun, hkeep', hbreak'⟩ := ih (s := portOwned hz ae x d l s) hP hbusy hrest rfl
    have hstep : step s = .next (portOwned hz ae x d l s) := (step_of_input hP hl).trans hperform
    refine ⟨hz', ae', x', d', (run_succ_of_next (M := Sys2Proof.core) hstep).trans hrun, hkeep' ∘ hkeep, ?_⟩
    rintro ⟨j, hj, hjbreak⟩
    rcases List.mem_cons.1 hj with rfl | hj
    · exact hkeep' (hbreak hjbreak)
    · exact hbreak' ⟨j, hj, hjbreak⟩

/-- On a wholly written block the engine's turn completes the command in progress, legal or not, and leaves HAZARD and the
inputs to the port (60_exceptions.md R203, R207). -/
theorem engineTurn_completes {s : State} (hP : s.params.wf = true) (hbusy : s.status.busy = true) (hloaded : Loaded s) :
    ∃ t, engineTurn s = .next t ∧ t.status.busy = false ∧ t.status.done = true ∧ t.inputs = s.inputs
      ∧ t.status.hazard = s.status.hazard := by
  cases hd : decode s.cmd with
  | ok i =>
    obtain ⟨t, ht⟩ := exec_next_of_loaded hP hloaded i
    obtain ⟨hidle, hdone, -⟩ := flagsAtCompletion i s t ht
    have hframe : withEngineWrites s t = t := exec_engineFrame ht
    refine ⟨t, (engineTurn_of_decode hbusy hd).trans ht, hidle, hdone, ?_, ?_⟩ <;> rw [← hframe] <;> rfl
  | error e =>
    refine ⟨completeRaised (illegalCmd e) s, ?_, rfl, rfl, rfl, rfl⟩
    rw [engineTurn, if_pos hbusy, performWord, hd]

/-- Settles O60: by induction over the pending accesses the engine comes to its turn, and its turn completes. -/
theorem pendingCommandCompletes : Obligations.PendingCommandCompletes := by
  intro s hP hbusy hloaded hi
  obtain ⟨hz, ae, x, d, hrun, -, hbreak⟩ := run_accesses_busy hP hbusy hi
  have hloaded' : Loaded (portOwned hz ae x d [] s) := loaded_same hloaded rfl rfl rfl rfl rfl
  obtain ⟨t, hturn, hidle, hdone, hinputs, hhazard⟩ :=
    engineTurn_completes (s := portOwned hz ae x d [] s) hP hbusy hloaded'
  exact ⟨t, hrun.trans hturn, hidle, hdone, hinputs, fun h => hhazard.trans (hbreak (exists_breaksBusyRule h))⟩

/-! ### The reset input -/

section ResetBlock

variable (s : State)

/-- The registers of a block are the same after every reset (10_state.md R44). -/
@[simp] theorem readReg_resetBlock (r : Reg) : readReg r (resetBlock s) = readReg r State.reset := by
  cases r <;> rfl

/-- The cells of a block are the same after every reset (R44). -/
@[simp] theorem byteAt_resetBlock (b : Buf) (k : Nat) : byteAt (resetBlock s) b k = byteAt State.reset b k := by
  cases b <;> rfl

end ResetBlock

/-- After reset every memory but OUTCOME is unwritten (10_state.md R44). -/
theorem byteAt_reset_eq_none {b : Buf} (hb : b ≠ .outcome) (k : Nat) : byteAt State.reset b k = none := by
  cases b with
  | outcome => exact absurd rfl hb
  | src | work | ptab | ctab => rfl

/-- Settles O54: the step is the reset input, which leaves what the state after reset holds. -/
theorem resetInputAbandonsCommand : Obligations.ResetInputAbandonsCommand := by
  intro s l hP hinputs
  obtain ⟨hregs, hseq, hidle, houtcome, -⟩ := stateAfterReset
  refine ⟨resetBlock { s with inputs := l }, step_of_input hP hinputs, fun r => ?_, hseq, hidle, rfl, fun k => ?_,
    fun b k hb => ?_, rfl, rfl⟩
  · rw [readReg_resetBlock, hregs]
  · rw [byteAt_resetBlock, houtcome]
  · rw [byteAt_resetBlock, byteAt_reset_eq_none hb]

end Sys2Proof.Machine
